-- ==== Sys2Proof/Word.lean ====
section
/-! DEFINITION. The word types of the block: a symbol or buffer byte, and a command or response word (00_scope.md R5, R8). Every quantity of the block is unsigned (R8), so these are plain bit vectors. -/

namespace Sys2Proof

/-- A symbol or one entry of RAW or PKD: 8 bits (00_scope.md R5, SYMW). -/
abbrev Byte := BitVec 8

/-- A command word or a response word: 64 bits (00_scope.md R5, CMDW and RESPW). -/
abbrev Word := BitVec 64

/-- The number of bytes that hold `n` bits (00_scope.md R8). -/
def ceil8 (n : Nat) : Nat := (n + 7) / 8

end Sys2Proof
end

