-- ==== Sys2Proof/Config.lean ====
section
/-! DEFINITION. What an implementation fixes: the constant of the ID register, the two open capacities, and the unspecified contents of RAW and PKD after hardware reset. The opaque constants have no body, so every theorem holds for all their values. -/

namespace Sys2Proof.Config

/-- The ID register's constant (10_state.md R27). -/
def idValue : Word := 0x0000000048544201#64

/-- RAW_CAP less one. OPEN in the spec (00_scope.md R5): the type leaves exactly RAW_CAP in 1 .. 2^32 - 1. Log entry 2. -/
opaque rawCapLessOne : Fin 4294967295

/-- PKD_CAP less one. OPEN in the spec (00_scope.md R5), as `rawCapLessOne`. Log entry 2. -/
opaque pkdCapLessOne : Fin 4294967295

/-- RAW_CAP, the number of bytes in RAW, as register 9 shows it. -/
def rawCap : BitVec 32 := BitVec.ofNatLT (rawCapLessOne.val + 1) (Nat.succ_lt_succ rawCapLessOne.isLt)

/-- PKD_CAP, the number of bytes in PKD, as register 10 shows it. -/
def pkdCap : BitVec 32 := BitVec.ofNatLT (pkdCapLessOne.val + 1) (Nat.succ_lt_succ pkdCapLessOne.isLt)

/-- RAW after hardware reset, byte by byte: some fixed value of each byte, not known (10_state.md R43, 93_implementation_defined.md U10). A free value, log entry 3. -/
opaque rawReset : Nat → Byte

/-- PKD after hardware reset, as `rawReset`. A free value, log entry 3. -/
opaque pkdReset : Nat → Byte

end Sys2Proof.Config
end

