-- ==== Sys2Proof/Syntax.lean ====
section
/-! DEFINITION. The command set: one constructor for each of the twenty rows of the opcode map (30_encoding.md R74). The fields are those of the six formats of R72, each at its own width, so that every term is a word of the command channel. -/

namespace Sys2Proof

/-- A legally encoded command (30_encoding.md R72, R74). An operand value that the command's own rule refuses is still a term here; `WellFormed` says which those are. -/
inductive Instr where
  /-- NOP: nothing happens (R90). -/
  | nop
  /-- SRST: soft reset (R91). -/
  | srst
  /-- CLRERR: acknowledge the pending error (R92). -/
  | clrerr
  /-- CLRFREQ: empty the frequency table (R93). -/
  | clrfreq
  /-- WRREG reg, value (R96). -/
  | wrreg (reg : BitVec 8) (val : BitVec 40)
  /-- RDREG reg (R95). -/
  | rdreg (reg : BitVec 8)
  /-- WRFREQ sym, count (R98). -/
  | wrfreq (sym : Byte) (cnt : BitVec 32)
  /-- RDFREQ sym (R97). -/
  | rdfreq (sym : Byte)
  /-- WRNODE idx, kind, pay (R100). -/
  | wrnode (idx : BitVec 9) (kind : BitVec 1) (pay : BitVec 18)
  /-- RDNODE idx (R99). -/
  | rdnode (idx : BitVec 9)
  /-- RDCLEN sym (R101). -/
  | rdclen (sym : Byte)
  /-- RDCBITS sym, chunk (R102). -/
  | rdcbits (sym : Byte) (chunk : BitVec 2)
  /-- WRRAW addr, byte (R104). -/
  | wrraw (addr : BitVec 32) (data : Byte)
  /-- RDRAW addr (R103). -/
  | rdraw (addr : BitVec 32)
  /-- WRPKD addr, byte (R106). -/
  | wrpkd (addr : BitVec 32) (data : Byte)
  /-- RDPKD addr (R105). -/
  | rdpkd (addr : BitVec 32)
  /-- BUILD: unit TB (R120). -/
  | build
  /-- ASSIGN: unit CA (R135). -/
  | assign
  /-- PACK: unit BP (R145). -/
  | pack
  /-- UNPACK: unit BU (R160). -/
  | unpack
  deriving DecidableEq, Repr

/-- The three classes of command that the error gating tells apart (30_encoding.md R80). -/
inductive CommandClass where
  /-- Never changes state unless it raises; runs while an error is pending. -/
  | read
  /-- CLRERR and SRST: always run. -/
  | recover
  /-- Dropped while an error is pending. -/
  | change
  deriving DecidableEq, Repr

end Sys2Proof
end

