-- ==== Sys2Proof/WellFormed.lean ====
section
/-! DEFINITION. Which operand values name something the block has, whatever its state: the operand causes of IllegalCommand in 60_exceptions.md R185. The capacities of RAW and PKD are registers of the machine, so they come in as arguments. -/

namespace Sys2Proof

/-- The operands are in the ranges the command's own rule accepts (40_system_and_access.md R95, R96, R99, R100, R103 to R106; 20_memory.md R56). A command that is not well formed is legally encoded but raises IllegalCommand. -/
def Instr.wellFormed (rawCap pkdCap : BitVec 32) : Instr → Bool
  | .rdreg reg => decide (reg.toNat ≤ 10)
  | .wrreg reg val =>
      (decide (reg = 3#8 ∨ reg = 4#8) && decide (val.toNat ≤ 511)) ||
      (decide (reg = 5#8 ∨ reg = 6#8 ∨ reg = 7#8) && decide (val.toNat ≤ 4294967295))
  | .rdnode idx => decide (idx ≠ 511#9)
  | .wrnode idx kind pay =>
      decide (idx ≠ 511#9) && decide (kind = 1#1 ∨ pay.toNat < 256)
  | .rdraw addr => decide (addr.toNat < rawCap.toNat)
  | .wrraw addr _ => decide (addr.toNat < rawCap.toNat)
  | .rdpkd addr => decide (addr.toNat < pkdCap.toNat)
  | .wrpkd addr _ => decide (addr.toNat < pkdCap.toNat)
  | .nop => true
  | .srst => true
  | .clrerr => true
  | .clrfreq => true
  | .wrfreq _ _ => true
  | .rdfreq _ => true
  | .rdclen _ => true
  | .rdcbits _ _ => true
  | .build => true
  | .assign => true
  | .pack => true
  | .unpack => true

end Sys2Proof
end

