-- ==== Sys2Proof/Decode.lean ====
section
/-! DEFINITION. From a command word to a command and back (30_encoding.md R71 to R76). The opcode map is a table of rows in R74's order; a word selects the row whose mask and pattern it meets. Every one of the 2^64 words has one outcome. -/

namespace Sys2Proof

/-- Why a word is no command (30_encoding.md R75). Both reasons have the same effect on the machine. -/
inductive DecodeReject where
  /-- OP is 0x04 .. 0x0F, 0x1C .. 0x1F or 0x24 .. 0xFF. -/
  | reservedOpcode
  /-- OP is listed but a must-be-zero bit is set. -/
  | mustBeZeroSet
  deriving DecidableEq, Repr

/-- One row of the opcode map (30_encoding.md R74), with the command that its fields (R72) make. -/
structure OpRow where
  /-- The mnemonic, as the table has it. -/
  mnemonic : String
  /-- The bits the row looks at. -/
  mask : Word
  /-- The value those bits must have. -/
  pattern : Word
  /-- The command, from the fields of the word. -/
  make : Word → Instr

/-- Format G, field REG = C[47:40]. -/
def fieldReg (c : Word) : BitVec 8 := c.extractLsb' 40 8
/-- Format G, field VAL = C[39:0]. -/
def fieldVal (c : Word) : BitVec 40 := c.extractLsb' 0 40
/-- Format F, field SYM = C[39:32]. -/
def fieldSymF (c : Word) : Byte := c.extractLsb' 32 8
/-- Format F, field CNT = C[31:0]. -/
def fieldCnt (c : Word) : BitVec 32 := c.extractLsb' 0 32
/-- Format T, field IDX = C[27:19]. -/
def fieldIdx (c : Word) : BitVec 9 := c.extractLsb' 19 9
/-- Format T, field KIND = C[18]. -/
def fieldKind (c : Word) : BitVec 1 := c.extractLsb' 18 1
/-- Format T, field PAY = C[17:0]. -/
def fieldPay (c : Word) : BitVec 18 := c.extractLsb' 0 18
/-- Format K, field CHUNK = C[9:8]. -/
def fieldChunk (c : Word) : BitVec 2 := c.extractLsb' 8 2
/-- Format K, field SYM = C[7:0]. -/
def fieldSymK (c : Word) : Byte := c.extractLsb' 0 8
/-- Format B, field ADDR = C[39:8]. -/
def fieldAddr (c : Word) : BitVec 32 := c.extractLsb' 8 32
/-- Format B, field DATA = C[7:0]. -/
def fieldData (c : Word) : Byte := c.extractLsb' 0 8

/-- The opcode map, twenty rows (30_encoding.md R74). -/
def opcodeTable : List OpRow :=
  [ ⟨"NOP", 0xFFFFFFFFFFFFFFFF#64, 0x0000000000000000#64, fun _ => .nop⟩,
    ⟨"SRST", 0xFFFFFFFFFFFFFFFF#64, 0x0100000000000000#64, fun _ => .srst⟩,
    ⟨"CLRERR", 0xFFFFFFFFFFFFFFFF#64, 0x0200000000000000#64, fun _ => .clrerr⟩,
    ⟨"CLRFREQ", 0xFFFFFFFFFFFFFFFF#64, 0x0300000000000000#64, fun _ => .clrfreq⟩,
    ⟨"WRREG", 0xFFFF000000000000#64, 0x1000000000000000#64,
      fun c => .wrreg (fieldReg c) (fieldVal c)⟩,
    ⟨"RDREG", 0xFFFF00FFFFFFFFFF#64, 0x1100000000000000#64, fun c => .rdreg (fieldReg c)⟩,
    ⟨"WRFREQ", 0xFFFFFF0000000000#64, 0x1200000000000000#64,
      fun c => .wrfreq (fieldSymF c) (fieldCnt c)⟩,
    ⟨"RDFREQ", 0xFFFFFF00FFFFFFFF#64, 0x1300000000000000#64, fun c => .rdfreq (fieldSymF c)⟩,
    ⟨"WRNODE", 0xFFFFFFFFF0000000#64, 0x1400000000000000#64,
      fun c => .wrnode (fieldIdx c) (fieldKind c) (fieldPay c)⟩,
    ⟨"RDNODE", 0xFFFFFFFFF007FFFF#64, 0x1500000000000000#64, fun c => .rdnode (fieldIdx c)⟩ ] ++
  [ ⟨"RDCLEN", 0xFFFFFFFFFFFFFF00#64, 0x1600000000000000#64, fun c => .rdclen (fieldSymK c)⟩,
    ⟨"RDCBITS", 0xFFFFFFFFFFFFFC00#64, 0x1700000000000000#64,
      fun c => .rdcbits (fieldSymK c) (fieldChunk c)⟩,
    ⟨"WRRAW", 0xFFFFFF0000000000#64, 0x1800000000000000#64,
      fun c => .wrraw (fieldAddr c) (fieldData c)⟩,
    ⟨"RDRAW", 0xFFFFFF00000000FF#64, 0x1900000000000000#64, fun c => .rdraw (fieldAddr c)⟩,
    ⟨"WRPKD", 0xFFFFFF0000000000#64, 0x1A00000000000000#64,
      fun c => .wrpkd (fieldAddr c) (fieldData c)⟩,
    ⟨"RDPKD", 0xFFFFFF00000000FF#64, 0x1B00000000000000#64, fun c => .rdpkd (fieldAddr c)⟩,
    ⟨"BUILD", 0xFFFFFFFFFFFFFFFF#64, 0x2000000000000000#64, fun _ => .build⟩,
    ⟨"ASSIGN", 0xFFFFFFFFFFFFFFFF#64, 0x2100000000000000#64, fun _ => .assign⟩,
    ⟨"PACK", 0xFFFFFFFFFFFFFFFF#64, 0x2200000000000000#64, fun _ => .pack⟩,
    ⟨"UNPACK", 0xFFFFFFFFFFFFFFFF#64, 0x2300000000000000#64, fun _ => .unpack⟩ ]

/-- The word meets the row: `C & mask = match` (30_encoding.md R74). -/
def rowMatches (c : Word) (r : OpRow) : Bool := c &&& r.mask == r.pattern

/-- OP = C[63:56] (30_encoding.md R71). -/
def opOf (c : Word) : BitVec 8 := c.extractLsb' 56 8

/-- Decode a command word (30_encoding.md R73, steps 1 and 2). Total; a word no row takes is rejected by name. -/
def decode (c : Word) : Except DecodeReject Instr :=
  match opcodeTable.find? (rowMatches c) with
  | some r => .ok (r.make c)
  | none =>
    if opcodeTable.any (fun r => opOf r.pattern == opOf c) then .error .mustBeZeroSet
    else .error .reservedOpcode

/-- Format N: OP and 56 zero bits (30_encoding.md R72). -/
def encodeN (op : BitVec 8) : Word := (op ++ 0#56).cast rfl
/-- Format G: OP, zeros, REG, VAL (30_encoding.md R72). -/
def encodeG (op reg : BitVec 8) (val : BitVec 40) : Word :=
  (op ++ 0#8 ++ reg ++ val).cast rfl
/-- Format F: OP, zeros, SYM, CNT (30_encoding.md R72). -/
def encodeF (op : BitVec 8) (sym : Byte) (cnt : BitVec 32) : Word :=
  (op ++ 0#16 ++ sym ++ cnt).cast rfl
/-- Format T: OP, zeros, IDX, KIND, PAY (30_encoding.md R72). -/
def encodeT (op : BitVec 8) (idx : BitVec 9) (kind : BitVec 1) (pay : BitVec 18) : Word :=
  (op ++ 0#28 ++ idx ++ kind ++ pay).cast rfl
/-- Format K: OP, zeros, CHUNK, SYM (30_encoding.md R72). -/
def encodeK (op : BitVec 8) (chunk : BitVec 2) (sym : Byte) : Word :=
  (op ++ 0#46 ++ chunk ++ sym).cast rfl
/-- Format B: OP, zeros, ADDR, DATA (30_encoding.md R72). -/
def encodeB (op : BitVec 8) (addr : BitVec 32) (data : Byte) : Word :=
  (op ++ 0#16 ++ addr ++ data).cast rfl

/-- The command word of a command (30_encoding.md R72 for the layout, R74 for OP). It is the `C` that IllegalCommand records (60_exceptions.md R185). Log entry 8. -/
def encode : Instr → Word
  | .nop => encodeN 0x00#8
  | .srst => encodeN 0x01#8
  | .clrerr => encodeN 0x02#8
  | .clrfreq => encodeN 0x03#8
  | .wrreg reg val => encodeG 0x10#8 reg val
  | .rdreg reg => encodeG 0x11#8 reg 0#40
  | .wrfreq sym cnt => encodeF 0x12#8 sym cnt
  | .rdfreq sym => encodeF 0x13#8 sym 0#32
  | .wrnode idx kind pay => encodeT 0x14#8 idx kind pay
  | .rdnode idx => encodeT 0x15#8 idx 0#1 0#18
  | .rdclen sym => encodeK 0x16#8 0#2 sym
  | .rdcbits sym chunk => encodeK 0x17#8 chunk sym
  | .wrraw addr data => encodeB 0x18#8 addr data
  | .rdraw addr => encodeB 0x19#8 addr 0#8
  | .wrpkd addr data => encodeB 0x1A#8 addr data
  | .rdpkd addr => encodeB 0x1B#8 addr 0#8
  | .build => encodeN 0x20#8
  | .assign => encodeN 0x21#8
  | .pack => encodeN 0x22#8
  | .unpack => encodeN 0x23#8

/-- The command word whose bits are `w` in the numbering of opcode_table.json: the block has one 64-bit word for each command and no bytes on its channel (30_encoding.md R71), so that numbering is the word's own. Log entry 1. -/
def tableWord (nbits w : Nat) : Word := BitVec.ofNat 64 (w % 2 ^ nbits)

/-- The host's question: which command this decoder reads from the word with bits `w`. -/
def decodeTableWord (nbits w : Nat) : Option Instr := (decode (tableWord nbits w)).toOption

end Sys2Proof
end

