-- ==== Sys2Proof/Machine/State.lean ====
section
/-! DEFINITION. The state of the block as plain data (10_state.md): its registers, its five memories, and the two word lists of its command and response channels (30_encoding.md R70); the reasons a step could stop; the state after hardware reset (10_state.md R43). -/

namespace Sys2Proof.Machine

/-- The code held in STATUS.ERR (10_state.md R24, 60_exceptions.md R180). Codes 6 to 15 never occur (93_implementation_defined.md U13) and have no constructor. Log entry 9. -/
inductive ErrorCode where
  /-- 0: no error pending. -/
  | none
  /-- 1: BUILD with every FREQ entry 0 (R181). -/
  | emptyInput
  /-- 2: PACK met a byte with no code (R182). -/
  | unknownSymbol
  /-- 3: UNPACK met invalid input (R183). -/
  | corruptStream
  /-- 4: an illegal encoding or operand, or ASSIGN with no built tree (R185). -/
  | illegalCommand
  /-- 5: a length exceeds a buffer's capacity (R186). -/
  | bufferBounds
  deriving DecidableEq, Repr

/-- One entry of NODE (10_state.md R32). -/
inductive NodeEntry where
  /-- `Leaf(sym, w)`. -/
  | leaf (sym : Byte) (w : BitVec 40)
  /-- `Internal(l, r, w)`; a child is an index, 511 being NIL. -/
  | internal (l r : BitVec 9) (w : BitVec 40)
  deriving DecidableEq, Repr

/-- One entry of CODE (10_state.md R36): LEN, and BITS with the first code bit in BITS[255]. -/
structure CodeEntry where
  /-- The length of the code in bits; 0 means that the symbol has no code. -/
  len : BitVec 8
  /-- The code, left-aligned, zeros after it. -/
  bits : BitVec 256
  deriving DecidableEq, Repr

/-- A byte buffer: the bytes written since hardware reset, by rising address. An unlisted address holds no written byte; what it reads as is `Config.rawReset` or `Config.pkdReset` (10_state.md R43). Log entry 3. -/
abbrev Memory := List Host.Cell

/-- The whole state of the block (10_state.md R20, R23), and the two channels (30_encoding.md R70). -/
structure State where
  /-- STATUS[3:0], ERR (R24). -/
  err : ErrorCode
  /-- STATUS[4], TREE_BUILT (R26). -/
  treeBuilt : Bool
  /-- ERRINFO, register 2 (R25). -/
  errinfo : Word
  /-- NNODES, register 3, legal 0 .. 511 (R28). -/
  nnodes : BitVec 10
  /-- ROOT, register 4 (R28). -/
  root : BitVec 9
  /-- RAWLEN, register 5 (R29). -/
  rawlen : BitVec 32
  /-- PKDLEN, register 6 (R29). -/
  pkdlen : BitVec 32
  /-- SYMCNT, register 7 (R29). -/
  symcnt : BitVec 32
  /-- BITCNT, register 8 (R29). -/
  bitcnt : BitVec 40
  /-- RAWCAP, register 9, the constant RAW_CAP (R29). Nothing writes it. Log entry 2. -/
  rawcap : BitVec 32
  /-- PKDCAP, register 10, the constant PKD_CAP (R29). Nothing writes it. Log entry 2. -/
  pkdcap : BitVec 32
  /-- FREQ: a count for each symbol (R30). -/
  freq : Vector (BitVec 32) 256
  /-- NODE: the node arena, entries 0 .. 510 (R31). -/
  node : Vector NodeEntry 511
  /-- CODE: a code for each symbol (R35). -/
  code : Vector CodeEntry 256
  /-- RAW, written bytes (R38). -/
  raw : Memory
  /-- PKD, written bytes (R39). -/
  pkd : Memory
  /-- The command words the host has sent and the block has not taken, oldest first (R70). -/
  commands : List Word
  /-- The response words returned so far, oldest first (R70). -/
  responses : List Word
  deriving DecidableEq, Repr

/-- Why a step stops. The spec has no undefined behaviour (93_implementation_defined.md), so these are raised only in states that no run reaches: ASSIGN and UNPACK raise them, and the invariant of Safety.lean rules both out. Safe: a stop proves nothing. Log entry 6. -/
inductive Fault where
  /-- An index that is no entry of NODE (511, 10_state.md R31) would be read. Raised by ASSIGN with TREE_BUILT = 1 over an arena BUILD did not write, and by UNPACK with NNODES above 511. Safe. -/
  | noSuchNode
  /-- The traversal of 42_code_assigner.md R135 reaches an Internal node by a path of 255 bits, so that it does not end or does not fit CODE (R141). Raised by ASSIGN with TREE_BUILT = 1 over an arena BUILD did not write. Safe. -/
  | traversalTooDeep
  deriving DecidableEq, Repr

/-- Why an instruction is refused. Every command has a meaning, so nothing raises this. -/
inductive Refusal where
  /-- The instruction of this mnemonic has no meaning yet. Raised by no arm. Safe. -/
  | notModelled (mnemonic : String)
  deriving DecidableEq, Repr

/-- The empty CODE entry: no code (10_state.md R36). -/
def CodeEntry.empty : CodeEntry := ⟨0#8, 0#256⟩

/-- The reset value of a NODE entry, the all-zero record (10_state.md R33, R43). -/
def NodeEntry.zero : NodeEntry := .leaf 0#8 0#40

/-- The state after hardware reset (10_state.md R43, 70_reset_and_hazards.md R200). No byte of RAW or PKD is written yet, and no command has been sent. -/
def State.reset : State where
  err := .none
  treeBuilt := false
  errinfo := 0#64
  nnodes := 0#10
  root := 0#9
  rawlen := 0#32
  pkdlen := 0#32
  symcnt := 0#32
  bitcnt := 0#40
  rawcap := Config.rawCap
  pkdcap := Config.pkdCap
  freq := Vector.replicate 256 0#32
  node := Vector.replicate 511 NodeEntry.zero
  code := Vector.replicate 256 CodeEntry.empty
  raw := []
  pkd := []
  commands := []
  responses := []

end Sys2Proof.Machine
end

