-- ==== Sys2Proof/Machine/Flags.lean ====
section
/-! DEFINITION. The STATUS register as the host reads it, and the words that ERRINFO holds for each error (10_state.md R24, R25; 60_exceptions.md R181 to R186). -/

namespace Sys2Proof.Machine

/-- The number of an error code (10_state.md R24). -/
def ErrorCode.number : ErrorCode → BitVec 4
  | .none => 0#4
  | .emptyInput => 1#4
  | .unknownSymbol => 2#4
  | .corruptStream => 3#4
  | .illegalCommand => 4#4
  | .bufferBounds => 5#4

/-- STATUS, register 1: bits 63:5 zero, bit 4 TREE_BUILT, bits 3:0 ERR (10_state.md R24). -/
def State.status (s : State) : Word :=
  (0#59 ++ BitVec.ofBool s.treeBuilt ++ s.err.number).cast rfl

/-- The ERRINFO of CorruptStream and BufferBounds: a sub-cause in bits 63:60 and a number below it (60_exceptions.md R183, R186). -/
def infoSub (sub : BitVec 4) (value : Nat) : Word :=
  (sub ++ BitVec.ofNat 60 value).cast rfl

/-- The ERRINFO of UnknownSymbol: INDEX in bits 39:8, SYMBOL in bits 7:0 (60_exceptions.md R182). -/
def infoUnknownSymbol (index : Nat) (sym : Byte) : Word :=
  (0#24 ++ BitVec.ofNat 32 index ++ sym).cast rfl

/-- CorruptStream sub-cause 1, EXHAUSTED (60_exceptions.md R183). -/
def subExhausted : BitVec 4 := 1#4
/-- CorruptStream sub-cause 2, BADROOT (60_exceptions.md R183). -/
def subBadRoot : BitVec 4 := 2#4
/-- CorruptStream sub-cause 3, MISSING_CHILD (60_exceptions.md R183). -/
def subMissingChild : BitVec 4 := 3#4
/-- CorruptStream sub-cause 4, BADLEAFBIT (60_exceptions.md R183). -/
def subBadLeafBit : BitVec 4 := 4#4

/-- BufferBounds sub-cause 1: PACK with RAWLEN > RAW_CAP (60_exceptions.md R186). -/
def subPackRawlen : BitVec 4 := 1#4
/-- BufferBounds sub-cause 2: PACK with an output larger than PKD_CAP (60_exceptions.md R186). -/
def subPackOutput : BitVec 4 := 2#4
/-- BufferBounds sub-cause 3: UNPACK with PKDLEN > PKD_CAP (60_exceptions.md R186). -/
def subUnpackPkdlen : BitVec 4 := 3#4
/-- BufferBounds sub-cause 4: UNPACK with SYMCNT > RAW_CAP (60_exceptions.md R186). -/
def subUnpackSymcnt : BitVec 4 := 4#4

/-- TREE_BUILT <- 1, which only BUILD does (10_state.md R26). -/
def State.setTreeBuilt (s : State) : State := { s with treeBuilt := true }

/-- TREE_BUILT <- 0: WRNODE, and WRREG to NNODES or ROOT (10_state.md R26). -/
def State.clearTreeBuilt (s : State) : State := { s with treeBuilt := false }

end Sys2Proof.Machine
end

