-- ==== Sys2Proof/Machine/Ops.lean ====
section
/-! DEFINITION. The named operations over registers and memories, raising an error and clearing one, and the three ways a command runs under the error gating (20_memory.md, 60_exceptions.md R188 to R190, 30_encoding.md R73). -/

namespace Sys2Proof.Machine

/-! ### The byte buffers RAW and PKD -/

/-- The written byte at an address, if it is listed. -/
def Memory.read? : Memory → Nat → Option Byte
  | [], _ => none
  | (a, b) :: m, i => if a = i then some b else Memory.read? m i

/-- Write one byte, keeping the addresses strictly rising. -/
def Memory.write : Memory → Nat → Byte → Memory
  | [], i, v => [(i, v)]
  | (a, b) :: m, i, v =>
    if i < a then (i, v) :: (a, b) :: m
    else if i = a then (a, v) :: m
    else (a, b) :: Memory.write m i v

/-- Write bytes at consecutive addresses from `i` on. -/
def Memory.writeAll : Memory → Nat → List Byte → Memory
  | m, _, [] => m
  | m, i, v :: vs => Memory.writeAll (Memory.write m i v) (i + 1) vs

/-- The canonical form: addresses strictly rising. An unlisted address holds no written byte, so no listed byte equals what an unlisted address holds. -/
abbrev Memory.wf (m : Memory) : Prop := m.Pairwise (fun c d => c.1 < d.1)

/-- RAW[i] (10_state.md R38). A byte not written since hardware reset has its unspecified reset value (R43). -/
def State.rawByte (s : State) (i : Nat) : Byte := (Memory.read? s.raw i).getD (Config.rawReset i)

/-- PKD[i] (10_state.md R39), as `State.rawByte`. -/
def State.pkdByte (s : State) (i : Nat) : Byte := (Memory.read? s.pkd i).getD (Config.pkdReset i)

/-- RAW[0 .. n-1] in sequence order (10_state.md R38). -/
def State.rawBytes (s : State) (n : Nat) : List Byte := (List.range n).map s.rawByte

/-- RAW[i], RAW[i+1], ... <- the bytes. -/
def State.writeRaw (s : State) (i : Nat) (vs : List Byte) : State :=
  { s with raw := Memory.writeAll s.raw i vs }

/-- PKD[i], PKD[i+1], ... <- the bytes. -/
def State.writePkd (s : State) (i : Nat) (vs : List Byte) : State :=
  { s with pkd := Memory.writeAll s.pkd i vs }

/-! ### FREQ, NODE and CODE -/

/-- FREQ[sym] (10_state.md R30). -/
def State.freqAt (s : State) (sym : Byte) : BitVec 32 := s.freq[sym.toNat]'(sym.isLt)

/-- FREQ[sym] <- count. -/
def State.setFreq (s : State) (sym : Byte) (count : BitVec 32) : State :=
  { s with freq := s.freq.set sym.toNat count sym.isLt }

/-- FREQ[x] <- 0 for every symbol x. -/
def State.clearFreq (s : State) : State := { s with freq := Vector.replicate 256 0#32 }

/-- NODE[i], where `i` is an entry; 511 is none (10_state.md R31). -/
def State.nodeAt? (s : State) (i : BitVec 9) : Option NodeEntry := s.node[i.toNat]?

/-- NODE[i] <- e. -/
def State.setNode (s : State) (i : BitVec 9) (e : NodeEntry) : State :=
  { s with node := s.node.setIfInBounds i.toNat e }

/-- The weight of an entry (10_state.md R32). -/
def NodeEntry.weight : NodeEntry → BitVec 40
  | .leaf _ w => w
  | .internal _ _ w => w

/-- The 59-bit record of an entry (10_state.md R33): KIND, WEIGHT, PAY. -/
def NodeEntry.record : NodeEntry → BitVec 59
  | .leaf sym w => (0#1 ++ w ++ 0#10 ++ sym).cast rfl
  | .internal l r w => (1#1 ++ w ++ l ++ r).cast rfl

/-- CODE[sym] (10_state.md R35). -/
def State.codeAt (s : State) (sym : Byte) : CodeEntry := s.code[sym.toNat]'(sym.isLt)

/-- The bit string `code(s)` of an entry: bit i is BITS[255 - i], i < LEN (10_state.md R36). -/
def CodeEntry.path (e : CodeEntry) : List Bool :=
  (List.range e.len.toNat).map (fun i => e.bits.getLsbD (255 - i))

/-- A bit string left-aligned in BITS: its first bit in BITS[255], zeros after its last (10_state.md R36). -/
def leftAligned : List Bool → BitVec 256
  | [] => 0#256
  | b :: p => (BitVec.ofBool b ++ 0#255).cast rfl ||| (leftAligned p >>> 1)

/-- The entry that holds a bit string of at most 255 bits (10_state.md R36). -/
def CodeEntry.ofPath (p : List Bool) : CodeEntry := ⟨BitVec.ofNat 8 p.length, leftAligned p⟩

/-! ### Bits of bytes -/

/-- The byte of eight stream bits, the first in bit 7 (20_memory.md R51). -/
def byteOfBits (b : Nat → Bool) : Byte :=
  (BitVec.ofBool (b 0) ++ BitVec.ofBool (b 1) ++ BitVec.ofBool (b 2) ++ BitVec.ofBool (b 3) ++
    BitVec.ofBool (b 4) ++ BitVec.ofBool (b 5) ++ BitVec.ofBool (b 6) ++ BitVec.ofBool (b 7)).cast rfl

/-- `n` bytes cut from a bit string, eight bits each, zeros where the string has ended (20_memory.md R51; 43_bit_packer.md R148). -/
def bytesOfBits : Nat → List Bool → List Byte
  | 0, _ => []
  | n + 1, bits => byteOfBits (fun t => bits.getD t false) :: bytesOfBits n (bits.drop 8)

/-- Bit p of the packed stream: bit 7 - (p mod 8) of PKD[p div 8] (20_memory.md R51; 44_bit_unpacker.md R161). -/
def State.pkdBit (s : State) (p : Nat) : Bool := (s.pkdByte (p / 8)).getLsbD (7 - p % 8)

/-! ### Responses and errors -/

/-- The command returns its response word (30_encoding.md R70). -/
def State.respond (s : State) (r : Word) : State := { s with responses := s.responses ++ [r] }

/-- A dropped command: no state changes, response 0 (60_exceptions.md R189). -/
def State.drop (s : State) : State := s.respond 0#64

/-- Error entry, what `raise E(info)` does to the state before the command (60_exceptions.md R188): ERR and ERRINFO are written, the response is 0, nothing else changes. -/
def State.raiseError (s : State) (e : ErrorCode) (info : Word) : State :=
  { s with err := e, errinfo := info, responses := s.responses ++ [0#64] }

/-- Return from an error: ERR <- 0 and ERRINFO <- 0 (60_exceptions.md R190). -/
def State.clearError (s : State) : State := { s with err := .none, errinfo := 0#64 }

/-- A word that may not be executed: an illegal encoding, or a read command with an operand out of range. It raises IllegalCommand with the word itself when no error is pending, else it is dropped (30_encoding.md R73; 60_exceptions.md R185, R189). -/
def State.illegalWord (s : State) (c : Word) : State :=
  if s.err = .none then s.raiseError .illegalCommand c else s.drop

/-- What SRST writes: every register and every entry of FREQ, NODE and CODE at its reset value, RAW and PKD kept (10_state.md R43; 40_system_and_access.md R91). -/
def State.softReset (s : State) : State :=
  { State.reset with
    rawcap := s.rawcap, pkdcap := s.pkdcap, raw := s.raw, pkd := s.pkd,
    commands := s.commands, responses := s.responses }

/-! ### How a command runs -/

/-- How the pseudocode of a command ends (00_scope.md R10). -/
inductive Effect where
  /-- It completes with this state and this response. -/
  | done (s : State) (resp : Word)
  /-- It raises an error. -/
  | raise (e : ErrorCode) (info : Word)
  /-- It has no result: only in states that no run reaches (see `Fault`). -/
  | stop (f : Fault)
  deriving DecidableEq, Repr

/-- The end of a command started in `s`: all its writes together, or ERR and ERRINFO alone (00_scope.md R10; 60_exceptions.md R188). -/
def settle (s : State) : Effect → Host.Outcome State Fault Refusal
  | .done t resp => .next (t.respond resp)
  | .raise e info => .next (s.raiseError e info)
  | .stop f => .fault f

/-- A change-class command: dropped while an error is pending, else executed (30_encoding.md R73; 60_exceptions.md R189). -/
def changeCommand (body : State → Effect) (s : State) : Host.Outcome State Fault Refusal :=
  if s.err = .none then settle s (body s) else .next s.drop

/-- A read-class command `c`: its value whatever ERR is; where an operand is out of range it has none (30_encoding.md R73; 60_exceptions.md R189). -/
def readCommand (c : Word) (value : State → Option Word) (s : State) :
    Host.Outcome State Fault Refusal :=
  match value s with
  | some v => .next (s.respond v)
  | none => .next (s.illegalWord c)

/-- A recover-class command: executed whatever ERR is (30_encoding.md R73; 60_exceptions.md R189). -/
def recoverCommand (body : State → State) (s : State) : Host.Outcome State Fault Refusal :=
  .next ((body s).respond 0#64)

end Sys2Proof.Machine
end

