-- ==== Sys2Proof/Machine/Operands.lean ====
section
/-! DEFINITION. The operand forms of the commands: register numbers, node payloads, chunks and buffer addresses (30_encoding.md R76), and the class of every command (R80). -/

namespace Sys2Proof.Machine

/-- The eleven registers (10_state.md R23). -/
inductive Reg where
  | id
  | status
  | errinfo
  | nnodes
  | root
  | rawlen
  | pkdlen
  | symcnt
  | bitcnt
  | rawcap
  | pkdcap
  deriving DecidableEq, Repr

/-- The register of a number; 11 .. 255 are reserved (10_state.md R23). -/
def regOfNumber (n : BitVec 8) : Option Reg :=
  match n.toNat with
  | 0 => some .id
  | 1 => some .status
  | 2 => some .errinfo
  | 3 => some .nnodes
  | 4 => some .root
  | 5 => some .rawlen
  | 6 => some .pkdlen
  | 7 => some .symcnt
  | 8 => some .bitcnt
  | 9 => some .rawcap
  | 10 => some .pkdcap
  | _ => none

/-- The value a register reads as, zero-extended to 64 bits (10_state.md R23). -/
def State.readReg (s : State) : Reg → Word
  | .id => Config.idValue
  | .status => s.status
  | .errinfo => s.errinfo
  | .nnodes => s.nnodes.setWidth 64
  | .root => s.root.setWidth 64
  | .rawlen => s.rawlen.setWidth 64
  | .pkdlen => s.pkdlen.setWidth 64
  | .symcnt => s.symcnt.setWidth 64
  | .bitcnt => s.bitcnt.setWidth 64
  | .rawcap => s.rawcap.setWidth 64
  | .pkdcap => s.pkdcap.setWidth 64

/-- The state after the host writes a register, or nothing where the register is read-only or the value is outside its legal range (40_system_and_access.md R96). -/
def State.writeReg? (s : State) (r : Reg) (val : BitVec 40) : Option State :=
  match r with
  | .nnodes =>
    if 511 < val.toNat then none
    else some { s with nnodes := val.setWidth 10, treeBuilt := false }
  | .root =>
    if 511 < val.toNat then none
    else some { s with root := val.setWidth 9, treeBuilt := false }
  | .rawlen => if 4294967295 < val.toNat then none else some { s with rawlen := val.setWidth 32 }
  | .pkdlen => if 4294967295 < val.toNat then none else some { s with pkdlen := val.setWidth 32 }
  | .symcnt => if 4294967295 < val.toNat then none else some { s with symcnt := val.setWidth 32 }
  | .id => none
  | .status => none
  | .errinfo => none
  | .bitcnt => none
  | .rawcap => none
  | .pkdcap => none

/-- The entry WRNODE writes, of weight 0, or nothing where a leaf's payload is no symbol (40_system_and_access.md R100; 10_state.md R33). -/
def nodeOfPayload? (kind : BitVec 1) (pay : BitVec 18) : Option NodeEntry :=
  if kind = 0#1 then
    if pay.extractLsb' 8 10 = 0#10 then some (.leaf (pay.extractLsb' 0 8) 0#40) else none
  else some (.internal (pay.extractLsb' 9 9) (pay.extractLsb' 0 9) 0#40)

/-- BITS[255 - 64k : 192 - 64k] (40_system_and_access.md R102). -/
def CodeEntry.chunk (e : CodeEntry) (k : BitVec 2) : Word := e.bits.extractLsb' (192 - 64 * k.toNat) 64

/-- The class of a command (30_encoding.md R80). -/
def classOf : Instr → CommandClass
  | .rdreg _ => .read
  | .rdfreq _ => .read
  | .rdnode _ => .read
  | .rdclen _ => .read
  | .rdcbits _ _ => .read
  | .rdraw _ => .read
  | .rdpkd _ => .read
  | .clrerr => .recover
  | .srst => .recover
  | .nop => .change
  | .clrfreq => .change
  | .wrreg _ _ => .change
  | .wrfreq _ _ => .change
  | .wrnode _ _ _ => .change
  | .wrraw _ _ => .change
  | .wrpkd _ _ => .change
  | .build => .change
  | .assign => .change
  | .pack => .change
  | .unpack => .change

end Sys2Proof.Machine
end

