-- ==== Sys2Proof/Machine/Access.lean ====
section
/-! DEFINITION. The host-access commands: registers, frequency table, node arena, code table and byte buffers (40_system_and_access.md R95 to R106). Where an operand is out of range the command raises IllegalCommand with its own word (60_exceptions.md R185). -/

namespace Sys2Proof.Machine

/-- The end of a write command: it completes with response 0, or it has an operand out of range and raises IllegalCommand with its word `c` (60_exceptions.md R185). -/
def writeOrIllegal (c : Word) : Option State → Effect
  | some t => .done t 0#64
  | none => .raise .illegalCommand c

/-- RDREG (R95). -/
def execRdreg (reg : BitVec 8) (s : State) : Host.Outcome State Fault Refusal :=
  readCommand (encode (.rdreg reg)) (fun t => (regOfNumber reg).map t.readReg) s

/-- WRREG (R96). -/
def execWrreg (reg : BitVec 8) (val : BitVec 40) (s : State) : Host.Outcome State Fault Refusal :=
  changeCommand
    (fun t =>
      writeOrIllegal (encode (.wrreg reg val))
        ((regOfNumber reg).bind (fun r => t.writeReg? r val))) s

/-- RDFREQ (R97). -/
def execRdfreq (sym : Byte) (s : State) : Host.Outcome State Fault Refusal :=
  readCommand (encode (.rdfreq sym)) (fun t => some ((t.freqAt sym).setWidth 64)) s

/-- WRFREQ (R98). -/
def execWrfreq (sym : Byte) (cnt : BitVec 32) (s : State) : Host.Outcome State Fault Refusal :=
  changeCommand (fun t => .done (t.setFreq sym cnt) 0#64) s

/-- RDNODE (R99): the 59-bit record; index 511 is no entry. -/
def execRdnode (idx : BitVec 9) (s : State) : Host.Outcome State Fault Refusal :=
  readCommand (encode (.rdnode idx))
    (fun t => (t.nodeAt? idx).map (fun e => e.record.setWidth 64)) s

/-- WRNODE (R100): writes an entry of weight 0 and clears TREE_BUILT. -/
def execWrnode (idx : BitVec 9) (kind : BitVec 1) (pay : BitVec 18) (s : State) :
    Host.Outcome State Fault Refusal :=
  changeCommand
    (fun t =>
      writeOrIllegal (encode (.wrnode idx kind pay))
        (if idx = 511#9 then none
         else (nodeOfPayload? kind pay).map (fun e => (t.setNode idx e).clearTreeBuilt))) s

/-- RDCLEN (R101). -/
def execRdclen (sym : Byte) (s : State) : Host.Outcome State Fault Refusal :=
  readCommand (encode (.rdclen sym)) (fun t => some ((t.codeAt sym).len.setWidth 64)) s

/-- RDCBITS (R102). -/
def execRdcbits (sym : Byte) (chunk : BitVec 2) (s : State) : Host.Outcome State Fault Refusal :=
  readCommand (encode (.rdcbits sym chunk)) (fun t => some ((t.codeAt sym).chunk chunk)) s

/-- RDRAW (R103). -/
def execRdraw (addr : BitVec 32) (s : State) : Host.Outcome State Fault Refusal :=
  readCommand (encode (.rdraw addr))
    (fun t =>
      if addr.toNat < t.rawcap.toNat then some ((t.rawByte addr.toNat).setWidth 64) else none) s

/-- WRRAW (R104). -/
def execWrraw (addr : BitVec 32) (data : Byte) (s : State) : Host.Outcome State Fault Refusal :=
  changeCommand
    (fun t =>
      writeOrIllegal (encode (.wrraw addr data))
        (if addr.toNat < t.rawcap.toNat then some (t.writeRaw addr.toNat [data]) else none)) s

/-- RDPKD (R105). -/
def execRdpkd (addr : BitVec 32) (s : State) : Host.Outcome State Fault Refusal :=
  readCommand (encode (.rdpkd addr))
    (fun t =>
      if addr.toNat < t.pkdcap.toNat then some ((t.pkdByte addr.toNat).setWidth 64) else none) s

/-- WRPKD (R106). -/
def execWrpkd (addr : BitVec 32) (data : Byte) (s : State) : Host.Outcome State Fault Refusal :=
  changeCommand
    (fun t =>
      writeOrIllegal (encode (.wrpkd addr data))
        (if addr.toNat < t.pkdcap.toNat then some (t.writePkd addr.toNat [data]) else none)) s

end Sys2Proof.Machine
end

