-- ==== Sys2Proof/Machine/BitPacker.lean ====
section
/-! DEFINITION. Unit BP, command PACK (43_bit_packer.md R145 to R153). -/

namespace Sys2Proof.Machine

/-- The first position, from `j` on, whose byte has no code, with the byte (R147). -/
def firstUncoded (s : State) : Nat → List Byte → Option (Nat × Byte)
  | _, [] => none
  | j, x :: xs => if (s.codeAt x).len = 0#8 then some (j, x) else firstUncoded s (j + 1) xs

/-- `total`: the sum of the code lengths, an exact natural number (R146, R152). -/
def totalBits (s : State) (xs : List Byte) : Nat := (xs.map (fun x => (s.codeAt x).len.toNat)).sum

/-- The packed stream without its padding: the codes one after another (R146). -/
def codeStream (s : State) (xs : List Byte) : List Bool := xs.flatMap (fun x => (s.codeAt x).path)

/-- What PACK writes once every byte has a code (R145): BufferBounds when the output needs more than PKD_CAP bytes (R150), else PKD, PKDLEN and BITCNT. -/
def packCoded (s : State) (xs : List Byte) : Effect :=
  let total := totalBits s xs
  let nbytes := ceil8 total
  if s.pkdcap.toNat < nbytes then .raise .bufferBounds (infoSub subPackOutput nbytes)
  else
    .done
      { s.writePkd 0 (bytesOfBits nbytes (codeStream s xs)) with
        pkdlen := BitVec.ofNat 32 nbytes
        bitcnt := BitVec.ofNat 40 total }
      0#64

/-- PACK's pseudocode (R145), its checks in the order of 60_exceptions.md R187. -/
def packBody (s : State) : Effect :=
  if s.rawcap.toNat < s.rawlen.toNat then
    .raise .bufferBounds (infoSub subPackRawlen s.rawlen.toNat)
  else
    match firstUncoded s 0 (s.rawBytes s.rawlen.toNat) with
    | some (j, x) => .raise .unknownSymbol (infoUnknownSymbol j x)
    | none => packCoded s (s.rawBytes s.rawlen.toNat)

/-- PACK (R145). -/
def execPack (s : State) : Host.Outcome State Fault Refusal := changeCommand packBody s

end Sys2Proof.Machine
end

