-- ==== Sys2Proof/Machine/BitUnpacker.lean ====
section
/-! DEFINITION. Unit BU, command UNPACK (44_bit_unpacker.md R160 to R171). The walk returns its result or the way the command ends instead. -/

namespace Sys2Proof.Machine

/-- CorruptStream with a sub-cause and DECODED, the number of symbols decoded before it (60_exceptions.md R183). -/
def corrupt (sub : BitVec 4) (decoded : Nat) : Effect :=
  .raise .corruptStream (infoSub sub decoded)

/-- The available bits, in the order they are consumed: bit 0 to bit 8 * PKDLEN - 1 (R160, R161). -/
def State.streamBits (s : State) : List Bool := (List.range (8 * s.pkdlen.toNat)).map s.pkdBit

/-- The walk from an Internal node with children l and r down to a Leaf (R160, R162): its symbol and the bits not yet read. A bit is needed and none is left: EXHAUSTED (R164). The child is not below NNODES: MISSING_CHILD (R165). -/
def descend (s : State) (decoded : Nat) :
    BitVec 9 → BitVec 9 → List Bool → Except Effect (Byte × List Bool)
  | _, _, [] => .error (corrupt subExhausted decoded)
  | l, r, b :: bits =>
    let child := if b then r else l
    if s.nnodes.toNat ≤ child.toNat then .error (corrupt subMissingChild decoded)
    else
      match s.nodeAt? child with
      | none => .error (.stop .noSuchNode)
      | some (.leaf sym _) => .ok (sym, bits)
      | some (.internal l' r' _) => descend s decoded l' r' bits

/-- One symbol from ROOT (R162); where the root is a Leaf, one bit which must be 0 (R166). -/
def decodeSymbol (s : State) (decoded : Nat) (bits : List Bool) :
    Except Effect (Byte × List Bool) :=
  match s.nodeAt? s.root with
  | none => .error (.stop .noSuchNode)
  | some (.leaf sym _) =>
    match bits with
    | [] => .error (corrupt subExhausted decoded)
    | b :: rest => if b then .error (corrupt subBadLeafBit decoded) else .ok (sym, rest)
  | some (.internal l r _) => descend s decoded l r bits

/-- `count` symbols, after `decoded` have been decoded (R163). -/
def decodeSymbols (s : State) : Nat → Nat → List Bool → Except Effect (List Byte)
  | 0, _, _ => .ok []
  | count + 1, decoded, bits =>
    match decodeSymbol s decoded bits with
    | .error e => .error e
    | .ok (sym, rest) =>
      match decodeSymbols s count (decoded + 1) rest with
      | .error e => .error e
      | .ok out => .ok (sym :: out)

/-- UNPACK's pseudocode (R160), its checks in the order of 60_exceptions.md R187. -/
def unpackBody (s : State) : Effect :=
  if s.pkdcap.toNat < s.pkdlen.toNat then
    .raise .bufferBounds (infoSub subUnpackPkdlen s.pkdlen.toNat)
  else if s.rawcap.toNat < s.symcnt.toNat then
    .raise .bufferBounds (infoSub subUnpackSymcnt s.symcnt.toNat)
  else if 0 < s.symcnt.toNat ∧ s.nnodes.toNat ≤ s.root.toNat then corrupt subBadRoot 0
  else
    match decodeSymbols s s.symcnt.toNat 0 s.streamBits with
    | .error e => e
    | .ok out => .done { s.writeRaw 0 out with rawlen := s.symcnt } 0#64

/-- UNPACK (R160). -/
def execUnpack (s : State) : Host.Outcome State Fault Refusal := changeCommand unpackBody s

end Sys2Proof.Machine
end

