-- ==== Sys2Proof/Machine/CodeAssigner.lean ====
section
/-! DEFINITION. Unit CA, command ASSIGN (42_code_assigner.md R135 to R141). -/

namespace Sys2Proof.Machine

/-- The code table under construction. -/
abbrev CodeTable := Vector CodeEntry 256

/-- CODE[sym] <- the code p. -/
def setCode (codes : CodeTable) (sym : Byte) (p : List Bool) : CodeTable :=
  codes.set sym.toNat (CodeEntry.ofPath p) sym.isLt

/-- The depth-first traversal `visit(i, p)` (R135, R136): left appends 0, right appends 1, a leaf records the path. `depth` is how many bits a path may still grow: 255 at the root, CLEN_MAX (R140). Over a tree BUILD wrote it always suffices; where it does not, the traversal does not end or does not fit CODE (R141). -/
def visit (s : State) : Nat → BitVec 9 → List Bool → CodeTable → Except Fault CodeTable
  | 0, i, p, codes =>
    match s.nodeAt? i with
    | none => .error .noSuchNode
    | some (.leaf sym _) => .ok (setCode codes sym p)
    | some (.internal _ _ _) => .error .traversalTooDeep
  | depth + 1, i, p, codes =>
    match s.nodeAt? i with
    | none => .error .noSuchNode
    | some (.leaf sym _) => .ok (setCode codes sym p)
    | some (.internal l r _) =>
      match visit s depth l (p ++ [false]) codes with
      | .error f => .error f
      | .ok codes' => visit s depth r (p ++ [true]) codes'

/-- The code table of the tree at ROOT: every old code is removed; a root that is a Leaf gets the code `0` (R137), any other the paths. -/
def assignCodes (s : State) : Except Fault CodeTable :=
  match s.nodeAt? s.root with
  | none => .error .noSuchNode
  | some (.leaf sym _) => .ok (setCode (Vector.replicate 256 CodeEntry.empty) sym [false])
  | some (.internal _ _ _) => visit s 255 s.root [] (Vector.replicate 256 CodeEntry.empty)

/-- ASSIGN's pseudocode (R135): IllegalCommand with its word when TREE_BUILT = 0 (R141), else CODE. -/
def assignBody (s : State) : Effect :=
  if s.treeBuilt then
    match assignCodes s with
    | .ok codes => .done { s with code := codes } 0#64
    | .error f => .stop f
  else .raise .illegalCommand (encode .assign)

/-- ASSIGN (R135). -/
def execAssign (s : State) : Host.Outcome State Fault Refusal := changeCommand assignBody s

end Sys2Proof.Machine
end

