-- ==== Sys2Proof/Machine/System.lean ====
section
/-! DEFINITION. The system commands NOP, SRST, CLRERR and CLRFREQ (40_system_and_access.md R90 to R93). -/

namespace Sys2Proof.Machine

/-- NOP (R90): only a response; executed and dropped are the same. -/
def execNop (s : State) : Host.Outcome State Fault Refusal :=
  changeCommand (fun t => .done t 0#64) s

/-- SRST (R91): soft reset, whatever ERR is. -/
def execSrst (s : State) : Host.Outcome State Fault Refusal :=
  recoverCommand State.softReset s

/-- CLRERR (R92): clears the pending error, whatever ERR is. -/
def execClrerr (s : State) : Host.Outcome State Fault Refusal :=
  recoverCommand State.clearError s

/-- CLRFREQ (R93): every count becomes 0. -/
def execClrfreq (s : State) : Host.Outcome State Fault Refusal :=
  changeCommand (fun t => .done t.clearFreq 0#64) s

end Sys2Proof.Machine
end

