-- ==== Sys2Proof/Machine/TreeBuilder.lean ====
section
/-! DEFINITION. Unit TB, command BUILD (41_tree_builder.md R120 to R131). -/

namespace Sys2Proof.Machine

/-- The arena of the tree under construction. -/
abbrev Arena := Vector NodeEntry 511

/-- The keys of the FrequencyMap: the symbols whose count is not 0, ascending (10_state.md R30; R121). -/
def State.keys (s : State) : List Byte :=
  ((List.range 256).map (BitVec.ofNat 8)).filter (fun x => s.freqAt x ≠ 0#32)

/-- The leaves in the order of insertion: one for each key, its count as weight (R121, R127). -/
def State.leaves (s : State) : List NodeEntry :=
  s.keys.map (fun x => .leaf x ((s.freqAt x).setWidth 40))

/-- NODE[i], NODE[i+1], ... <- the entries. -/
def storeNodes : Arena → Nat → List NodeEntry → Arena
  | nodes, _, [] => nodes
  | nodes, i, e :: es => storeNodes (nodes.setIfInBounds i e) (i + 1) es

/-- weight(NODE[i]). Every index BUILD asks for is an entry. Log entry 10. -/
def weightAt (nodes : Arena) (i : Nat) : BitVec 40 := (nodes[i]?.map NodeEntry.weight).getD 0#40

/-- The order of extraction: least (weight, index) (R122). -/
def extractedBefore (nodes : Arena) (i j : Nat) : Bool :=
  decide ((weightAt nodes i).toNat < (weightAt nodes j).toNat ∨
    ((weightAt nodes i).toNat = (weightAt nodes j).toNat ∧ i < j))

/-- The live node that is extracted first, and the others. -/
def extractLeast (nodes : Arena) : List Nat → Option (Nat × List Nat)
  | [] => none
  | i :: q =>
    match extractLeast nodes q with
    | none => some (i, [])
    | some (m, rest) =>
      if extractedBefore nodes i m then some (i, m :: rest) else some (m, i :: rest)

/-- The build while it runs: the arena, the live nodes and the index of the next Internal node (R120). -/
structure BuildState where
  /-- NODE as written so far. -/
  nodes : Arena
  /-- Q, the priority collection, by node index. -/
  live : List Nat
  /-- k, the index of the next Internal node. -/
  next : Nat

/-- One merge: first extracted left, second right, the new node's weight the sum (R123). No step where fewer than two nodes are live. -/
def mergeStep? (b : BuildState) : Option BuildState :=
  match extractLeast b.nodes b.live with
  | none => none
  | some (x, q) =>
    match extractLeast b.nodes q with
    | none => none
    | some (y, r) =>
      some
        { nodes :=
            b.nodes.setIfInBounds b.next
              (.internal (BitVec.ofNat 9 x) (BitVec.ofNat 9 y)
                (weightAt b.nodes x + weightAt b.nodes y))
          live := r ++ [b.next]
          next := b.next + 1 }

/-- Merge until one node is live; each merge takes one node off, so as many rounds as there are live nodes are enough (R124). -/
def mergeAll : Nat → BuildState → BuildState
  | 0, b => b
  | rounds + 1, b =>
    match mergeStep? b with
    | none => b
    | some c => mergeAll rounds c

/-- The whole build over a list of leaves (R120). -/
def buildTree (nodes : Arena) (ls : List NodeEntry) : BuildState :=
  mergeAll ls.length
    { nodes := storeNodes nodes 0 ls, live := List.range ls.length, next := ls.length }

/-- BUILD's pseudocode (R120): EmptyInput with no symbol (R126), else NODE, ROOT, NNODES and TREE_BUILT. -/
def buildBody (s : State) : Effect :=
  match s.leaves with
  | [] => .raise .emptyInput 0#64
  | l :: ls =>
    let b := buildTree s.node (l :: ls)
    .done
      (State.setTreeBuilt
        { s with
          node := b.nodes
          root := BitVec.ofNat 9 (b.live.headD 0)
          nnodes := BitVec.ofNat 10 b.next })
      0#64

/-- BUILD (R120). -/
def execBuild (s : State) : Host.Outcome State Fault Refusal := changeCommand buildBody s

end Sys2Proof.Machine
end

