-- ==== Sys2Proof/Machine/Dispatch.lean ====
section
/-! DEFINITION. One arm for each command: its meaning, error gating included (30_encoding.md R73, step 4). -/

namespace Sys2Proof.Machine

-- the effect of one decoded command on the state it is executed in
def exec (i : Instr) (s : State) : Host.Outcome State Fault Refusal :=
  match i with
  | .nop => Sys2Proof.Machine.execNop s
  | .srst => Sys2Proof.Machine.execSrst s
  | .clrerr => Sys2Proof.Machine.execClrerr s
  | .clrfreq => Sys2Proof.Machine.execClrfreq s
  | .wrreg reg val => Sys2Proof.Machine.execWrreg reg val s
  | .rdreg reg => Sys2Proof.Machine.execRdreg reg s
  | .wrfreq sym cnt => Sys2Proof.Machine.execWrfreq sym cnt s
  | .rdfreq sym => Sys2Proof.Machine.execRdfreq sym s
  | .wrnode idx kind pay => Sys2Proof.Machine.execWrnode idx kind pay s
  | .rdnode idx => Sys2Proof.Machine.execRdnode idx s
  | .rdclen sym => Sys2Proof.Machine.execRdclen sym s
  | .rdcbits sym chunk => Sys2Proof.Machine.execRdcbits sym chunk s
  | .wrraw addr data => Sys2Proof.Machine.execWrraw addr data s
  | .rdraw addr => Sys2Proof.Machine.execRdraw addr s
  | .wrpkd addr data => Sys2Proof.Machine.execWrpkd addr data s
  | .rdpkd addr => Sys2Proof.Machine.execRdpkd addr s
  | .build => Sys2Proof.Machine.execBuild s
  | .assign => Sys2Proof.Machine.execAssign s
  | .pack => Sys2Proof.Machine.execPack s
  | .unpack => Sys2Proof.Machine.execUnpack s

end Sys2Proof.Machine
end

