-- ==== Sys2Proof/Machine/Fetch.lean ====
section
/-! DEFINITION. Taking a command word from the command channel and running it (30_encoding.md R70, R73). -/

namespace Sys2Proof.Machine

/-- What the block does with one command word it has taken: a word no row matches is an illegal encoding (R73, step 2; R75), any other is executed. -/
def runWord (c : Word) (s : State) : Host.Outcome State Fault Refusal :=
  match decode c with
  | .ok i => exec i s
  | .error _ => .next (s.illegalWord c)

/-- One turn of the block: it takes the oldest word the host has sent and runs it. With no word waiting nothing happens, since the block never halts and does nothing of its own (70_reset_and_hazards.md R215). Log entry 4. -/
def takeCommand (s : State) : Host.Outcome State Fault Refusal :=
  match s.commands with
  | [] => .next s
  | c :: rest => runWord c { s with commands := rest }

/-- The host sends `c` ahead of every word still waiting. -/
def State.sendFirst (s : State) (c : Word) : State := { s with commands := c :: s.commands }

end Sys2Proof.Machine
end

