-- ==== Sys2Proof/Machine/Step.lean ====
section
/-! DEFINITION. One step of the block: one command, completely, with its one response (00_scope.md R6). -/

namespace Sys2Proof.Machine

/-- One step (00_scope.md R6). -/
def step (s : State) : Host.Outcome State Fault Refusal := takeCommand s

/-- The host's question: `s` with the word of bits `w` as the next command to be taken. Log entry 5. -/
def State.withFetchWord (s : State) (nbits w : Nat) : State := s.sendFirst (tableWord nbits w)

end Sys2Proof.Machine
end

