-- ==== Sys2Proof/Safety.lean ====
section
/-! DEFINITION. What the statements speak of: well-formed trees, codes as paths, prefix-free code tables, and the invariant of the machine's states (10_state.md R26 to R37). -/

namespace Sys2Proof.Machine

/-- The number of leaves of a tree of NNODES nodes, `n = (NNODES + 1) div 2` (10_state.md R34). -/
def State.leafCount (s : State) : Nat := (s.nnodes.toNat + 1) / 2

/-- Entry k is an Internal entry one of whose children is j. -/
def State.childOf (s : State) (k j : Nat) : Prop :=
  ∃ l r w, s.node[k]? = some (.internal l r w) ∧ (l.toNat = j ∨ r.toNat = j)

/-- A well-formed tree, the triple (NODE, ROOT, NNODES) of 10_state.md R34. -/
structure State.TreeWellFormed (s : State) : Prop where
  /-- NNODES is a legal value (R28). -/
  legal : s.nnodes.toNat ≤ 511
  /-- NNODES is odd, so at least 1. -/
  odd : s.nnodes.toNat % 2 = 1
  /-- The first entries are leaves. -/
  leaf : ∀ i, i < s.leafCount → ∃ sym w, s.node[i]? = some (.leaf sym w)
  /-- Their symbols rise strictly with the index, so they are distinct. -/
  ascending : ∀ i j a v b w, i < j → j < s.leafCount →
    s.node[i]? = some (.leaf a v) → s.node[j]? = some (.leaf b w) → a.toNat < b.toNat
  /-- The others are Internal entries with two different children before them, and the sum of their weights. -/
  internal : ∀ k, s.leafCount ≤ k → k < s.nnodes.toNat →
    ∃ l r w el er, s.node[k]? = some (.internal l r w) ∧ l.toNat < k ∧ r.toNat < k ∧ l ≠ r ∧
      s.node[l.toNat]? = some el ∧ s.node[r.toNat]? = some er ∧
      w.toNat = el.weight.toNat + er.weight.toNat
  /-- Every entry but the last is the child of exactly one Internal entry of the tree. -/
  oneParent : ∀ j, j + 1 < s.nnodes.toNat → ∃! k, k < s.nnodes.toNat ∧ s.childOf k j
  /-- The last entry is the child of none. -/
  rootNoParent : ∀ k, k < s.nnodes.toNat → ¬ s.childOf k (s.nnodes.toNat - 1)
  /-- ROOT is the last entry. -/
  rootLast : s.root.toNat + 1 = s.nnodes.toNat

/-- The bits `q` lead from node i to node j: each bit is taken at an Internal entry, 0 to its left child and 1 to its right, and each child is below NNODES (42_code_assigner.md R136; 44_bit_unpacker.md R162, R165). -/
def State.WalksTo (s : State) : BitVec 9 → List Bool → BitVec 9 → Prop
  | i, [], j => i = j
  | i, b :: q, j =>
    ∃ l r w, s.nodeAt? i = some (.internal l r w) ∧
      (if b then r else l).toNat < s.nnodes.toNat ∧ s.WalksTo (if b then r else l) q j

/-- The bits `p` lead from node i to a Leaf of `sym`. -/
def State.PathTo (s : State) (i : BitVec 9) (p : List Bool) (sym : Byte) : Prop :=
  ∃ j w, s.WalksTo i p j ∧ s.nodeAt? j = some (.leaf sym w)

/-- `p` is the code of `sym` in the tree: the path from ROOT, or the one bit 0 where ROOT is its Leaf (42_code_assigner.md R136, R137). -/
def State.TreeCode (s : State) (p : List Bool) (sym : Byte) : Prop :=
  (p = [false] ∧ ∃ w, s.nodeAt? s.root = some (.leaf sym w)) ∨
    (p ≠ [] ∧ s.PathTo s.root p sym)

/-- `code(s)`, the bit string held in CODE; empty where the symbol has no code (00_scope.md R10). -/
def State.codeOf (s : State) (sym : Byte) : List Bool := (s.codeAt sym).path

/-- No code is a prefix of another symbol's code (42_code_assigner.md R139). -/
def State.PrefixFree (s : State) : Prop :=
  ∀ a b, a ≠ b → s.codeOf a ≠ [] → s.codeOf b ≠ [] → ¬ s.codeOf a <+: s.codeOf b

/-- BITS is zero at and beyond LEN (10_state.md R36). -/
def CodeEntry.Padded (e : CodeEntry) : Prop :=
  ∀ i, e.len.toNat ≤ i → i < 256 → e.bits.getLsbD (255 - i) = false

/-- The weighted path length of a code for the counts in FREQ: the sum over the keys of count times code length (41_tree_builder.md R130). -/
def State.weightedLength (s : State) (code : Byte → List Bool) : Nat :=
  (s.keys.map (fun x => (s.freqAt x).toNat * (code x).length)).sum

/-- What holds of the block at reset and after every command. -/
structure State.Inv (s : State) : Prop where
  /-- RAW is in canonical form. -/
  rawCanonical : Memory.wf s.raw
  /-- PKD is in canonical form. -/
  pkdCanonical : Memory.wf s.pkd
  /-- RAW's entries are 0 .. RAW_CAP - 1 (R38; 20_memory.md R56). -/
  rawInside : ∀ c, c ∈ s.raw → c.1 < s.rawcap.toNat
  /-- PKD's entries are 0 .. PKD_CAP - 1 (R39; 20_memory.md R56). -/
  pkdInside : ∀ c, c ∈ s.pkd → c.1 < s.pkdcap.toNat
  /-- RAW_CAP is at least 1 (00_scope.md R5). -/
  rawcapPos : 0 < s.rawcap.toNat
  /-- PKD_CAP is at least 1 (00_scope.md R5). -/
  pkdcapPos : 0 < s.pkdcap.toNat
  /-- NNODES is at most 511 (R28). -/
  nnodesLegal : s.nnodes.toNat ≤ 511
  /-- ERRINFO is 0 whenever ERR is 0 (R25). -/
  errinfoZero : s.err = .none → s.errinfo = 0#64
  /-- While TREE_BUILT = 1 the tree is well-formed (R26). -/
  builtTree : s.treeBuilt = true → s.TreeWellFormed
  /-- Every CODE entry is zero beyond its length (R36). -/
  codePadded : ∀ sym, (s.codeAt sym).Padded
  /-- The codes in CODE form a prefix code (R37). -/
  codePrefixFree : s.PrefixFree

end Sys2Proof.Machine
end

