-- ==== Sys2Proof/Certificates/Slice0/Obligations.lean ====
section
/-! DEFINITION. The statements for the provers, in five groups: encoding, single commands, error gating, the four units, the whole machine. Each docstring names the rule or rules it formalises. A state update written `s.respond v`, `s.drop` or `s.raiseError e info` is one of Machine/Ops.lean; `RaisingCommandsChangeNothingElse` says what they do. -/

open Sys2Proof Sys2Proof.Machine

/-! ### Encoding -/

/-- Command words that the spec writes out decode to the commands they stand for: WRFREQ and WRNODE (30_encoding.md R78), RDREG, WRREG, RDRAW and WRPKD (40_system_and_access.md R95, R96, R103, R106, their examples), RDCBITS (95_test_vectors.md A23), and the four unit commands (30_encoding.md R74; 41_tree_builder.md R120; 42_code_assigner.md R135; 43_bit_packer.md R145; 44_bit_unpacker.md R160). -/
def Obligations.SpecWordsDecode : Prop :=
  decode 0x1200006100000003#64 = .ok (.wrfreq 0x61#8 3#32) ∧
  decode 0x14000000001C0401#64 = .ok (.wrnode 3#9 1#1 0x401#18) ∧
  decode 0x1100010000000000#64 = .ok (.rdreg 1#8) ∧
  decode 0x1000050000000006#64 = .ok (.wrreg 5#8 6#40) ∧
  decode 0x1900000000000500#64 = .ok (.rdraw 5#32) ∧
  decode 0x1A00000000000180#64 = .ok (.wrpkd 1#32 0x80#8) ∧
  decode 0x1700000000000361#64 = .ok (.rdcbits 0x61#8 3#2) ∧
  decode 0x2000000000000000#64 = .ok .build ∧
  decode 0x2100000000000000#64 = .ok .assign ∧
  decode 0x2200000000000000#64 = .ok .pack ∧
  decode 0x2300000000000000#64 = .ok .unpack

/-- Decoding the word of any command gives that command back, every operand at every value its field admits (30_encoding.md R72, R74, R76). -/
def Obligations.DecodeOfEncode : Prop := ∀ i : Instr, decode (encode i) = .ok i

/-- A word that decodes to a command is that command's word, so no bit of it is dropped (30_encoding.md R71, R72). -/
def Obligations.EncodeOfDecode : Prop := ∀ (c : Word) (i : Instr), decode c = .ok i → encode i = c

/-- No word meets two rows of the opcode map (30_encoding.md R74). -/
def Obligations.RowsAreDisjoint : Prop :=
  opcodeTable.length = 20 ∧
  opcodeTable.Pairwise (fun r q => ∀ c : Word, ¬ (c &&& r.mask = r.pattern ∧ c &&& q.mask = q.pattern))

/-- A word that no row matches raises IllegalCommand with itself, or is dropped while an error is pending; every word with a reserved OP is such a word, and a command's word never is (30_encoding.md R73, R75). -/
def Obligations.IllegalEncodingRaisesOrIsDropped : Prop :=
  (∀ (s : State) (c : Word) (rest : List Word), s.commands = c :: rest →
    (∀ r, r ∈ opcodeTable → c &&& r.mask ≠ r.pattern) →
    (s.err = .none →
      step s = .next (State.raiseError { s with commands := rest } .illegalCommand c)) ∧
    (s.err ≠ .none → step s = .next (State.drop { s with commands := rest }))) ∧
  (∀ c : Word,
    (4 ≤ c.toNat / 2 ^ 56 ∧ c.toNat / 2 ^ 56 ≤ 0x0F) ∨
      (0x1C ≤ c.toNat / 2 ^ 56 ∧ c.toNat / 2 ^ 56 ≤ 0x1F) ∨ 0x24 ≤ c.toNat / 2 ^ 56 →
    ∀ r, r ∈ opcodeTable → c &&& r.mask ≠ r.pattern) ∧
  (∀ i : Instr, ∃ r, r ∈ opcodeTable ∧ encode i &&& r.mask = r.pattern)

/-! ### A step, reset, and what an error is -/

/-- A step takes the oldest word waiting and executes the command it decodes to, on the state without that word; with no word waiting it changes nothing; a word placed by `withFetchWord` is the one taken (00_scope.md R6; 30_encoding.md R70, R73). -/
def Obligations.StepRunsTheDecodedCommand : Prop :=
  (∀ (s : State) (c : Word) (rest : List Word) (i : Instr),
    s.commands = c :: rest → decode c = .ok i → step s = exec i { s with commands := rest }) ∧
  (∀ s : State, s.commands = [] → step s = .next s) ∧
  (∀ (s : State) (c : Word) (i : Instr),
    decode c = .ok i → step (s.withFetchWord 64 c.toNat) = exec i s)

/-- The state after hardware reset (10_state.md R43, 70_reset_and_hazards.md R200). The two empty channels are the model's (log entry 4). -/
def Obligations.ResetValues : Prop :=
  State.reset.status = 0#64 ∧ State.reset.errinfo = 0#64 ∧ State.reset.nnodes = 0#10 ∧
  State.reset.root = 0#9 ∧ State.reset.rawlen = 0#32 ∧ State.reset.pkdlen = 0#32 ∧
  State.reset.symcnt = 0#32 ∧ State.reset.bitcnt = 0#40 ∧
  State.reset.readReg .id = 0x0000000048544201#64 ∧
  1 ≤ State.reset.rawcap.toNat ∧ 1 ≤ State.reset.pkdcap.toNat ∧
  (∀ x : Byte, State.reset.freqAt x = 0#32) ∧
  (∀ i : BitVec 9, i ≠ 511#9 → State.reset.nodeAt? i = some (.leaf 0#8 0#40)) ∧
  (∀ x : Byte, State.reset.codeAt x = ⟨0#8, 0#256⟩) ∧
  (∀ a, State.reset.rawByte a = Config.rawReset a ∧ State.reset.pkdByte a = Config.pkdReset a) ∧
  State.reset.commands = [] ∧ State.reset.responses = []

/-! ### System commands -/

/-- NOP changes nothing and answers 0, executed or dropped (40_system_and_access.md R90). -/
def Obligations.NopOnlyResponds : Prop :=
  encode .nop = 0x0000000000000000#64 ∧
  (∀ c : Word, opOf c = 0x00#8 → c ≠ 0x0000000000000000#64 → ∀ i, decode c ≠ .ok i) ∧
  ∀ s : State, exec .nop s = .next (s.respond 0#64)

/-- SRST sets every register and every entry of FREQ, NODE and CODE to its reset value and keeps RAW and PKD, whatever ERR is (40_system_and_access.md R91; 10_state.md R43). -/
def Obligations.SrstResetsAllButTheBuffers : Prop :=
  encode .srst = 0x0100000000000000#64 ∧
  ∀ s : State, ∃ t, exec .srst s = .next t ∧
    t.err = .none ∧ t.treeBuilt = false ∧ t.errinfo = 0#64 ∧ t.nnodes = 0#10 ∧ t.root = 0#9 ∧
    t.rawlen = 0#32 ∧ t.pkdlen = 0#32 ∧ t.symcnt = 0#32 ∧ t.bitcnt = 0#40 ∧
    t.rawcap = s.rawcap ∧ t.pkdcap = s.pkdcap ∧
    (∀ x : Byte, t.freqAt x = 0#32) ∧
    (∀ i : BitVec 9, i ≠ 511#9 → t.nodeAt? i = some (.leaf 0#8 0#40)) ∧
    (∀ x : Byte, t.codeAt x = ⟨0#8, 0#256⟩) ∧
    t.raw = s.raw ∧ t.pkd = s.pkd ∧ t.commands = s.commands ∧
    t.responses = s.responses ++ [0#64]

/-- CLRERR clears ERR and ERRINFO and nothing else, whatever ERR is (40_system_and_access.md R92). -/
def Obligations.ClrerrClearsOnlyTheError : Prop :=
  encode .clrerr = 0x0200000000000000#64 ∧
  ∀ s : State, exec .clrerr s =
    .next { s with err := .none, errinfo := 0#64, responses := s.responses ++ [0#64] }

/-- CLRFREQ makes every count 0 and changes nothing else, TREE_BUILT included; a BUILD after it raises EmptyInput (40_system_and_access.md R93). -/
def Obligations.ClrfreqEmptiesTheTable : Prop :=
  encode .clrfreq = 0x0300000000000000#64 ∧
  ∀ s : State, s.err = .none → ∃ t, exec .clrfreq s = .next t ∧
    (∀ x : Byte, t.freqAt x = 0#32) ∧
    t = { s with freq := t.freq, responses := s.responses ++ [0#64] } ∧
    exec .build t = .next (t.raiseError .emptyInput 0#64)

/-! ### Host access -/

/-- RDREG answers the register's value zero-extended; a reserved number raises IllegalCommand, or answers 0 while an error is pending (40_system_and_access.md R95; 10_state.md R23). -/
def Obligations.RdregReadsTheRegister : Prop :=
  ∀ (s : State) (reg : BitVec 8),
    (encode (.rdreg reg)).toNat = 0x11 * 2 ^ 56 + reg.toNat * 2 ^ 40 ∧
    (reg.toNat ≤ 10 → ∃ v : Word, exec (.rdreg reg) s = .next (s.respond v) ∧
      (reg.toNat = 0 → v = 0x0000000048544201#64) ∧
      (reg.toNat = 1 → v = s.status) ∧
      (reg.toNat = 2 → v = s.errinfo) ∧
      (reg.toNat = 3 → v.toNat = s.nnodes.toNat) ∧
      (reg.toNat = 4 → v.toNat = s.root.toNat) ∧
      (reg.toNat = 5 → v.toNat = s.rawlen.toNat) ∧
      (reg.toNat = 6 → v.toNat = s.pkdlen.toNat) ∧
      (reg.toNat = 7 → v.toNat = s.symcnt.toNat) ∧
      (reg.toNat = 8 → v.toNat = s.bitcnt.toNat) ∧
      (reg.toNat = 9 → v.toNat = s.rawcap.toNat) ∧
      (reg.toNat = 10 → v.toNat = s.pkdcap.toNat)) ∧
    (10 < reg.toNat → s.err = .none →
      exec (.rdreg reg) s = .next (s.raiseError .illegalCommand (encode (.rdreg reg)))) ∧
    (10 < reg.toNat → s.err ≠ .none → exec (.rdreg reg) s = .next (s.respond 0#64))

/-- STATUS as the host reads it: ERR in bits 3:0 with its number, TREE_BUILT in bit 4, zeros above (10_state.md R24). -/
def Obligations.StatusWordLayout : Prop :=
  (∀ s : State,
    s.status.toNat = s.err.number.toNat + (if s.treeBuilt then 16 else 0)) ∧
  ErrorCode.number .none = 0#4 ∧ ErrorCode.number .emptyInput = 1#4 ∧
  ErrorCode.number .unknownSymbol = 2#4 ∧ ErrorCode.number .corruptStream = 3#4 ∧
  ErrorCode.number .illegalCommand = 4#4 ∧ ErrorCode.number .bufferBounds = 5#4

/-- WRREG writes the register it names, clears TREE_BUILT exactly for NNODES and ROOT, and raises IllegalCommand for a value too large and for every other register number (40_system_and_access.md R96). -/
def Obligations.WrregWritesTheRegister : Prop :=
  ∀ (s : State) (reg : BitVec 8) (val : BitVec 40), s.err = .none →
    (encode (.wrreg reg val)).toNat = 0x10 * 2 ^ 56 + reg.toNat * 2 ^ 40 + val.toNat ∧
    (reg.toNat = 3 → val.toNat ≤ 511 → exec (.wrreg reg val) s =
      .next { s with nnodes := BitVec.ofNat 10 val.toNat, treeBuilt := false,
                     responses := s.responses ++ [0#64] }) ∧
    (reg.toNat = 4 → val.toNat ≤ 511 → exec (.wrreg reg val) s =
      .next { s with root := BitVec.ofNat 9 val.toNat, treeBuilt := false,
                     responses := s.responses ++ [0#64] }) ∧
    (reg.toNat = 5 → val.toNat ≤ 2 ^ 32 - 1 → exec (.wrreg reg val) s =
      .next { s with rawlen := BitVec.ofNat 32 val.toNat, responses := s.responses ++ [0#64] }) ∧
    (reg.toNat = 6 → val.toNat ≤ 2 ^ 32 - 1 → exec (.wrreg reg val) s =
      .next { s with pkdlen := BitVec.ofNat 32 val.toNat, responses := s.responses ++ [0#64] }) ∧
    (reg.toNat = 7 → val.toNat ≤ 2 ^ 32 - 1 → exec (.wrreg reg val) s =
      .next { s with symcnt := BitVec.ofNat 32 val.toNat, responses := s.responses ++ [0#64] }) ∧
    ((reg.toNat = 3 ∨ reg.toNat = 4) ∧ 511 < val.toNat ∨
      (5 ≤ reg.toNat ∧ reg.toNat ≤ 7) ∧ 2 ^ 32 - 1 < val.toNat ∨
      reg.toNat < 3 ∨ 7 < reg.toNat →
      exec (.wrreg reg val) s =
        .next (s.raiseError .illegalCommand (encode (.wrreg reg val))))

/-- RDFREQ answers the count of its symbol, whatever ERR is (40_system_and_access.md R97). -/
def Obligations.RdfreqReadsTheCount : Prop :=
  ∀ (s : State) (sym : Byte),
    (encode (.rdfreq sym)).toNat = 0x13 * 2 ^ 56 + sym.toNat * 2 ^ 32 ∧
    ∃ v : Word, exec (.rdfreq sym) s = .next (s.respond v) ∧ v.toNat = (s.freqAt sym).toNat

/-- WRFREQ writes the count of its symbol and changes nothing else, TREE_BUILT included (40_system_and_access.md R98). -/
def Obligations.WrfreqWritesTheCount : Prop :=
  ∀ (s : State) (sym : Byte) (cnt : BitVec 32), s.err = .none →
    (encode (.wrfreq sym cnt)).toNat = 0x12 * 2 ^ 56 + sym.toNat * 2 ^ 32 + cnt.toNat ∧
    ∃ t, exec (.wrfreq sym cnt) s = .next t ∧
      t.freqAt sym = cnt ∧ (∀ x, x ≠ sym → t.freqAt x = s.freqAt x) ∧
      t = { s with freq := t.freq, responses := s.responses ++ [0#64] }

/-- RDNODE answers the 59-bit record of its entry, part of the tree or not; index 511 raises IllegalCommand, or answers 0 while an error is pending (40_system_and_access.md R99; 10_state.md R33). -/
def Obligations.RdnodeReadsTheRecord : Prop :=
  ∀ (s : State) (idx : BitVec 9),
    (encode (.rdnode idx)).toNat = 0x15 * 2 ^ 56 + idx.toNat * 2 ^ 19 ∧
    (∀ sym w, s.nodeAt? idx = some (.leaf sym w) →
      ∃ v : Word, exec (.rdnode idx) s = .next (s.respond v) ∧
        v.toNat = w.toNat * 2 ^ 18 + sym.toNat) ∧
    (∀ l r w, s.nodeAt? idx = some (.internal l r w) →
      ∃ v : Word, exec (.rdnode idx) s = .next (s.respond v) ∧
        v.toNat = 2 ^ 58 + w.toNat * 2 ^ 18 + l.toNat * 2 ^ 9 + r.toNat) ∧
    (idx ≠ 511#9 → ∃ e, s.nodeAt? idx = some e) ∧
    (idx = 511#9 → s.err = .none →
      exec (.rdnode idx) s = .next (s.raiseError .illegalCommand (encode (.rdnode idx)))) ∧
    (idx = 511#9 → s.err ≠ .none → exec (.rdnode idx) s = .next (s.respond 0#64))

/-- WRNODE writes one entry of weight 0 and clears TREE_BUILT; index 511 and a leaf payload that is no symbol raise IllegalCommand (40_system_and_access.md R100). -/
def Obligations.WrnodeWritesTheEntry : Prop :=
  ∀ (s : State) (idx : BitVec 9) (kind : BitVec 1) (pay : BitVec 18), s.err = .none →
    (encode (.wrnode idx kind pay)).toNat =
      0x14 * 2 ^ 56 + idx.toNat * 2 ^ 19 + kind.toNat * 2 ^ 18 + pay.toNat ∧
    (idx ≠ 511#9 → kind = 0#1 → pay.toNat < 256 →
      ∃ t, exec (.wrnode idx kind pay) s = .next t ∧
        t.nodeAt? idx = some (.leaf (BitVec.ofNat 8 pay.toNat) 0#40) ∧
        (∀ j, j ≠ idx → t.nodeAt? j = s.nodeAt? j) ∧
        t = { s with node := t.node, treeBuilt := false, responses := s.responses ++ [0#64] }) ∧
    (idx ≠ 511#9 → kind = 1#1 →
      ∃ t, exec (.wrnode idx kind pay) s = .next t ∧
        t.nodeAt? idx =
          some (.internal (BitVec.ofNat 9 (pay.toNat / 512)) (BitVec.ofNat 9 (pay.toNat % 512)) 0#40) ∧
        (∀ j, j ≠ idx → t.nodeAt? j = s.nodeAt? j) ∧
        t = { s with node := t.node, treeBuilt := false, responses := s.responses ++ [0#64] }) ∧
    (idx = 511#9 ∨ (kind = 0#1 ∧ 256 ≤ pay.toNat) →
      exec (.wrnode idx kind pay) s =
        .next (s.raiseError .illegalCommand (encode (.wrnode idx kind pay))))

/-- RDCLEN answers the length of its symbol's code and RDCBITS 64 bits of it, whatever ERR is: response bit 63 - i of chunk k is BITS[255 - (64 k + i)], that is code bit 64 k + i, and 0 beyond the code where CODE is padded as the invariant says (40_system_and_access.md R101, R102; 20_memory.md R52). -/
def Obligations.CodeReadsGiveLengthAndChunk : Prop :=
  ∀ (s : State) (sym : Byte),
    (encode (.rdclen sym)).toNat = 0x16 * 2 ^ 56 + sym.toNat ∧
    (∃ v : Word, exec (.rdclen sym) s = .next (s.respond v) ∧
      v.toNat = (s.codeAt sym).len.toNat ∧ v.toNat = (s.codeOf sym).length) ∧
    ∀ chunk : BitVec 2,
      (encode (.rdcbits sym chunk)).toNat = 0x17 * 2 ^ 56 + chunk.toNat * 2 ^ 8 + sym.toNat ∧
      ∃ v : Word, exec (.rdcbits sym chunk) s = .next (s.respond v) ∧
        (∀ i, i < 64 →
          v.getLsbD (63 - i) = (s.codeAt sym).bits.getLsbD (255 - (64 * chunk.toNat + i))) ∧
        ((s.codeAt sym).Padded → ∀ i, i < 64 →
          v.getLsbD (63 - i) = (s.codeOf sym).getD (64 * chunk.toNat + i) false)

/-- RDRAW answers one byte of RAW below the capacity; an address at or above it raises IllegalCommand, or answers 0 while an error is pending (40_system_and_access.md R103). -/
def Obligations.RdrawReadsTheByte : Prop :=
  ∀ (s : State) (addr : BitVec 32),
    (encode (.rdraw addr)).toNat = 0x19 * 2 ^ 56 + addr.toNat * 2 ^ 8 ∧
    (addr.toNat < s.rawcap.toNat →
      ∃ v : Word, exec (.rdraw addr) s = .next (s.respond v) ∧
        v.toNat = (s.rawByte addr.toNat).toNat) ∧
    (s.rawcap.toNat ≤ addr.toNat → s.err = .none →
      exec (.rdraw addr) s = .next (s.raiseError .illegalCommand (encode (.rdraw addr)))) ∧
    (s.rawcap.toNat ≤ addr.toNat → s.err ≠ .none →
      exec (.rdraw addr) s = .next (s.respond 0#64))

/-- WRRAW writes one byte of RAW below the capacity and nothing else, RAWLEN included; an address at or above it raises IllegalCommand (40_system_and_access.md R104). -/
def Obligations.WrrawWritesTheByte : Prop :=
  ∀ (s : State) (addr : BitVec 32) (data : Byte), s.err = .none →
    (encode (.wrraw addr data)).toNat = 0x18 * 2 ^ 56 + addr.toNat * 2 ^ 8 + data.toNat ∧
    (addr.toNat < s.rawcap.toNat → ∃ t, exec (.wrraw addr data) s = .next t ∧
      t.rawByte addr.toNat = data ∧ (∀ a, a ≠ addr.toNat → t.rawByte a = s.rawByte a) ∧
      t = { s with raw := t.raw, responses := s.responses ++ [0#64] }) ∧
    (s.rawcap.toNat ≤ addr.toNat →
      exec (.wrraw addr data) s =
        .next (s.raiseError .illegalCommand (encode (.wrraw addr data))))

/-- RDPKD answers one byte of PKD below the capacity; an address at or above it raises IllegalCommand, or answers 0 while an error is pending (40_system_and_access.md R105). -/
def Obligations.RdpkdReadsTheByte : Prop :=
  ∀ (s : State) (addr : BitVec 32),
    (encode (.rdpkd addr)).toNat = 0x1B * 2 ^ 56 + addr.toNat * 2 ^ 8 ∧
    (addr.toNat < s.pkdcap.toNat →
      ∃ v : Word, exec (.rdpkd addr) s = .next (s.respond v) ∧
        v.toNat = (s.pkdByte addr.toNat).toNat) ∧
    (s.pkdcap.toNat ≤ addr.toNat → s.err = .none →
      exec (.rdpkd addr) s = .next (s.raiseError .illegalCommand (encode (.rdpkd addr)))) ∧
    (s.pkdcap.toNat ≤ addr.toNat → s.err ≠ .none →
      exec (.rdpkd addr) s = .next (s.respond 0#64))

/-- WRPKD writes one byte of PKD below the capacity and nothing else, PKDLEN included; an address at or above it raises IllegalCommand (40_system_and_access.md R106). -/
def Obligations.WrpkdWritesTheByte : Prop :=
  ∀ (s : State) (addr : BitVec 32) (data : Byte), s.err = .none →
    (encode (.wrpkd addr data)).toNat = 0x1A * 2 ^ 56 + addr.toNat * 2 ^ 8 + data.toNat ∧
    (addr.toNat < s.pkdcap.toNat → ∃ t, exec (.wrpkd addr data) s = .next t ∧
      t.pkdByte addr.toNat = data ∧ (∀ a, a ≠ addr.toNat → t.pkdByte a = s.pkdByte a) ∧
      t = { s with pkd := t.pkd, responses := s.responses ++ [0#64] }) ∧
    (s.pkdcap.toNat ≤ addr.toNat →
      exec (.wrpkd addr data) s =
        .next (s.raiseError .illegalCommand (encode (.wrpkd addr data))))

/-! ### Errors and gating -/

/-- Errors are precise: a command that raises changes ERR and ERRINFO and nothing else, and answers 0. The other clauses say what a response, a drop and a raised error write (60_exceptions.md R188, R195; 30_encoding.md R70). -/
def Obligations.RaisingCommandsChangeNothingElse : Prop :=
  (∀ (i : Instr) (s t : State), exec i s = .next t → s.err = .none → t.err ≠ .none →
    t = s.raiseError t.err t.errinfo) ∧
  ∀ (s : State) (v : Word) (e : ErrorCode) (info : Word),
    s.respond v = { s with responses := s.responses ++ [v] } ∧
    s.drop = { s with responses := s.responses ++ [0#64] } ∧
    s.raiseError e info =
      { s with err := e, errinfo := info, responses := s.responses ++ [0#64] }

/-- While an error is pending, whatever word is taken, unless it is CLRERR or SRST, the step changes nothing but the channels: the first error is kept, change-class commands and illegal encodings are dropped with response 0, and read-class commands answer (60_exceptions.md R189, R191). -/
def Obligations.PendingErrorFreezesTheState : Prop :=
  ∀ (s : State) (c : Word) (rest : List Word), s.err ≠ .none → s.commands = c :: rest →
    decode c ≠ .ok .clrerr → decode c ≠ .ok .srst →
    ∃ v, step s = .next { s with commands := rest, responses := s.responses ++ [v] } ∧
      ((∀ i, decode c = .ok i →
        classOf i = .change ∨ i.wellFormed s.rawcap s.pkdcap = false) → v = 0#64)

/-- A read-class command changes nothing but the response list unless it raises, and it raises exactly when an operand is out of range and no error is pending (30_encoding.md R80; 60_exceptions.md R189). -/
def Obligations.ReadCommandsChangeNothing : Prop :=
  ∀ (i : Instr) (s : State), classOf i = .read →
    (i.wellFormed s.rawcap s.pkdcap = true ∨ s.err ≠ .none →
      ∃ v, exec i s = .next (s.respond v)) ∧
    (i.wellFormed s.rawcap s.pkdcap = false → s.err = .none →
      exec i s = .next (s.raiseError .illegalCommand (encode i)))

/-- IllegalCommand is raised by a decoded command exactly when an operand is out of range, the register is read-only, or ASSIGN finds TREE_BUILT = 0; ERRINFO is then the command's word (60_exceptions.md R185). -/
def Obligations.IllegalCommandExactlyForBadOperands : Prop :=
  ∀ (i : Instr) (s t : State), exec i s = .next t → s.err = .none →
    (t.err = .illegalCommand ↔
      i.wellFormed s.rawcap s.pkdcap = false ∨ (i = .assign ∧ s.treeBuilt = false)) ∧
    (t.err = .illegalCommand → t.errinfo = encode i)

/-- Which commands raise which error, and which can never raise one (60_exceptions.md R180). -/
def Obligations.ErrorsByCommand : Prop :=
  ∀ (i : Instr) (s t : State), exec i s = .next t → s.err = .none →
    (t.err = .emptyInput → i = .build) ∧
    (t.err = .unknownSymbol → i = .pack) ∧
    (t.err = .corruptStream → i = .unpack) ∧
    (t.err = .bufferBounds → i = .pack ∨ i = .unpack) ∧
    (i = .nop ∨ i = .srst ∨ i = .clrerr ∨ i = .clrfreq ∨ (∃ x, i = .rdfreq x) ∨
      (∃ x n, i = .wrfreq x n) ∨ (∃ x, i = .rdclen x) ∨ (∃ x k, i = .rdcbits x k) →
      t.err = .none)

/-- Every word taken gets exactly one response, at the end of the list, and no word is taken but the oldest (30_encoding.md R70). -/
def Obligations.OneResponseForEachCommand : Prop :=
  ∀ (s t : State) (c : Word) (rest : List Word), s.commands = c :: rest → step s = .next t →
    t.commands = rest ∧ ∃ v, t.responses = s.responses ++ [v]

/-- TREE_BUILT is 1 after a command exactly when a BUILD has just completed, or it was 1 and the command is not SRST and not a WRNODE or a WRREG to NNODES or ROOT that completes (10_state.md R26). -/
def Obligations.TreeBuiltIsSetByBuildAlone : Prop :=
  ∀ (i : Instr) (s t : State), exec i s = .next t →
    (t.treeBuilt = true ↔
      (i = .build ∧ s.err = .none ∧ t.err = .none) ∨
      (s.treeBuilt = true ∧ i ≠ .srst ∧
        ¬ (s.err = .none ∧ t.err = .none ∧
          ((∃ idx kind pay, i = .wrnode idx kind pay) ∨ (∃ val, i = .wrreg 3#8 val) ∨
            (∃ val, i = .wrreg 4#8 val)))))

/-- The frame of every command: each register, STATUS's two fields and ERRINFO among them, and each memory changes only under the commands that write it, and a byte of RAW or PKD only where the command stores one (10_state.md R23, R24, R25, R26, R30, R35, R40; 20_memory.md R50). -/
def Obligations.OnlyTheseCommandsWrite : Prop :=
  ∀ (i : Instr) (s t : State), exec i s = .next t →
    t.rawcap = s.rawcap ∧ t.pkdcap = s.pkdcap ∧ t.commands = s.commands ∧
    (t.err ≠ s.err → i = .clrerr ∨ i = .srst ∨ (s.err = .none ∧ t.err ≠ .none)) ∧
    (t.errinfo ≠ s.errinfo → i = .clrerr ∨ i = .srst ∨ (s.err = .none ∧ t.err ≠ .none)) ∧
    (t.treeBuilt ≠ s.treeBuilt →
      i = .build ∨ i = .srst ∨ (∃ idx kind pay, i = .wrnode idx kind pay) ∨
        (∃ v, i = .wrreg 3#8 v) ∨ ∃ v, i = .wrreg 4#8 v) ∧
    (t.nnodes ≠ s.nnodes → i = .build ∨ i = .srst ∨ ∃ v, i = .wrreg 3#8 v) ∧
    (t.root ≠ s.root → i = .build ∨ i = .srst ∨ ∃ v, i = .wrreg 4#8 v) ∧
    (t.rawlen ≠ s.rawlen → i = .unpack ∨ i = .srst ∨ ∃ v, i = .wrreg 5#8 v) ∧
    (t.pkdlen ≠ s.pkdlen → i = .pack ∨ i = .srst ∨ ∃ v, i = .wrreg 6#8 v) ∧
    (t.symcnt ≠ s.symcnt → i = .srst ∨ ∃ v, i = .wrreg 7#8 v) ∧
    (t.bitcnt ≠ s.bitcnt → i = .pack ∨ i = .srst) ∧
    (∀ x, t.freqAt x ≠ s.freqAt x → i = .clrfreq ∨ i = .srst ∨ ∃ n, i = .wrfreq x n) ∧
    (∀ j, t.nodeAt? j ≠ s.nodeAt? j →
      i = .srst ∨ (i = .build ∧ j.toNat < t.nnodes.toNat) ∨ ∃ kind pay, i = .wrnode j kind pay) ∧
    (∀ x, t.codeAt x ≠ s.codeAt x → i = .assign ∨ i = .srst) ∧
    (∀ a, t.rawByte a ≠ s.rawByte a →
      (i = .unpack ∧ a < s.symcnt.toNat) ∨ ∃ addr d, i = .wrraw addr d ∧ a = addr.toNat) ∧
    (∀ a, t.pkdByte a ≠ s.pkdByte a →
      (i = .pack ∧ a < t.pkdlen.toNat) ∨ ∃ addr d, i = .wrpkd addr d ∧ a = addr.toNat)

/-! ### Unit TB: BUILD -/

/-- BUILD with every count 0 raises EmptyInput with ERRINFO 0 and changes nothing else (41_tree_builder.md R126; 60_exceptions.md R181). -/
def Obligations.BuildOfNothingRaisesEmptyInput : Prop :=
  ∀ s : State, s.err = .none → (∀ x : Byte, s.freqAt x = 0#32) →
    exec .build s = .next (s.raiseError .emptyInput 0#64)

/-- BUILD with exactly one key makes the tree of one Leaf (41_tree_builder.md R125). -/
def Obligations.BuildOfOneSymbolIsItsLeaf : Prop :=
  ∀ (s : State) (x : Byte), s.err = .none → s.freqAt x ≠ 0#32 →
    (∀ y, y ≠ x → s.freqAt y = 0#32) →
    ∃ t, exec .build s = .next t ∧
      t = { s with node := t.node, root := 0#9, nnodes := 1#10, treeBuilt := true,
                   responses := s.responses ++ [0#64] } ∧
      (∃ w : BitVec 40, t.nodeAt? 0#9 = some (.leaf x w) ∧ w.toNat = (s.freqAt x).toNat) ∧
      ∀ j, j ≠ 0#9 → t.nodeAt? j = s.nodeAt? j

/-- BUILD over n ≥ 1 keys (the symbols with a count, each once, ascending) completes: NNODES = 2n - 1, ROOT = 2n - 2, the leaves of the keys in ascending order first, Internal entries after them, and every entry at or above NNODES as before; nothing else changes but TREE_BUILT (41_tree_builder.md R121, R124, R129). -/
def Obligations.BuildStoresTheTree : Prop :=
  ∀ s : State, s.err = .none → (∃ x, s.freqAt x ≠ 0#32) →
    ∃ t, exec .build s = .next t ∧
      t = { s with node := t.node, root := t.root, nnodes := t.nnodes, treeBuilt := true,
                   responses := s.responses ++ [0#64] } ∧
      t.nnodes.toNat = 2 * s.keys.length - 1 ∧ t.root.toNat = 2 * s.keys.length - 2 ∧
      (∀ x, x ∈ s.keys ↔ s.freqAt x ≠ 0#32) ∧
      s.keys.Pairwise (fun x y => x.toNat < y.toNat) ∧
      (∀ (i : Nat) (x : Byte), s.keys[i]? = some x → ∃ w : BitVec 40,
        t.node[i]? = some (.leaf x w) ∧ w.toNat = (s.freqAt x).toNat) ∧
      (∀ k : Nat, s.keys.length ≤ k → k < 2 * s.keys.length - 1 →
        ∃ l r w, t.node[k]? = some (.internal l r w)) ∧
      (∀ k : Nat, 2 * s.keys.length - 1 ≤ k → t.node[k]? = s.node[k]?)

/-- Every merge takes the two live nodes of least (weight, index), the least as left child: at the making of Internal entry k the live nodes are the entries below k that no Internal entry below k has as a child (41_tree_builder.md R122, R123). -/
def Obligations.BuildMergesTheTwoLeast : Prop :=
  ∀ s t : State, s.err = .none → (∃ x, s.freqAt x ≠ 0#32) → exec .build s = .next t →
    ∀ k, s.keys.length ≤ k → k < t.nnodes.toNat →
      ∃ a b w ea eb, t.node[k]? = some (.internal a b w) ∧ a ≠ b ∧
        a.toNat < k ∧ b.toNat < k ∧
        t.node[a.toNat]? = some ea ∧ t.node[b.toNat]? = some eb ∧
        (∀ m, m < k → ¬ t.childOf m a.toNat ∧ ¬ t.childOf m b.toNat) ∧
        (ea.weight.toNat < eb.weight.toNat ∨
          ea.weight.toNat = eb.weight.toNat ∧ a.toNat < b.toNat) ∧
        ∀ j e, j < k → t.node[j]? = some e → (∀ m, m < k → ¬ t.childOf m j) →
          j ≠ a.toNat → j ≠ b.toNat →
          eb.weight.toNat < e.weight.toNat ∨ eb.weight.toNat = e.weight.toNat ∧ b.toNat < j

/-- The tree a BUILD writes is well-formed (41_tree_builder.md R128; 10_state.md R34). -/
def Obligations.BuildMakesAWellFormedTree : Prop :=
  ∀ s t : State, s.err = .none → (∃ x, s.freqAt x ≠ 0#32) → exec .build s = .next t →
    t.TreeWellFormed

/-- No weight wraps: the root's weight is the exact sum of all counts, and no weight of the tree exceeds 256 (2^32 - 1) (41_tree_builder.md R127). -/
def Obligations.BuildWeightsAreExact : Prop :=
  ∀ s t : State, s.err = .none → (∃ x, s.freqAt x ≠ 0#32) → exec .build s = .next t →
    (∃ e, t.nodeAt? t.root = some e ∧
      e.weight.toNat = (s.keys.map (fun x => (s.freqAt x).toNat)).sum) ∧
    ∀ k e, k < t.nnodes.toNat → t.node[k]? = some e → e.weight.toNat ≤ 256 * (2 ^ 32 - 1)

/-- BUILD depends on FREQ alone: two states with the same counts get the same tree, whatever else they hold (41_tree_builder.md R128). -/
def Obligations.BuildReadsOnlyFreq : Prop :=
  ∀ s s' t t' : State, s.err = .none → s'.err = .none → (∀ x, s.freqAt x = s'.freqAt x) →
    (∃ x, s.freqAt x ≠ 0#32) → exec .build s = .next t → exec .build s' = .next t' →
    t.nnodes = t'.nnodes ∧ t.root = t'.root ∧
      ∀ k, k < t.nnodes.toNat → t.node[k]? = t'.node[k]?

/-! ### Unit CA: ASSIGN -/

/-- ASSIGN with TREE_BUILT = 0 raises IllegalCommand with its own word and changes nothing else (42_code_assigner.md R141). -/
def Obligations.AssignNeedsABuiltTree : Prop :=
  ∀ s : State, s.err = .none → s.treeBuilt = false →
    exec .assign s = .next (s.raiseError .illegalCommand 0x2100000000000000#64)

/-- ASSIGN over a built, well-formed tree completes, writes CODE alone, and gives every symbol exactly its code in the tree: its path from ROOT, or `0` for a root that is a Leaf; a symbol with none has the empty code (42_code_assigner.md R136, R137, R138). The invariant of `InvariantIsKept` says that a built tree is well-formed. -/
def Obligations.AssignGivesEveryLeafItsPath : Prop :=
  ∀ s : State, s.err = .none → s.treeBuilt = true → s.TreeWellFormed →
    ∃ t, exec .assign s = .next t ∧
      t = { s with code := t.code, responses := s.responses ++ [0#64] } ∧
      (∀ p x, s.TreeCode p x ↔ (t.codeOf x = p ∧ p ≠ [])) ∧
      (∀ x, (t.codeAt x).Padded) ∧
      (∀ x, t.codeOf x ≠ [] ↔
        ∃ i w, i < s.nnodes.toNat ∧ s.node[i]? = some (.leaf x w))

/-- The codes ASSIGN gives for a well-formed tree form a prefix code (42_code_assigner.md R139). -/
def Obligations.AssignedCodesArePrefixFree : Prop :=
  ∀ s t : State, s.err = .none → s.treeBuilt = true → s.TreeWellFormed →
    exec .assign s = .next t → t.PrefixFree

/-- Over a built tree of n leaves every code has at most n - 1 bits, or one bit where n = 1, so at most 255 (42_code_assigner.md R140). -/
def Obligations.CodeLengthsAreBounded : Prop :=
  ∀ s t : State, s.err = .none → s.treeBuilt = true → s.TreeWellFormed →
    exec .assign s = .next t → ∀ x,
      (t.codeOf x).length ≤ max 1 (s.leafCount - 1) ∧ (t.codeOf x).length ≤ 255

/-- After BUILD and ASSIGN the symbols with a code are exactly the symbols with a count (42_code_assigner.md R138). -/
def Obligations.CodedSymbolsAreTheKeys : Prop :=
  ∀ s : State, s.err = .none → (∃ x, s.freqAt x ≠ 0#32) →
    ∃ t u, exec .build s = .next t ∧ exec .assign t = .next u ∧
      ∀ x, u.codeOf x ≠ [] ↔ s.freqAt x ≠ 0#32

/-- ASSIGN reads neither FREQ nor the weights in NODE nor the old codes: states whose trees differ in weights only get the same CODE (42_code_assigner.md R135). -/
def Obligations.AssignReadsOnlyTheShape : Prop :=
  ∀ s s' t t' : State, s.err = .none → s'.err = .none → s.treeBuilt = true →
    s'.treeBuilt = true → s.root = s'.root →
    (∀ i sym w, s.nodeAt? i = some (.leaf sym w) → ∃ w', s'.nodeAt? i = some (.leaf sym w')) →
    (∀ i l r w, s.nodeAt? i = some (.internal l r w) →
      ∃ w', s'.nodeAt? i = some (.internal l r w')) →
    exec .assign s = .next t → exec .assign s' = .next t' → t.code = t'.code

/-- The code of BUILD and ASSIGN minimises the weighted path length among all prefix codes for the counts in FREQ, for two keys or more (41_tree_builder.md R130). -/
def Obligations.BuiltCodesAreOptimal : Prop :=
  ∀ s t u : State, s.err = .none → 2 ≤ s.keys.length →
    exec .build s = .next t → exec .assign t = .next u →
    ∀ code : Byte → List Bool,
      (∀ x y, x ∈ s.keys → y ∈ s.keys → x ≠ y → ¬ code x <+: code y) →
      s.weightedLength u.codeOf ≤ s.weightedLength code

/-! ### Unit BP: PACK -/

/-- PACK, where RAWLEN fits, every byte has a code and the output fits, lays the codes of RAW[0 .. RAWLEN-1] end to end, most significant bit first, zeros after them, and writes PKD below the new PKDLEN, PKDLEN and BITCNT and nothing else (43_bit_packer.md R145, R146, R148, R152). -/
def Obligations.PackLaysTheCodesEndToEnd : Prop :=
  ∀ (s : State) (stream : List Bool), s.err = .none → s.rawlen.toNat ≤ s.rawcap.toNat →
    (∀ j, j < s.rawlen.toNat → s.codeOf (s.rawByte j) ≠ []) →
    stream = (List.range s.rawlen.toNat).flatMap (fun j => s.codeOf (s.rawByte j)) →
    (stream.length + 7) / 8 ≤ s.pkdcap.toNat →
    ∃ t, exec .pack s = .next t ∧
      t = { s with pkd := t.pkd, pkdlen := t.pkdlen, bitcnt := t.bitcnt,
                   responses := s.responses ++ [0#64] } ∧
      t.bitcnt.toNat = stream.length ∧ t.pkdlen.toNat = (stream.length + 7) / 8 ∧
      (∀ p, p < 8 * t.pkdlen.toNat → t.pkdBit p = stream.getD p false) ∧
      (∀ a, t.pkdlen.toNat ≤ a → t.pkdByte a = s.pkdByte a)

/-- PACK's three errors in the order tested, each with its ERRINFO: RAWLEN above RAW_CAP; the least position whose byte has no code; an output above PKD_CAP (43_bit_packer.md R145, R147, R150; 60_exceptions.md R182, R186, R187). -/
def Obligations.PackErrorsInOrder : Prop :=
  ∀ s : State, s.err = .none →
    (s.rawcap.toNat < s.rawlen.toNat →
      ∃ info : Word, exec .pack s = .next (s.raiseError .bufferBounds info) ∧
        info.toNat = 1 * 2 ^ 60 + s.rawlen.toNat) ∧
    (∀ j, s.rawlen.toNat ≤ s.rawcap.toNat → j < s.rawlen.toNat →
      s.codeOf (s.rawByte j) = [] → (∀ i, i < j → s.codeOf (s.rawByte i) ≠ []) →
      ∃ info : Word, exec .pack s = .next (s.raiseError .unknownSymbol info) ∧
        info.toNat = j * 2 ^ 8 + (s.rawByte j).toNat) ∧
    (∀ stream : List Bool, s.rawlen.toNat ≤ s.rawcap.toNat →
      (∀ j, j < s.rawlen.toNat → s.codeOf (s.rawByte j) ≠ []) →
      stream = (List.range s.rawlen.toNat).flatMap (fun j => s.codeOf (s.rawByte j)) →
      s.pkdcap.toNat < (stream.length + 7) / 8 →
      ∃ info : Word, exec .pack s = .next (s.raiseError .bufferBounds info) ∧
        info.toNat = 2 * 2 ^ 60 + (stream.length + 7) / 8)

/-- PACK with RAWLEN = 0 writes PKDLEN and BITCNT 0 and no byte, whatever CODE holds (43_bit_packer.md R151). -/
def Obligations.PackOfNothingIsEmpty : Prop :=
  ∀ s : State, s.err = .none → s.rawlen = 0#32 →
    exec .pack s =
      .next { s with pkdlen := 0#32, bitcnt := 0#40, responses := s.responses ++ [0#64] }

/-- What PACK reports when it completes: PKDLEN is BITCNT in whole bytes, and each byte of the input has 1 to 255 bits (43_bit_packer.md R149). -/
def Obligations.PackReportsTheBitCount : Prop :=
  ∀ s t : State, s.err = .none → exec .pack s = .next t → t.err = .none →
    (0 < t.bitcnt.toNat →
      8 * t.pkdlen.toNat - 7 ≤ t.bitcnt.toNat ∧ t.bitcnt.toNat ≤ 8 * t.pkdlen.toNat) ∧
    (t.bitcnt.toNat = 0 → t.pkdlen.toNat = 0) ∧
    s.rawlen.toNat ≤ t.bitcnt.toNat ∧ t.bitcnt.toNat ≤ 255 * s.rawlen.toNat ∧
    t.pkdlen.toNat ≤ s.pkdcap.toNat

/-- PACK reads RAW below RAWLEN, CODE and the capacities, and nothing else: not the tree, not FREQ, not a byte of RAW at or above RAWLEN (43_bit_packer.md R153; 10_state.md R40). -/
def Obligations.PackReadsOnlyRawAndCode : Prop :=
  ∀ s s' t t' : State, s.err = .none → s'.err = .none → s.rawlen = s'.rawlen →
    s.rawcap = s'.rawcap → s.pkdcap = s'.pkdcap → s.code = s'.code →
    (∀ j, j < s.rawlen.toNat → s.rawByte j = s'.rawByte j) →
    exec .pack s = .next t → exec .pack s' = .next t' →
    t.err = t'.err ∧ (t.err ≠ .none → t.errinfo = t'.errinfo) ∧
    (t.err = .none → t.pkdlen = t'.pkdlen ∧ t.bitcnt = t'.bitcnt ∧
      ∀ a, a < t.pkdlen.toNat → t.pkdByte a = t'.pkdByte a)

/-! ### Unit BU: UNPACK -/

/-- UNPACK completes where the stream begins with the tree codes of SYMCNT symbols: RAW[0 .. SYMCNT-1] are those symbols, RAWLEN is SYMCNT, what follows in the stream is not looked at, and nothing else changes (44_bit_unpacker.md R161, R162, R163, R166, R170). -/
def Obligations.UnpackFollowsTheTree : Prop :=
  ∀ (s : State) (codes : List (List Bool × Byte)), s.err = .none →
    s.pkdlen.toNat ≤ s.pkdcap.toNat → s.symcnt.toNat ≤ s.rawcap.toNat →
    s.nnodes.toNat ≤ 511 → s.root.toNat < s.nnodes.toNat →
    codes.length = s.symcnt.toNat → (∀ c, c ∈ codes → s.TreeCode c.1 c.2) →
    codes.flatMap Prod.fst <+: (List.range (8 * s.pkdlen.toNat)).map s.pkdBit →
    ∃ t, exec .unpack s = .next t ∧
      t = { s with raw := t.raw, rawlen := s.symcnt, responses := s.responses ++ [0#64] } ∧
      (∀ j c, codes[j]? = some c → t.rawByte j = c.2) ∧
      (∀ a, s.symcnt.toNat ≤ a → t.rawByte a = s.rawByte a)

/-- UNPACK completes only then: when it writes a result, that result is the reading of the stream as tree codes, one after another (44_bit_unpacker.md R160, R162; 60_exceptions.md R183). -/
def Obligations.UnpackNeverGuesses : Prop :=
  ∀ s t : State, s.err = .none → s.nnodes.toNat ≤ 511 → exec .unpack s = .next t →
    t.err = .none →
    s.pkdlen.toNat ≤ s.pkdcap.toNat ∧ s.symcnt.toNat ≤ s.rawcap.toNat ∧
    ∃ codes : List (List Bool × Byte), codes.length = s.symcnt.toNat ∧
      (∀ c, c ∈ codes → s.TreeCode c.1 c.2) ∧
      codes.flatMap Prod.fst <+: (List.range (8 * s.pkdlen.toNat)).map s.pkdBit ∧
      t.rawlen = s.symcnt ∧ ∀ j c, codes[j]? = some c → t.rawByte j = c.2

/-- UNPACK's checks before the walk, in the order tested, each with its ERRINFO; the second and the third only where those before it pass (44_bit_unpacker.md R167, R169; 60_exceptions.md R183, R186, R187). -/
def Obligations.UnpackChecksBoundsThenRoot : Prop :=
  ∀ s : State, s.err = .none →
    (s.pkdcap.toNat < s.pkdlen.toNat →
      ∃ info : Word, exec .unpack s = .next (s.raiseError .bufferBounds info) ∧
        info.toNat = 3 * 2 ^ 60 + s.pkdlen.toNat) ∧
    (s.pkdlen.toNat ≤ s.pkdcap.toNat → s.rawcap.toNat < s.symcnt.toNat →
      ∃ info : Word, exec .unpack s = .next (s.raiseError .bufferBounds info) ∧
        info.toNat = 4 * 2 ^ 60 + s.symcnt.toNat) ∧
    (s.pkdlen.toNat ≤ s.pkdcap.toNat → s.symcnt.toNat ≤ s.rawcap.toNat →
      0 < s.symcnt.toNat → s.nnodes.toNat ≤ s.root.toNat →
      exec .unpack s = .next (s.raiseError .corruptStream 0x2000000000000000#64))

/-- The three ways the walk fails after `codes` have been decoded and the bits `q` have led from ROOT to node j: no bit is left, the bit selects a child that is not below NNODES, or ROOT is a Leaf and the bit is 1. ERRINFO has the sub-cause and the number of symbols decoded (44_bit_unpacker.md R164, R165, R166; 60_exceptions.md R183). -/
def Obligations.UnpackReportsTheFirstCorruption : Prop :=
  ∀ (s : State) (codes : List (List Bool × Byte)) (q rest : List Bool) (j : BitVec 9),
    s.err = .none → s.pkdlen.toNat ≤ s.pkdcap.toNat → s.symcnt.toNat ≤ s.rawcap.toNat →
    s.nnodes.toNat ≤ 511 → s.root.toNat < s.nnodes.toNat →
    codes.length < s.symcnt.toNat → (∀ c, c ∈ codes → s.TreeCode c.1 c.2) →
    (List.range (8 * s.pkdlen.toNat)).map s.pkdBit = codes.flatMap Prod.fst ++ q ++ rest →
    s.WalksTo s.root q j →
    (rest = [] → (q = [] ∨ ∃ l r w, s.nodeAt? j = some (.internal l r w)) →
      ∃ info : Word, exec .unpack s = .next (s.raiseError .corruptStream info) ∧
        info.toNat = 1 * 2 ^ 60 + codes.length) ∧
    (∀ b more l r w, rest = b :: more → s.nodeAt? j = some (.internal l r w) →
      s.nnodes.toNat ≤ (if b then r else l).toNat →
      ∃ info : Word, exec .unpack s = .next (s.raiseError .corruptStream info) ∧
        info.toNat = 3 * 2 ^ 60 + codes.length) ∧
    (∀ more x w, rest = true :: more → q = [] → s.nodeAt? s.root = some (.leaf x w) →
      ∃ info : Word, exec .unpack s = .next (s.raiseError .corruptStream info) ∧
        info.toNat = 4 * 2 ^ 60 + codes.length)

/-- UNPACK with SYMCNT = 0 completes whatever the tree and the stream hold, provided PKDLEN fits: RAWLEN becomes 0 and no byte is written (44_bit_unpacker.md R168). -/
def Obligations.UnpackOfNothingIsEmpty : Prop :=
  ∀ s : State, s.err = .none → s.symcnt = 0#32 → s.pkdlen.toNat ≤ s.pkdcap.toNat →
    exec .unpack s =
      .next { s with rawlen := 0#32, responses := s.responses ++ [0#64] }

/-- UNPACK reads PKD below PKDLEN, SYMCNT, the capacities, and the tree without its weights, and nothing else: not CODE, not FREQ, not TREE_BUILT, not BITCNT, not RAW (44_bit_unpacker.md R160, R162, R163). -/
def Obligations.UnpackReadsOnlyStreamAndTree : Prop :=
  ∀ s s' t t' : State, s.err = .none → s'.err = .none → s.pkdlen = s'.pkdlen →
    s.symcnt = s'.symcnt → s.rawcap = s'.rawcap → s.pkdcap = s'.pkdcap →
    s.nnodes = s'.nnodes → s.root = s'.root →
    (∀ i sym w, s.nodeAt? i = some (.leaf sym w) → ∃ w', s'.nodeAt? i = some (.leaf sym w')) →
    (∀ i l r w, s.nodeAt? i = some (.internal l r w) →
      ∃ w', s'.nodeAt? i = some (.internal l r w')) →
    (∀ a, a < s.pkdlen.toNat → s.pkdByte a = s'.pkdByte a) →
    exec .unpack s = .next t → exec .unpack s' = .next t' →
    t.err = t'.err ∧ (t.err ≠ .none → t.errinfo = t'.errinfo) ∧
    (t.err = .none → t.rawlen = t'.rawlen ∧
      ∀ a, a < t.rawlen.toNat → t.rawByte a = t'.rawByte a)

/-! ### The whole machine -/

/-- Round trip: with a count for every byte of a non-empty input, BUILD, ASSIGN, PACK where the output fits, SYMCNT set to the input's length, and UNPACK give the input back, and no error; for the empty input PACK and UNPACK do so without BUILD (44_bit_unpacker.md R171; 70_reset_and_hazards.md R208). -/
def Obligations.UnpackUndoesPack : Prop :=
  (∀ s : State, s.err = .none → 0 < s.rawlen.toNat → s.rawlen.toNat ≤ s.rawcap.toNat →
    (∀ j, j < s.rawlen.toNat → s.freqAt (s.rawByte j) ≠ 0#32) →
    ∃ s1 s2, exec .build s = .next s1 ∧ exec .assign s1 = .next s2 ∧
      ((((List.range s.rawlen.toNat).flatMap (fun j => s2.codeOf (s2.rawByte j))).length + 7) / 8 ≤
          s.pkdcap.toNat →
        ∃ s3 s4 s5, exec .pack s2 = .next s3 ∧
          exec (.wrreg 7#8 (BitVec.ofNat 40 s.rawlen.toNat)) s3 = .next s4 ∧
          exec .unpack s4 = .next s5 ∧ s5.err = .none ∧ s5.rawlen = s.rawlen ∧
          ∀ a, s5.rawByte a = s.rawByte a)) ∧
  (∀ s : State, s.err = .none → s.rawlen = 0#32 → s.symcnt = 0#32 →
    ∃ t u, exec .pack s = .next t ∧ exec .unpack t = .next u ∧
      u = { s with pkdlen := 0#32, bitcnt := 0#40, rawlen := 0#32,
                   responses := s.responses ++ [0#64, 0#64] })

/-- The invariant holds after hardware reset (70_reset_and_hazards.md R200; 10_state.md R43). -/
def Obligations.InvariantHoldsAtReset : Prop := State.reset.Inv

/-- Every step keeps the invariant: RAW and PKD in canonical form and inside their capacities, NNODES legal, ERRINFO 0 without an error, a built tree well-formed, and CODE a padded prefix code (10_state.md R25, R26, R28, R36, R37; 20_memory.md R56). -/
def Obligations.InvariantIsKept : Prop := ∀ s t : State, s.Inv → step s = .next t → t.Inv

/-- From every state that meets the invariant, every word the host may send has a next state: no step stops (70_reset_and_hazards.md R215; 30_encoding.md R73). -/
def Obligations.NoStepStops : Prop := ∀ s : State, s.Inv → ∃ t, step s = .next t
end

