-- ==== Sys2Proof/Laws/State.lean ====
section
/-! SUPPORT. What each update of the state does to each field: one lemma for a field and an update, each true by unfolding the update once. -/

namespace Sys2Proof.Machine

/-! ### respond -/

@[simp] theorem State.respond_err (s : State) (r : Word) : (s.respond r).err = s.err := rfl
@[simp] theorem State.respond_treeBuilt (s : State) (r : Word) : (s.respond r).treeBuilt = s.treeBuilt := rfl
@[simp] theorem State.respond_errinfo (s : State) (r : Word) : (s.respond r).errinfo = s.errinfo := rfl
@[simp] theorem State.respond_nnodes (s : State) (r : Word) : (s.respond r).nnodes = s.nnodes := rfl
@[simp] theorem State.respond_root (s : State) (r : Word) : (s.respond r).root = s.root := rfl
@[simp] theorem State.respond_rawlen (s : State) (r : Word) : (s.respond r).rawlen = s.rawlen := rfl
@[simp] theorem State.respond_pkdlen (s : State) (r : Word) : (s.respond r).pkdlen = s.pkdlen := rfl
@[simp] theorem State.respond_symcnt (s : State) (r : Word) : (s.respond r).symcnt = s.symcnt := rfl
@[simp] theorem State.respond_bitcnt (s : State) (r : Word) : (s.respond r).bitcnt = s.bitcnt := rfl
@[simp] theorem State.respond_rawcap (s : State) (r : Word) : (s.respond r).rawcap = s.rawcap := rfl
@[simp] theorem State.respond_pkdcap (s : State) (r : Word) : (s.respond r).pkdcap = s.pkdcap := rfl
@[simp] theorem State.respond_freq (s : State) (r : Word) : (s.respond r).freq = s.freq := rfl
@[simp] theorem State.respond_node (s : State) (r : Word) : (s.respond r).node = s.node := rfl
@[simp] theorem State.respond_code (s : State) (r : Word) : (s.respond r).code = s.code := rfl
@[simp] theorem State.respond_raw (s : State) (r : Word) : (s.respond r).raw = s.raw := rfl
@[simp] theorem State.respond_pkd (s : State) (r : Word) : (s.respond r).pkd = s.pkd := rfl
@[simp] theorem State.respond_commands (s : State) (r : Word) : (s.respond r).commands = s.commands := rfl
@[simp] theorem State.respond_responses (s : State) (r : Word) : (s.respond r).responses = s.responses ++ [r] := rfl

/-! ### drop -/

@[simp] theorem State.drop_err (s : State) : (s.drop).err = s.err := rfl
@[simp] theorem State.drop_treeBuilt (s : State) : (s.drop).treeBuilt = s.treeBuilt := rfl
@[simp] theorem State.drop_errinfo (s : State) : (s.drop).errinfo = s.errinfo := rfl
@[simp] theorem State.drop_nnodes (s : State) : (s.drop).nnodes = s.nnodes := rfl
@[simp] theorem State.drop_root (s : State) : (s.drop).root = s.root := rfl
@[simp] theorem State.drop_rawlen (s : State) : (s.drop).rawlen = s.rawlen := rfl
@[simp] theorem State.drop_pkdlen (s : State) : (s.drop).pkdlen = s.pkdlen := rfl
@[simp] theorem State.drop_symcnt (s : State) : (s.drop).symcnt = s.symcnt := rfl
@[simp] theorem State.drop_bitcnt (s : State) : (s.drop).bitcnt = s.bitcnt := rfl
@[simp] theorem State.drop_rawcap (s : State) : (s.drop).rawcap = s.rawcap := rfl
@[simp] theorem State.drop_pkdcap (s : State) : (s.drop).pkdcap = s.pkdcap := rfl
@[simp] theorem State.drop_freq (s : State) : (s.drop).freq = s.freq := rfl
@[simp] theorem State.drop_node (s : State) : (s.drop).node = s.node := rfl
@[simp] theorem State.drop_code (s : State) : (s.drop).code = s.code := rfl
@[simp] theorem State.drop_raw (s : State) : (s.drop).raw = s.raw := rfl
@[simp] theorem State.drop_pkd (s : State) : (s.drop).pkd = s.pkd := rfl
@[simp] theorem State.drop_commands (s : State) : (s.drop).commands = s.commands := rfl
@[simp] theorem State.drop_responses (s : State) : (s.drop).responses = s.responses ++ [0#64] := rfl

/-! ### raiseError -/

@[simp] theorem State.raiseError_err (s : State) (e : ErrorCode) (info : Word) : (s.raiseError e info).err = e := rfl
@[simp] theorem State.raiseError_treeBuilt (s : State) (e : ErrorCode) (info : Word) : (s.raiseError e info).treeBuilt = s.treeBuilt := rfl
@[simp] theorem State.raiseError_errinfo (s : State) (e : ErrorCode) (info : Word) : (s.raiseError e info).errinfo = info := rfl
@[simp] theorem State.raiseError_nnodes (s : State) (e : ErrorCode) (info : Word) : (s.raiseError e info).nnodes = s.nnodes := rfl
@[simp] theorem State.raiseError_root (s : State) (e : ErrorCode) (info : Word) : (s.raiseError e info).root = s.root := rfl
@[simp] theorem State.raiseError_rawlen (s : State) (e : ErrorCode) (info : Word) : (s.raiseError e info).rawlen = s.rawlen := rfl
@[simp] theorem State.raiseError_pkdlen (s : State) (e : ErrorCode) (info : Word) : (s.raiseError e info).pkdlen = s.pkdlen := rfl
@[simp] theorem State.raiseError_symcnt (s : State) (e : ErrorCode) (info : Word) : (s.raiseError e info).symcnt = s.symcnt := rfl
@[simp] theorem State.raiseError_bitcnt (s : State) (e : ErrorCode) (info : Word) : (s.raiseError e info).bitcnt = s.bitcnt := rfl
@[simp] theorem State.raiseError_rawcap (s : State) (e : ErrorCode) (info : Word) : (s.raiseError e info).rawcap = s.rawcap := rfl
@[simp] theorem State.raiseError_pkdcap (s : State) (e : ErrorCode) (info : Word) : (s.raiseError e info).pkdcap = s.pkdcap := rfl
@[simp] theorem State.raiseError_freq (s : State) (e : ErrorCode) (info : Word) : (s.raiseError e info).freq = s.freq := rfl
@[simp] theorem State.raiseError_node (s : State) (e : ErrorCode) (info : Word) : (s.raiseError e info).node = s.node := rfl
@[simp] theorem State.raiseError_code (s : State) (e : ErrorCode) (info : Word) : (s.raiseError e info).code = s.code := rfl
@[simp] theorem State.raiseError_raw (s : State) (e : ErrorCode) (info : Word) : (s.raiseError e info).raw = s.raw := rfl
@[simp] theorem State.raiseError_pkd (s : State) (e : ErrorCode) (info : Word) : (s.raiseError e info).pkd = s.pkd := rfl
@[simp] theorem State.raiseError_commands (s : State) (e : ErrorCode) (info : Word) : (s.raiseError e info).commands = s.commands := rfl
@[simp] theorem State.raiseError_responses (s : State) (e : ErrorCode) (info : Word) : (s.raiseError e info).responses = s.responses ++ [0#64] := rfl

/-! ### clearError -/

@[simp] theorem State.clearError_err (s : State) : (s.clearError).err = .none := rfl
@[simp] theorem State.clearError_treeBuilt (s : State) : (s.clearError).treeBuilt = s.treeBuilt := rfl
@[simp] theorem State.clearError_errinfo (s : State) : (s.clearError).errinfo = 0#64 := rfl
@[simp] theorem State.clearError_nnodes (s : State) : (s.clearError).nnodes = s.nnodes := rfl
@[simp] theorem State.clearError_root (s : State) : (s.clearError).root = s.root := rfl
@[simp] theorem State.clearError_rawlen (s : State) : (s.clearError).rawlen = s.rawlen := rfl
@[simp] theorem State.clearError_pkdlen (s : State) : (s.clearError).pkdlen = s.pkdlen := rfl
@[simp] theorem State.clearError_symcnt (s : State) : (s.clearError).symcnt = s.symcnt := rfl
@[simp] theorem State.clearError_bitcnt (s : State) : (s.clearError).bitcnt = s.bitcnt := rfl
@[simp] theorem State.clearError_rawcap (s : State) : (s.clearError).rawcap = s.rawcap := rfl
@[simp] theorem State.clearError_pkdcap (s : State) : (s.clearError).pkdcap = s.pkdcap := rfl
@[simp] theorem State.clearError_freq (s : State) : (s.clearError).freq = s.freq := rfl
@[simp] theorem State.clearError_node (s : State) : (s.clearError).node = s.node := rfl
@[simp] theorem State.clearError_code (s : State) : (s.clearError).code = s.code := rfl
@[simp] theorem State.clearError_raw (s : State) : (s.clearError).raw = s.raw := rfl
@[simp] theorem State.clearError_pkd (s : State) : (s.clearError).pkd = s.pkd := rfl
@[simp] theorem State.clearError_commands (s : State) : (s.clearError).commands = s.commands := rfl
@[simp] theorem State.clearError_responses (s : State) : (s.clearError).responses = s.responses := rfl

/-! ### setTreeBuilt -/

@[simp] theorem State.setTreeBuilt_err (s : State) : (s.setTreeBuilt).err = s.err := rfl
@[simp] theorem State.setTreeBuilt_treeBuilt (s : State) : (s.setTreeBuilt).treeBuilt = true := rfl
@[simp] theorem State.setTreeBuilt_errinfo (s : State) : (s.setTreeBuilt).errinfo = s.errinfo := rfl
@[simp] theorem State.setTreeBuilt_nnodes (s : State) : (s.setTreeBuilt).nnodes = s.nnodes := rfl
@[simp] theorem State.setTreeBuilt_root (s : State) : (s.setTreeBuilt).root = s.root := rfl
@[simp] theorem State.setTreeBuilt_rawlen (s : State) : (s.setTreeBuilt).rawlen = s.rawlen := rfl
@[simp] theorem State.setTreeBuilt_pkdlen (s : State) : (s.setTreeBuilt).pkdlen = s.pkdlen := rfl
@[simp] theorem State.setTreeBuilt_symcnt (s : State) : (s.setTreeBuilt).symcnt = s.symcnt := rfl
@[simp] theorem State.setTreeBuilt_bitcnt (s : State) : (s.setTreeBuilt).bitcnt = s.bitcnt := rfl
@[simp] theorem State.setTreeBuilt_rawcap (s : State) : (s.setTreeBuilt).rawcap = s.rawcap := rfl
@[simp] theorem State.setTreeBuilt_pkdcap (s : State) : (s.setTreeBuilt).pkdcap = s.pkdcap := rfl
@[simp] theorem State.setTreeBuilt_freq (s : State) : (s.setTreeBuilt).freq = s.freq := rfl
@[simp] theorem State.setTreeBuilt_node (s : State) : (s.setTreeBuilt).node = s.node := rfl
@[simp] theorem State.setTreeBuilt_code (s : State) : (s.setTreeBuilt).code = s.code := rfl
@[simp] theorem State.setTreeBuilt_raw (s : State) : (s.setTreeBuilt).raw = s.raw := rfl
@[simp] theorem State.setTreeBuilt_pkd (s : State) : (s.setTreeBuilt).pkd = s.pkd := rfl
@[simp] theorem State.setTreeBuilt_commands (s : State) : (s.setTreeBuilt).commands = s.commands := rfl
@[simp] theorem State.setTreeBuilt_responses (s : State) : (s.setTreeBuilt).responses = s.responses := rfl

/-! ### clearTreeBuilt -/

@[simp] theorem State.clearTreeBuilt_err (s : State) : (s.clearTreeBuilt).err = s.err := rfl
@[simp] theorem State.clearTreeBuilt_treeBuilt (s : State) : (s.clearTreeBuilt).treeBuilt = false := rfl
@[simp] theorem State.clearTreeBuilt_errinfo (s : State) : (s.clearTreeBuilt).errinfo = s.errinfo := rfl
@[simp] theorem State.clearTreeBuilt_nnodes (s : State) : (s.clearTreeBuilt).nnodes = s.nnodes := rfl
@[simp] theorem State.clearTreeBuilt_root (s : State) : (s.clearTreeBuilt).root = s.root := rfl
@[simp] theorem State.clearTreeBuilt_rawlen (s : State) : (s.clearTreeBuilt).rawlen = s.rawlen := rfl
@[simp] theorem State.clearTreeBuilt_pkdlen (s : State) : (s.clearTreeBuilt).pkdlen = s.pkdlen := rfl
@[simp] theorem State.clearTreeBuilt_symcnt (s : State) : (s.clearTreeBuilt).symcnt = s.symcnt := rfl
@[simp] theorem State.clearTreeBuilt_bitcnt (s : State) : (s.clearTreeBuilt).bitcnt = s.bitcnt := rfl
@[simp] theorem State.clearTreeBuilt_rawcap (s : State) : (s.clearTreeBuilt).rawcap = s.rawcap := rfl
@[simp] theorem State.clearTreeBuilt_pkdcap (s : State) : (s.clearTreeBuilt).pkdcap = s.pkdcap := rfl
@[simp] theorem State.clearTreeBuilt_freq (s : State) : (s.clearTreeBuilt).freq = s.freq := rfl
@[simp] theorem State.clearTreeBuilt_node (s : State) : (s.clearTreeBuilt).node = s.node := rfl
@[simp] theorem State.clearTreeBuilt_code (s : State) : (s.clearTreeBuilt).code = s.code := rfl
@[simp] theorem State.clearTreeBuilt_raw (s : State) : (s.clearTreeBuilt).raw = s.raw := rfl
@[simp] theorem State.clearTreeBuilt_pkd (s : State) : (s.clearTreeBuilt).pkd = s.pkd := rfl
@[simp] theorem State.clearTreeBuilt_commands (s : State) : (s.clearTreeBuilt).commands = s.commands := rfl
@[simp] theorem State.clearTreeBuilt_responses (s : State) : (s.clearTreeBuilt).responses = s.responses := rfl

/-! ### setFreq -/

@[simp] theorem State.setFreq_err (s : State) (x : Byte) (n : BitVec 32) : (s.setFreq x n).err = s.err := rfl
@[simp] theorem State.setFreq_treeBuilt (s : State) (x : Byte) (n : BitVec 32) : (s.setFreq x n).treeBuilt = s.treeBuilt := rfl
@[simp] theorem State.setFreq_errinfo (s : State) (x : Byte) (n : BitVec 32) : (s.setFreq x n).errinfo = s.errinfo := rfl
@[simp] theorem State.setFreq_nnodes (s : State) (x : Byte) (n : BitVec 32) : (s.setFreq x n).nnodes = s.nnodes := rfl
@[simp] theorem State.setFreq_root (s : State) (x : Byte) (n : BitVec 32) : (s.setFreq x n).root = s.root := rfl
@[simp] theorem State.setFreq_rawlen (s : State) (x : Byte) (n : BitVec 32) : (s.setFreq x n).rawlen = s.rawlen := rfl
@[simp] theorem State.setFreq_pkdlen (s : State) (x : Byte) (n : BitVec 32) : (s.setFreq x n).pkdlen = s.pkdlen := rfl
@[simp] theorem State.setFreq_symcnt (s : State) (x : Byte) (n : BitVec 32) : (s.setFreq x n).symcnt = s.symcnt := rfl
@[simp] theorem State.setFreq_bitcnt (s : State) (x : Byte) (n : BitVec 32) : (s.setFreq x n).bitcnt = s.bitcnt := rfl
@[simp] theorem State.setFreq_rawcap (s : State) (x : Byte) (n : BitVec 32) : (s.setFreq x n).rawcap = s.rawcap := rfl
@[simp] theorem State.setFreq_pkdcap (s : State) (x : Byte) (n : BitVec 32) : (s.setFreq x n).pkdcap = s.pkdcap := rfl
@[simp] theorem State.setFreq_freq (s : State) (x : Byte) (n : BitVec 32) : (s.setFreq x n).freq = s.freq.set x.toNat n x.isLt := rfl
@[simp] theorem State.setFreq_node (s : State) (x : Byte) (n : BitVec 32) : (s.setFreq x n).node = s.node := rfl
@[simp] theorem State.setFreq_code (s : State) (x : Byte) (n : BitVec 32) : (s.setFreq x n).code = s.code := rfl
@[simp] theorem State.setFreq_raw (s : State) (x : Byte) (n : BitVec 32) : (s.setFreq x n).raw = s.raw := rfl
@[simp] theorem State.setFreq_pkd (s : State) (x : Byte) (n : BitVec 32) : (s.setFreq x n).pkd = s.pkd := rfl
@[simp] theorem State.setFreq_commands (s : State) (x : Byte) (n : BitVec 32) : (s.setFreq x n).commands = s.commands := rfl
@[simp] theorem State.setFreq_responses (s : State) (x : Byte) (n : BitVec 32) : (s.setFreq x n).responses = s.responses := rfl

/-! ### clearFreq -/

@[simp] theorem State.clearFreq_err (s : State) : (s.clearFreq).err = s.err := rfl
@[simp] theorem State.clearFreq_treeBuilt (s : State) : (s.clearFreq).treeBuilt = s.treeBuilt := rfl
@[simp] theorem State.clearFreq_errinfo (s : State) : (s.clearFreq).errinfo = s.errinfo := rfl
@[simp] theorem State.clearFreq_nnodes (s : State) : (s.clearFreq).nnodes = s.nnodes := rfl
@[simp] theorem State.clearFreq_root (s : State) : (s.clearFreq).root = s.root := rfl
@[simp] theorem State.clearFreq_rawlen (s : State) : (s.clearFreq).rawlen = s.rawlen := rfl
@[simp] theorem State.clearFreq_pkdlen (s : State) : (s.clearFreq).pkdlen = s.pkdlen := rfl
@[simp] theorem State.clearFreq_symcnt (s : State) : (s.clearFreq).symcnt = s.symcnt := rfl
@[simp] theorem State.clearFreq_bitcnt (s : State) : (s.clearFreq).bitcnt = s.bitcnt := rfl
@[simp] theorem State.clearFreq_rawcap (s : State) : (s.clearFreq).rawcap = s.rawcap := rfl
@[simp] theorem State.clearFreq_pkdcap (s : State) : (s.clearFreq).pkdcap = s.pkdcap := rfl
@[simp] theorem State.clearFreq_freq (s : State) : (s.clearFreq).freq = Vector.replicate 256 0#32 := rfl
@[simp] theorem State.clearFreq_node (s : State) : (s.clearFreq).node = s.node := rfl
@[simp] theorem State.clearFreq_code (s : State) : (s.clearFreq).code = s.code := rfl
@[simp] theorem State.clearFreq_raw (s : State) : (s.clearFreq).raw = s.raw := rfl
@[simp] theorem State.clearFreq_pkd (s : State) : (s.clearFreq).pkd = s.pkd := rfl
@[simp] theorem State.clearFreq_commands (s : State) : (s.clearFreq).commands = s.commands := rfl
@[simp] theorem State.clearFreq_responses (s : State) : (s.clearFreq).responses = s.responses := rfl

/-! ### setNode -/

@[simp] theorem State.setNode_err (s : State) (i : BitVec 9) (e : NodeEntry) : (s.setNode i e).err = s.err := rfl
@[simp] theorem State.setNode_treeBuilt (s : State) (i : BitVec 9) (e : NodeEntry) : (s.setNode i e).treeBuilt = s.treeBuilt := rfl
@[simp] theorem State.setNode_errinfo (s : State) (i : BitVec 9) (e : NodeEntry) : (s.setNode i e).errinfo = s.errinfo := rfl
@[simp] theorem State.setNode_nnodes (s : State) (i : BitVec 9) (e : NodeEntry) : (s.setNode i e).nnodes = s.nnodes := rfl
@[simp] theorem State.setNode_root (s : State) (i : BitVec 9) (e : NodeEntry) : (s.setNode i e).root = s.root := rfl
@[simp] theorem State.setNode_rawlen (s : State) (i : BitVec 9) (e : NodeEntry) : (s.setNode i e).rawlen = s.rawlen := rfl
@[simp] theorem State.setNode_pkdlen (s : State) (i : BitVec 9) (e : NodeEntry) : (s.setNode i e).pkdlen = s.pkdlen := rfl
@[simp] theorem State.setNode_symcnt (s : State) (i : BitVec 9) (e : NodeEntry) : (s.setNode i e).symcnt = s.symcnt := rfl
@[simp] theorem State.setNode_bitcnt (s : State) (i : BitVec 9) (e : NodeEntry) : (s.setNode i e).bitcnt = s.bitcnt := rfl
@[simp] theorem State.setNode_rawcap (s : State) (i : BitVec 9) (e : NodeEntry) : (s.setNode i e).rawcap = s.rawcap := rfl
@[simp] theorem State.setNode_pkdcap (s : State) (i : BitVec 9) (e : NodeEntry) : (s.setNode i e).pkdcap = s.pkdcap := rfl
@[simp] theorem State.setNode_freq (s : State) (i : BitVec 9) (e : NodeEntry) : (s.setNode i e).freq = s.freq := rfl
@[simp] theorem State.setNode_node (s : State) (i : BitVec 9) (e : NodeEntry) : (s.setNode i e).node = s.node.setIfInBounds i.toNat e := rfl
@[simp] theorem State.setNode_code (s : State) (i : BitVec 9) (e : NodeEntry) : (s.setNode i e).code = s.code := rfl
@[simp] theorem State.setNode_raw (s : State) (i : BitVec 9) (e : NodeEntry) : (s.setNode i e).raw = s.raw := rfl
@[simp] theorem State.setNode_pkd (s : State) (i : BitVec 9) (e : NodeEntry) : (s.setNode i e).pkd = s.pkd := rfl
@[simp] theorem State.setNode_commands (s : State) (i : BitVec 9) (e : NodeEntry) : (s.setNode i e).commands = s.commands := rfl
@[simp] theorem State.setNode_responses (s : State) (i : BitVec 9) (e : NodeEntry) : (s.setNode i e).responses = s.responses := rfl

/-! ### writeRaw -/

@[simp] theorem State.writeRaw_err (s : State) (i : Nat) (vs : List Byte) : (s.writeRaw i vs).err = s.err := rfl
@[simp] theorem State.writeRaw_treeBuilt (s : State) (i : Nat) (vs : List Byte) : (s.writeRaw i vs).treeBuilt = s.treeBuilt := rfl
@[simp] theorem State.writeRaw_errinfo (s : State) (i : Nat) (vs : List Byte) : (s.writeRaw i vs).errinfo = s.errinfo := rfl
@[simp] theorem State.writeRaw_nnodes (s : State) (i : Nat) (vs : List Byte) : (s.writeRaw i vs).nnodes = s.nnodes := rfl
@[simp] theorem State.writeRaw_root (s : State) (i : Nat) (vs : List Byte) : (s.writeRaw i vs).root = s.root := rfl
@[simp] theorem State.writeRaw_rawlen (s : State) (i : Nat) (vs : List Byte) : (s.writeRaw i vs).rawlen = s.rawlen := rfl
@[simp] theorem State.writeRaw_pkdlen (s : State) (i : Nat) (vs : List Byte) : (s.writeRaw i vs).pkdlen = s.pkdlen := rfl
@[simp] theorem State.writeRaw_symcnt (s : State) (i : Nat) (vs : List Byte) : (s.writeRaw i vs).symcnt = s.symcnt := rfl
@[simp] theorem State.writeRaw_bitcnt (s : State) (i : Nat) (vs : List Byte) : (s.writeRaw i vs).bitcnt = s.bitcnt := rfl
@[simp] theorem State.writeRaw_rawcap (s : State) (i : Nat) (vs : List Byte) : (s.writeRaw i vs).rawcap = s.rawcap := rfl
@[simp] theorem State.writeRaw_pkdcap (s : State) (i : Nat) (vs : List Byte) : (s.writeRaw i vs).pkdcap = s.pkdcap := rfl
@[simp] theorem State.writeRaw_freq (s : State) (i : Nat) (vs : List Byte) : (s.writeRaw i vs).freq = s.freq := rfl
@[simp] theorem State.writeRaw_node (s : State) (i : Nat) (vs : List Byte) : (s.writeRaw i vs).node = s.node := rfl
@[simp] theorem State.writeRaw_code (s : State) (i : Nat) (vs : List Byte) : (s.writeRaw i vs).code = s.code := rfl
@[simp] theorem State.writeRaw_raw (s : State) (i : Nat) (vs : List Byte) : (s.writeRaw i vs).raw = Memory.writeAll s.raw i vs := rfl
@[simp] theorem State.writeRaw_pkd (s : State) (i : Nat) (vs : List Byte) : (s.writeRaw i vs).pkd = s.pkd := rfl
@[simp] theorem State.writeRaw_commands (s : State) (i : Nat) (vs : List Byte) : (s.writeRaw i vs).commands = s.commands := rfl
@[simp] theorem State.writeRaw_responses (s : State) (i : Nat) (vs : List Byte) : (s.writeRaw i vs).responses = s.responses := rfl

/-! ### writePkd -/

@[simp] theorem State.writePkd_err (s : State) (i : Nat) (vs : List Byte) : (s.writePkd i vs).err = s.err := rfl
@[simp] theorem State.writePkd_treeBuilt (s : State) (i : Nat) (vs : List Byte) : (s.writePkd i vs).treeBuilt = s.treeBuilt := rfl
@[simp] theorem State.writePkd_errinfo (s : State) (i : Nat) (vs : List Byte) : (s.writePkd i vs).errinfo = s.errinfo := rfl
@[simp] theorem State.writePkd_nnodes (s : State) (i : Nat) (vs : List Byte) : (s.writePkd i vs).nnodes = s.nnodes := rfl
@[simp] theorem State.writePkd_root (s : State) (i : Nat) (vs : List Byte) : (s.writePkd i vs).root = s.root := rfl
@[simp] theorem State.writePkd_rawlen (s : State) (i : Nat) (vs : List Byte) : (s.writePkd i vs).rawlen = s.rawlen := rfl
@[simp] theorem State.writePkd_pkdlen (s : State) (i : Nat) (vs : List Byte) : (s.writePkd i vs).pkdlen = s.pkdlen := rfl
@[simp] theorem State.writePkd_symcnt (s : State) (i : Nat) (vs : List Byte) : (s.writePkd i vs).symcnt = s.symcnt := rfl
@[simp] theorem State.writePkd_bitcnt (s : State) (i : Nat) (vs : List Byte) : (s.writePkd i vs).bitcnt = s.bitcnt := rfl
@[simp] theorem State.writePkd_rawcap (s : State) (i : Nat) (vs : List Byte) : (s.writePkd i vs).rawcap = s.rawcap := rfl
@[simp] theorem State.writePkd_pkdcap (s : State) (i : Nat) (vs : List Byte) : (s.writePkd i vs).pkdcap = s.pkdcap := rfl
@[simp] theorem State.writePkd_freq (s : State) (i : Nat) (vs : List Byte) : (s.writePkd i vs).freq = s.freq := rfl
@[simp] theorem State.writePkd_node (s : State) (i : Nat) (vs : List Byte) : (s.writePkd i vs).node = s.node := rfl
@[simp] theorem State.writePkd_code (s : State) (i : Nat) (vs : List Byte) : (s.writePkd i vs).code = s.code := rfl
@[simp] theorem State.writePkd_raw (s : State) (i : Nat) (vs : List Byte) : (s.writePkd i vs).raw = s.raw := rfl
@[simp] theorem State.writePkd_pkd (s : State) (i : Nat) (vs : List Byte) : (s.writePkd i vs).pkd = Memory.writeAll s.pkd i vs := rfl
@[simp] theorem State.writePkd_commands (s : State) (i : Nat) (vs : List Byte) : (s.writePkd i vs).commands = s.commands := rfl
@[simp] theorem State.writePkd_responses (s : State) (i : Nat) (vs : List Byte) : (s.writePkd i vs).responses = s.responses := rfl

/-! ### sendFirst -/

@[simp] theorem State.sendFirst_err (s : State) (c : Word) : (s.sendFirst c).err = s.err := rfl
@[simp] theorem State.sendFirst_treeBuilt (s : State) (c : Word) : (s.sendFirst c).treeBuilt = s.treeBuilt := rfl
@[simp] theorem State.sendFirst_errinfo (s : State) (c : Word) : (s.sendFirst c).errinfo = s.errinfo := rfl
@[simp] theorem State.sendFirst_nnodes (s : State) (c : Word) : (s.sendFirst c).nnodes = s.nnodes := rfl
@[simp] theorem State.sendFirst_root (s : State) (c : Word) : (s.sendFirst c).root = s.root := rfl
@[simp] theorem State.sendFirst_rawlen (s : State) (c : Word) : (s.sendFirst c).rawlen = s.rawlen := rfl
@[simp] theorem State.sendFirst_pkdlen (s : State) (c : Word) : (s.sendFirst c).pkdlen = s.pkdlen := rfl
@[simp] theorem State.sendFirst_symcnt (s : State) (c : Word) : (s.sendFirst c).symcnt = s.symcnt := rfl
@[simp] theorem State.sendFirst_bitcnt (s : State) (c : Word) : (s.sendFirst c).bitcnt = s.bitcnt := rfl
@[simp] theorem State.sendFirst_rawcap (s : State) (c : Word) : (s.sendFirst c).rawcap = s.rawcap := rfl
@[simp] theorem State.sendFirst_pkdcap (s : State) (c : Word) : (s.sendFirst c).pkdcap = s.pkdcap := rfl
@[simp] theorem State.sendFirst_freq (s : State) (c : Word) : (s.sendFirst c).freq = s.freq := rfl
@[simp] theorem State.sendFirst_node (s : State) (c : Word) : (s.sendFirst c).node = s.node := rfl
@[simp] theorem State.sendFirst_code (s : State) (c : Word) : (s.sendFirst c).code = s.code := rfl
@[simp] theorem State.sendFirst_raw (s : State) (c : Word) : (s.sendFirst c).raw = s.raw := rfl
@[simp] theorem State.sendFirst_pkd (s : State) (c : Word) : (s.sendFirst c).pkd = s.pkd := rfl
@[simp] theorem State.sendFirst_commands (s : State) (c : Word) : (s.sendFirst c).commands = c :: s.commands := rfl
@[simp] theorem State.sendFirst_responses (s : State) (c : Word) : (s.sendFirst c).responses = s.responses := rfl

/-! ### softReset and reset -/

@[simp] theorem State.softReset_err (s : State) : s.softReset.err = .none := rfl
@[simp] theorem State.softReset_treeBuilt (s : State) : s.softReset.treeBuilt = false := rfl
@[simp] theorem State.softReset_errinfo (s : State) : s.softReset.errinfo = 0#64 := rfl
@[simp] theorem State.softReset_nnodes (s : State) : s.softReset.nnodes = 0#10 := rfl
@[simp] theorem State.softReset_root (s : State) : s.softReset.root = 0#9 := rfl
@[simp] theorem State.softReset_rawlen (s : State) : s.softReset.rawlen = 0#32 := rfl
@[simp] theorem State.softReset_pkdlen (s : State) : s.softReset.pkdlen = 0#32 := rfl
@[simp] theorem State.softReset_symcnt (s : State) : s.softReset.symcnt = 0#32 := rfl
@[simp] theorem State.softReset_bitcnt (s : State) : s.softReset.bitcnt = 0#40 := rfl
@[simp] theorem State.softReset_rawcap (s : State) : s.softReset.rawcap = s.rawcap := rfl
@[simp] theorem State.softReset_pkdcap (s : State) : s.softReset.pkdcap = s.pkdcap := rfl
@[simp] theorem State.softReset_freq (s : State) : s.softReset.freq = Vector.replicate 256 0#32 := rfl
@[simp] theorem State.softReset_node (s : State) : s.softReset.node = Vector.replicate 511 NodeEntry.zero := rfl
@[simp] theorem State.softReset_code (s : State) : s.softReset.code = Vector.replicate 256 CodeEntry.empty := rfl
@[simp] theorem State.softReset_raw (s : State) : s.softReset.raw = s.raw := rfl
@[simp] theorem State.softReset_pkd (s : State) : s.softReset.pkd = s.pkd := rfl
@[simp] theorem State.softReset_commands (s : State) : s.softReset.commands = s.commands := rfl
@[simp] theorem State.softReset_responses (s : State) : s.softReset.responses = s.responses := rfl

@[simp] theorem State.reset_err : State.reset.err = .none := rfl
@[simp] theorem State.reset_treeBuilt : State.reset.treeBuilt = false := rfl
@[simp] theorem State.reset_errinfo : State.reset.errinfo = 0#64 := rfl
@[simp] theorem State.reset_nnodes : State.reset.nnodes = 0#10 := rfl
@[simp] theorem State.reset_root : State.reset.root = 0#9 := rfl
@[simp] theorem State.reset_rawlen : State.reset.rawlen = 0#32 := rfl
@[simp] theorem State.reset_pkdlen : State.reset.pkdlen = 0#32 := rfl
@[simp] theorem State.reset_symcnt : State.reset.symcnt = 0#32 := rfl
@[simp] theorem State.reset_bitcnt : State.reset.bitcnt = 0#40 := rfl
@[simp] theorem State.reset_rawcap : State.reset.rawcap = Config.rawCap := rfl
@[simp] theorem State.reset_pkdcap : State.reset.pkdcap = Config.pkdCap := rfl
@[simp] theorem State.reset_freq : State.reset.freq = Vector.replicate 256 0#32 := rfl
@[simp] theorem State.reset_node : State.reset.node = Vector.replicate 511 NodeEntry.zero := rfl
@[simp] theorem State.reset_code : State.reset.code = Vector.replicate 256 CodeEntry.empty := rfl
@[simp] theorem State.reset_raw : State.reset.raw = [] := rfl
@[simp] theorem State.reset_pkd : State.reset.pkd = [] := rfl
@[simp] theorem State.reset_commands : State.reset.commands = [] := rfl
@[simp] theorem State.reset_responses : State.reset.responses = [] := rfl

end Sys2Proof.Machine
end

