-- ==== Sys2Proof/Laws/Bits.lean ====
section
/-! SUPPORT. The laws of bit strings: the bytes a bit string is cut into, and the CODE entry that holds one (20_memory.md R51; 10_state.md R36). -/

namespace Sys2Proof.Machine

/-- Bit 7 - t of the byte is the t-th stream bit (20_memory.md R51). -/
theorem byteOfBits_getLsbD (b : Nat → Bool) (t : Nat) (h : t < 8) :
    (byteOfBits b).getLsbD (7 - t) = b t := by
  have : t = 0 ∨ t = 1 ∨ t = 2 ∨ t = 3 ∨ t = 4 ∨ t = 5 ∨ t = 6 ∨ t = 7 := by omega
  rcases this with rfl | rfl | rfl | rfl | rfl | rfl | rfl | rfl <;>
    simp only [byteOfBits, BitVec.getLsbD_cast, BitVec.getLsbD_append, BitVec.getLsbD_ofBool] <;> simp

@[simp] theorem length_bytesOfBits (n : Nat) (bits : List Bool) :
    (bytesOfBits n bits).length = n := by
  induction n generalizing bits with
  | zero => rfl
  | succ n ih => simp [bytesOfBits, ih]

/-- Bit p of the bytes cut from a bit string is bit p of the string, zero beyond its end (43_bit_packer.md R148). -/
theorem bytesOfBits_bit (n : Nat) (bits : List Bool) (p : Nat) (h : p < 8 * n) :
    ((bytesOfBits n bits).getD (p / 8) 0#8).getLsbD (7 - p % 8) = bits.getD p false := by
  induction n generalizing bits p with
  | zero => omega
  | succ n ih =>
    by_cases hp : p < 8
    · simp only [bytesOfBits, show p / 8 = 0 by omega, List.getD_cons_zero]
      rw [byteOfBits_getLsbD _ _ (by omega), show p % 8 = p by omega]
    · have h8 : p / 8 = (p - 8) / 8 + 1 := by omega
      rw [bytesOfBits, h8, List.getD_cons_succ, show p % 8 = (p - 8) % 8 by omega,
        ih _ _ (by omega)]
      simp only [List.getD, List.getElem?_drop]
      congr 2
      omega

/-- Bit i of a left-aligned bit string, counted from BITS[255] down (10_state.md R36). -/
theorem leftAligned_getLsbD (p : List Bool) (i : Nat) (h : i < 256) :
    (leftAligned p).getLsbD (255 - i) = p.getD i false := by
  induction p generalizing i with
  | nil => simp [leftAligned]
  | cons b p ih =>
    simp only [leftAligned, BitVec.getLsbD_or, BitVec.getLsbD_cast, BitVec.getLsbD_append,
      BitVec.getLsbD_ofBool, BitVec.getLsbD_ushiftRight]
    cases i with
    | zero => simp
    | succ i =>
      rw [show 1 + (255 - (i + 1)) = 255 - i by omega, ih i (by omega)]
      rw [if_pos (by omega)]
      simp

/-- The entry of a bit string of at most 255 bits holds that bit string. -/
theorem CodeEntry.ofPath_path (p : List Bool) (h : p.length ≤ 255) :
    (CodeEntry.ofPath p).path = p := by
  have hlen : (BitVec.ofNat 8 p.length).toNat = p.length := by
    rw [BitVec.toNat_ofNat]; omega
  apply List.ext_getElem
  · simp [CodeEntry.path, CodeEntry.ofPath, hlen]
  · intro i h1 h2
    simp only [CodeEntry.path, CodeEntry.ofPath, List.getElem_map, List.getElem_range]
    rw [leftAligned_getLsbD p i (by omega)]
    simp [List.getD, List.getElem?_eq_getElem h2]

/-- The length of the bit string an entry holds is its LEN field. -/
@[simp] theorem CodeEntry.length_path (e : CodeEntry) : e.path.length = e.len.toNat := by
  simp [CodeEntry.path]

@[simp] theorem CodeEntry.path_empty : CodeEntry.empty.path = [] := by
  simp [CodeEntry.path, CodeEntry.empty]

/-- An entry holds the empty string exactly when its LEN is 0 (10_state.md R36). -/
theorem CodeEntry.path_eq_nil (e : CodeEntry) : e.path = [] ↔ e.len = 0#8 := by
  rw [← List.length_eq_zero_iff, CodeEntry.length_path]
  exact ⟨fun h => BitVec.eq_of_toNat_eq (by simpa using h), fun h => by simp [h]⟩

/-- The value of an ERRINFO word with a sub-cause (60_exceptions.md R183, R186). -/
theorem toNat_infoSub (sub : BitVec 4) (value : Nat) (h : value < 2 ^ 60) :
    (infoSub sub value).toNat = sub.toNat * 2 ^ 60 + value := by
  simp only [infoSub, BitVec.toNat_cast, BitVec.toNat_append, BitVec.toNat_ofNat,
    Nat.mod_eq_of_lt h]
  rw [← Nat.shiftLeft_add_eq_or_of_lt h, Nat.shiftLeft_eq]

/-- The value of an ERRINFO word with INDEX and SYMBOL (60_exceptions.md R182). -/
theorem toNat_infoUnknownSymbol (index : Nat) (sym : Byte) (h : index < 2 ^ 32) :
    (infoUnknownSymbol index sym).toNat = index * 2 ^ 8 + sym.toNat := by
  simp only [infoUnknownSymbol, BitVec.toNat_cast, BitVec.toNat_append, BitVec.toNat_ofNat,
    Nat.mod_eq_of_lt h]
  rw [← Nat.shiftLeft_add_eq_or_of_lt sym.isLt, Nat.shiftLeft_eq]
  simp

end Sys2Proof.Machine
end

