-- ==== Sys2Proof/Laws/Codes.lean ====
section
/-! SUPPORT. The laws of walks in a tree and of ASSIGN's traversal: in a well-formed tree walks do not branch, every leaf is reached by one path, and the traversal writes exactly the paths (42_code_assigner.md R135 to R140). -/

namespace Sys2Proof.Machine

/-! ### Walks -/

theorem State.walksTo_append {s : State} {i j : BitVec 9} {p q : List Bool} :
    s.WalksTo i (p ++ q) j ↔ ∃ m, s.WalksTo i p m ∧ s.WalksTo m q j := by
  induction p generalizing i with
  | nil => simp [State.WalksTo]
  | cons b p ih =>
    simp only [List.cons_append, State.WalksTo, ih]
    constructor
    · rintro ⟨l, r, w, hi, hc, m, h1, h2⟩
      exact ⟨m, ⟨l, r, w, hi, hc, h1⟩, h2⟩
    · rintro ⟨m, ⟨l, r, w, hi, hc, h1⟩, h2⟩
      exact ⟨l, r, w, hi, hc, m, h1, h2⟩

/-- The same bits lead to the same node. -/
theorem State.walksTo_end {s : State} {i j j' : BitVec 9} {q : List Bool}
    (h : s.WalksTo i q j) (h' : s.WalksTo i q j') : j = j' := by
  induction q generalizing i with
  | nil => exact h.symm.trans h'
  | cons b q ih =>
    obtain ⟨l, r, w, hi, -, h⟩ := h
    obtain ⟨l', r', w', hi', -, h'⟩ := h'
    rw [hi] at hi'
    obtain ⟨rfl, rfl, rfl⟩ := NodeEntry.internal.inj (Option.some.inj hi')
    exact ih h h'

/-- No walk goes on from a Leaf. -/
theorem State.walksTo_leaf {s : State} {i j : BitVec 9} {q : List Bool} {sym : Byte}
    {w : BitVec 40} (hi : s.nodeAt? i = some (.leaf sym w)) (h : s.WalksTo i q j) :
    q = [] ∧ i = j := by
  cases q with
  | nil => exact ⟨rfl, h⟩
  | cons b q =>
    obtain ⟨l, r, v, hi', -⟩ := h
    simp [hi] at hi'

/-- A walk stays below NNODES. -/
theorem State.walksTo_lt {s : State} {i j : BitVec 9} {q : List Bool} (h : s.WalksTo i q j)
    (hi : i.toNat < s.nnodes.toNat) : j.toNat < s.nnodes.toNat := by
  induction q generalizing i with
  | nil => exact h ▸ hi
  | cons b q ih =>
    obtain ⟨l, r, w, -, hc, h⟩ := h
    exact ih h hc

/-! ### Paths -/

theorem State.pathTo_leaf {s : State} {i : BitVec 9} {x y : Byte} {w : BitVec 40}
    (hi : s.nodeAt? i = some (.leaf x w)) (q : List Bool) :
    s.PathTo i q y ↔ q = [] ∧ y = x := by
  constructor
  · rintro ⟨j, v, hw, hj⟩
    obtain ⟨rfl, rfl⟩ := State.walksTo_leaf hi hw
    rw [hi] at hj
    exact ⟨rfl, (NodeEntry.leaf.inj (Option.some.inj hj)).1.symm⟩
  · rintro ⟨rfl, rfl⟩
    exact ⟨i, w, rfl, hi⟩

theorem State.pathTo_internal {s : State} {i l r : BitVec 9} {y : Byte} {w : BitVec 40}
    (hi : s.nodeAt? i = some (.internal l r w)) (q : List Bool) :
    s.PathTo i q y ↔ ∃ b q', q = b :: q' ∧ (if b then r else l).toNat < s.nnodes.toNat ∧
      s.PathTo (if b then r else l) q' y := by
  constructor
  · rintro ⟨j, v, hw, hj⟩
    cases q with
    | nil =>
      obtain rfl : i = j := hw
      simp [hi] at hj
    | cons b q =>
      obtain ⟨l', r', w', hi', hc, hw⟩ := hw
      rw [hi] at hi'
      obtain ⟨rfl, rfl, rfl⟩ := NodeEntry.internal.inj (Option.some.inj hi')
      exact ⟨b, q, rfl, hc, j, v, hw, hj⟩
  · rintro ⟨b, q', rfl, hc, j, v, hw, hj⟩
    exact ⟨j, v, ⟨l, r, w, hi, hc, hw⟩, hj⟩

/-! ### Well-formed trees -/

namespace State.TreeWellFormed

variable {s : State}

/-- An entry of the tree is a Leaf or an Internal entry with children before it. -/
theorem entry (h : s.TreeWellFormed) {i : BitVec 9} (hi : i.toNat < s.nnodes.toNat) :
    (i.toNat < s.leafCount ∧ ∃ sym w, s.nodeAt? i = some (.leaf sym w)) ∨
    (s.leafCount ≤ i.toNat ∧ ∃ l r w, s.nodeAt? i = some (.internal l r w) ∧
      l.toNat < i.toNat ∧ r.toNat < i.toNat ∧ l ≠ r) := by
  by_cases hl : i.toNat < s.leafCount
  · obtain ⟨sym, w, he⟩ := h.leaf _ hl
    exact .inl ⟨hl, sym, w, he⟩
  · obtain ⟨l, r, w, -, -, he, h1, h2, h3, -⟩ := h.internal _ (by omega) hi
    exact .inr ⟨by omega, l, r, w, he, h1, h2, h3⟩

/-- A walk from entry i has at most as many bits as there are Internal entries up to i (R140). -/
theorem walk_length (h : s.TreeWellFormed) {i j : BitVec 9} {q : List Bool}
    (hi : i.toNat < s.nnodes.toNat) (hw : s.WalksTo i q j) :
    q.length ≤ i.toNat + 1 - s.leafCount := by
  induction q generalizing i with
  | nil => simp
  | cons b q ih =>
    obtain ⟨l, r, w, hil, hc, hw⟩ := hw
    have hlen := ih hc hw
    rcases h.entry hi with ⟨-, sym, v, he⟩ | ⟨hge, l', r', w', he, h1, h2, -⟩
    · simp [hil] at he
    · rw [hil] at he
      obtain ⟨rfl, rfl, rfl⟩ := NodeEntry.internal.inj (Option.some.inj he)
      simp only [List.length_cons]
      cases b <;> simp only [Bool.false_eq_true, if_false, if_true] at hlen <;> omega

/-- Two walks from ROOT to one entry are the same. -/
theorem walk_unique (h : s.TreeWellFormed) {j : BitVec 9} {q q' : List Bool}
    (hw : s.WalksTo s.root q j) (hw' : s.WalksTo s.root q' j) : q = q' := by
  have hroot : s.root.toNat < s.nnodes.toNat := by have := h.rootLast; omega
  have noback : ∀ (p : List Bool) (b : Bool), ¬ s.WalksTo s.root (p ++ [b]) s.root := by
    intro p b hp
    obtain ⟨m, hm, l, r, w, he, hc, hlast⟩ := State.walksTo_append.mp hp
    have hmlt := State.walksTo_lt hm hroot
    refine h.rootNoParent m.toNat hmlt ⟨l, r, w, he, ?_⟩
    have hlast : (if b then r else l) = s.root := hlast
    have := h.rootLast
    cases b <;> simp only [Bool.false_eq_true, if_false, if_true] at hlast <;> subst hlast <;> omega
  induction q using List.reverseRecOn generalizing q' j with
  | nil =>
    obtain rfl : s.root = j := hw
    rcases List.eq_nil_or_concat q' with rfl | ⟨p, b, rfl⟩
    · rfl
    · rw [List.concat_eq_append] at hw'
      exact absurd hw' (noback p b)
  | append_singleton q b ih =>
    rcases List.eq_nil_or_concat q' with rfl | ⟨q', b', rfl⟩
    · obtain rfl : s.root = j := hw'
      exact absurd hw (noback q b)
    · rw [List.concat_eq_append] at hw' ⊢
      obtain ⟨m, hm, l, r, w, he, hc, hj⟩ := State.walksTo_append.mp hw
      obtain ⟨m', hm', l', r', w', he', hc', hj'⟩ := State.walksTo_append.mp hw'
      have hj : (if b then r else l) = j := hj
      have hj' : (if b' then r' else l') = j := hj'
      have hmlt := State.walksTo_lt hm hroot
      have hmlt' := State.walksTo_lt hm' hroot
      have hchild : s.childOf m.toNat j.toNat :=
        ⟨l, r, w, he, by subst hj; cases b <;> simp⟩
      have hchild' : s.childOf m'.toNat j.toNat :=
        ⟨l', r', w', he', by subst hj'; cases b' <;> simp⟩
      have hjlt := State.walksTo_lt hw hroot
      have hjnot : j.toNat + 1 < s.nnodes.toNat := by
        by_contra hlast
        have : j.toNat = s.nnodes.toNat - 1 := by omega
        exact h.rootNoParent m.toNat hmlt (this ▸ hchild)
      obtain rfl : m = m' := BitVec.eq_of_toNat_eq
        ((h.oneParent j.toNat hjnot).unique ⟨hmlt, hchild⟩ ⟨hmlt', hchild'⟩)
      obtain rfl := ih hm hm'
      rw [he] at he'
      obtain ⟨rfl, rfl, rfl⟩ := NodeEntry.internal.inj (Option.some.inj he')
      rcases h.entry hmlt with ⟨-, sym, v, hleaf⟩ | ⟨-, l', r', w', hint, -, -, hne⟩
      · simp [he] at hleaf
      · rw [he] at hint
        obtain ⟨rfl, rfl, rfl⟩ := NodeEntry.internal.inj (Option.some.inj hint)
        have : b = b' := by
          cases b <;> cases b' <;> simp_all
        rw [this]

/-- Every entry of the tree is reached from ROOT. -/
theorem walk_exists (h : s.TreeWellFormed) (j : BitVec 9) (hj : j.toNat < s.nnodes.toNat) :
    ∃ q, s.WalksTo s.root q j := by
  have hroot := h.rootLast
  induction hn : s.nnodes.toNat - j.toNat using Nat.strong_induction_on generalizing j with
  | _ n ih =>
    by_cases hlast : j.toNat + 1 = s.nnodes.toNat
    · exact ⟨[], BitVec.eq_of_toNat_eq (by omega)⟩
    · obtain ⟨k, ⟨hk, l, r, w, he, hlr⟩, -⟩ := h.oneParent j.toNat (by omega)
      have hlegal := h.legal
      have hko : (BitVec.ofNat 9 k).toNat = k := by rw [BitVec.toNat_ofNat]; omega
      have he' : s.nodeAt? (BitVec.ofNat 9 k) = some (.internal l r w) := by
        rw [State.nodeAt?, hko]; exact he
      have hjk : j.toNat < k := by
        rcases h.entry (i := BitVec.ofNat 9 k) (by omega) with ⟨-, sym, v, hl⟩ |
          ⟨-, l', r', w', hi, h1, h2, -⟩
        · simp [he'] at hl
        · rw [he'] at hi
          obtain ⟨rfl, rfl, rfl⟩ := NodeEntry.internal.inj (Option.some.inj hi)
          omega
      obtain ⟨q, hq⟩ := ih (s.nnodes.toNat - k) (by omega) (BitVec.ofNat 9 k) (by omega)
        (by rw [hko])
      rcases hlr with hl | hr
      · exact ⟨q ++ [false], State.walksTo_append.mpr ⟨_, hq, l, r, w, he', by simpa [hl] using hj,
          by simpa [State.WalksTo] using BitVec.eq_of_toNat_eq hl⟩⟩
      · exact ⟨q ++ [true], State.walksTo_append.mpr ⟨_, hq, l, r, w, he', by simpa [hr] using hj,
          by simpa [State.WalksTo] using BitVec.eq_of_toNat_eq hr⟩⟩

/-- One symbol is the symbol of one entry. -/
theorem leaf_unique (h : s.TreeWellFormed) {i j : BitVec 9} {x : Byte} {v w : BitVec 40}
    (hi : i.toNat < s.nnodes.toNat) (hj : j.toNat < s.nnodes.toNat)
    (hix : s.nodeAt? i = some (.leaf x v)) (hjx : s.nodeAt? j = some (.leaf x w)) : i = j := by
  have isLeaf : ∀ {k : BitVec 9} {u : BitVec 40}, k.toNat < s.nnodes.toNat →
      s.nodeAt? k = some (.leaf x u) → k.toNat < s.leafCount := by
    intro k u hk hkx
    rcases h.entry hk with ⟨hlt, -⟩ | ⟨-, l, r, w', he, -⟩
    · exact hlt
    · simp [hkx] at he
  have hil := isLeaf hi hix
  have hjl := isLeaf hj hjx
  rcases Nat.lt_trichotomy i.toNat j.toNat with hlt | heq | hlt
  · exact absurd (h.ascending _ _ _ _ _ _ hlt hjl hix hjx) (Nat.lt_irrefl _)
  · exact BitVec.eq_of_toNat_eq heq
  · exact absurd (h.ascending _ _ _ _ _ _ hlt hil hjx hix) (Nat.lt_irrefl _)

/-- Two paths from ROOT to one symbol are the same. -/
theorem path_unique (h : s.TreeWellFormed) {x : Byte} {q q' : List Bool}
    (hq : s.PathTo s.root q x) (hq' : s.PathTo s.root q' x) : q = q' := by
  have hroot : s.root.toNat < s.nnodes.toNat := by have := h.rootLast; omega
  obtain ⟨j, v, hw, hj⟩ := hq
  obtain ⟨j', v', hw', hj'⟩ := hq'
  obtain rfl := h.leaf_unique (State.walksTo_lt hw hroot) (State.walksTo_lt hw' hroot) hj hj'
  exact h.walk_unique hw hw'

end State.TreeWellFormed

/-! ### The traversal -/

@[simp] theorem getElem_setCode (codes : CodeTable) (x y : Byte) (p : List Bool) :
    (setCode codes x p)[y.toNat]'(y.isLt) =
      if x = y then CodeEntry.ofPath p else codes[y.toNat]'(y.isLt) := by
  simp only [setCode, Vector.getElem_set]
  by_cases h : x = y
  · simp [h]
  · rw [if_neg h, if_neg (fun e => h (BitVec.eq_of_toNat_eq e))]

/-- What the traversal from an entry of a well-formed tree writes: for each symbol with a path from there, the path so far and that path; no other code (R135, R136). -/
theorem visit_spec {s : State} (h : s.TreeWellFormed) (depth : Nat) (i : BitVec 9) (p : List Bool)
    (codes : CodeTable) (hi : i.toNat < s.nnodes.toNat)
    (hd : i.toNat + 1 ≤ depth + s.leafCount) :
    ∃ codes', visit s depth i p codes = .ok codes' ∧
      ∀ y : Byte,
        (∃ q, s.PathTo i q y ∧ codes'[y.toNat]'(y.isLt) = CodeEntry.ofPath (p ++ q)) ∨
        ((∀ q, ¬ s.PathTo i q y) ∧ codes'[y.toNat]'(y.isLt) = codes[y.toNat]'(y.isLt)) := by
  induction depth generalizing i p codes with
  | zero =>
    rcases h.entry hi with ⟨-, x, w, he⟩ | ⟨hge, -⟩
    · refine ⟨setCode codes x p, by simp only [visit, he], fun y => ?_⟩
      rw [getElem_setCode]
      by_cases hxy : x = y
      · exact .inl ⟨[], (State.pathTo_leaf he _).mpr ⟨rfl, hxy.symm⟩, by simp [hxy]⟩
      · refine .inr ⟨fun q hq => hxy ((State.pathTo_leaf he _).mp hq).2.symm, by simp [hxy]⟩
    · omega
  | succ depth ih =>
    rcases h.entry hi with ⟨-, x, w, he⟩ | ⟨hge, l, r, w, he, hl, hr, -⟩
    · refine ⟨setCode codes x p, by simp only [visit, he], fun y => ?_⟩
      rw [getElem_setCode]
      by_cases hxy : x = y
      · exact .inl ⟨[], (State.pathTo_leaf he _).mpr ⟨rfl, hxy.symm⟩, by simp [hxy]⟩
      · refine .inr ⟨fun q hq => hxy ((State.pathTo_leaf he _).mp hq).2.symm, by simp [hxy]⟩
    · obtain ⟨c1, hv1, hc1⟩ := ih l (p ++ [false]) codes (by omega) (by omega)
      obtain ⟨c2, hv2, hc2⟩ := ih r (p ++ [true]) c1 (by omega) (by omega)
      refine ⟨c2, by simp only [visit, he, hv1, hv2], fun y => ?_⟩
      rcases hc2 y with ⟨q, hq, hcode⟩ | ⟨hno2, hcode2⟩
      · exact .inl ⟨true :: q, (State.pathTo_internal he _).mpr
          ⟨true, q, rfl, by simp; omega, by simpa using hq⟩, by simpa using hcode⟩
      · rcases hc1 y with ⟨q, hq, hcode⟩ | ⟨hno1, hcode1⟩
        · exact .inl ⟨false :: q, (State.pathTo_internal he _).mpr
            ⟨false, q, rfl, by simp; omega, by simpa using hq⟩, by simpa [hcode2] using hcode⟩
        · refine .inr ⟨fun q hq => ?_, by rw [hcode2, hcode1]⟩
          obtain ⟨b, q', rfl, -, hq'⟩ := (State.pathTo_internal he _).mp hq
          cases b
          · exact hno1 q' (by simpa using hq')
          · exact hno2 q' (by simpa using hq')

/-- What ASSIGN writes for a well-formed tree: every symbol with a code in the tree has that code, every other the empty entry (R135 to R137). -/
theorem assignCodes_spec {s : State} (h : s.TreeWellFormed) :
    ∃ codes, assignCodes s = .ok codes ∧
      ∀ y : Byte,
        (∃ q, s.TreeCode q y ∧ q.length ≤ max 1 (s.leafCount - 1) ∧
          codes[y.toNat]'(y.isLt) = CodeEntry.ofPath q) ∨
        ((∀ q, ¬ s.TreeCode q y) ∧ codes[y.toNat]'(y.isLt) = CodeEntry.empty) := by
  have hroot := h.rootLast
  have hlegal := h.legal
  have hlt : s.root.toNat < s.nnodes.toNat := by omega
  rcases h.entry hlt with ⟨-, x, w, he⟩ | ⟨hge, l, r, w, he, -⟩
  · refine ⟨setCode (Vector.replicate 256 CodeEntry.empty) x [false],
      by simp only [assignCodes, he], fun y => ?_⟩
    rw [getElem_setCode]
    by_cases hxy : x = y
    · exact .inl ⟨[false], .inl ⟨rfl, w, hxy ▸ he⟩, by simp, by simp [hxy]⟩
    · refine .inr ⟨fun q hq => ?_, by simp [hxy]⟩
      rcases hq with ⟨-, v, hv⟩ | ⟨-, hq⟩
      · rw [he] at hv
        exact hxy (NodeEntry.leaf.inj (Option.some.inj hv)).1
      · exact hxy ((State.pathTo_leaf he _).mp hq).2.symm
  · obtain ⟨codes, hv, hc⟩ := visit_spec h 255 s.root [] (Vector.replicate 256 CodeEntry.empty)
      hlt (by unfold State.leafCount; omega)
    refine ⟨codes, by simp only [assignCodes, he, hv], fun y => ?_⟩
    have nonempty : ∀ q, s.PathTo s.root q y → q ≠ [] := by
      rintro q hq rfl
      obtain ⟨b, q', h', -⟩ := (State.pathTo_internal he _).mp hq
      simp at h'
    rcases hc y with ⟨q, hq, hcode⟩ | ⟨hno, hcode⟩
    · refine .inl ⟨q, .inr ⟨nonempty q hq, hq⟩, ?_, by simpa using hcode⟩
      obtain ⟨j, v, hw, -⟩ := hq
      have := h.walk_length hlt hw
      have := h.odd
      unfold State.leafCount at *
      omega
    · refine .inr ⟨fun q hq => ?_, by simpa using hcode⟩
      rcases hq with ⟨-, v, hv⟩ | ⟨-, hq⟩
      · simp [he] at hv
      · exact hno q hq

end Sys2Proof.Machine
end

