-- ==== Sys2Proof/Laws/Memory.lean ====
section
/-! SUPPORT. The laws of the byte buffers: what a read gives after a write, and that every write keeps the canonical form and stays inside the bounds its addresses keep. -/

namespace Sys2Proof.Machine

@[simp] theorem Memory.read?_write_self (m : Memory) (i : Nat) (v : Byte) :
    Memory.read? (Memory.write m i v) i = some v := by
  induction m with
  | nil => simp [Memory.write, Memory.read?]
  | cons c m ih =>
    obtain ⟨a, b⟩ := c
    simp only [Memory.write]
    split
    · simp [Memory.read?]
    · split
      · simp_all [Memory.read?]
      · have : a ≠ i := fun h => by simp_all
        simp [Memory.read?, this, ih]

theorem Memory.read?_write_other (m : Memory) (i j : Nat) (v : Byte) (h : j ≠ i) :
    Memory.read? (Memory.write m i v) j = Memory.read? m j := by
  induction m with
  | nil => simp [Memory.write, Memory.read?, h.symm]
  | cons c m ih =>
    obtain ⟨a, b⟩ := c
    simp only [Memory.write]
    split
    · simp [Memory.read?, h.symm]
    · split
      · next hia => subst hia; simp [Memory.read?, h.symm]
      · simp [Memory.read?, ih]

/-- What a write lists: the byte written, and nothing that was not listed before. -/
theorem Memory.mem_write {m : Memory} {i : Nat} {v : Byte} {c : Host.Cell}
    (h : c ∈ Memory.write m i v) : c = (i, v) ∨ c ∈ m := by
  induction m with
  | nil => simpa [Memory.write] using h
  | cons d m ih =>
    obtain ⟨a, b⟩ := d
    simp only [Memory.write] at h
    split at h
    · simpa using h
    · split at h
      · next hia =>
        subst hia
        rcases List.mem_cons.mp h with h | h
        · exact .inl h
        · exact .inr (List.mem_cons_of_mem _ h)
      · rcases List.mem_cons.mp h with h | h
        · exact .inr (h ▸ List.mem_cons_self)
        · exact (ih h).imp id (List.mem_cons_of_mem _)

/-- A write keeps the canonical form. -/
theorem Memory.wf_write {m : Memory} (h : Memory.wf m) (i : Nat) (v : Byte) :
    Memory.wf (Memory.write m i v) := by
  induction m with
  | nil => simp [Memory.write, Memory.wf]
  | cons d m ih =>
    obtain ⟨a, b⟩ := d
    obtain ⟨hd, hm⟩ := List.pairwise_cons.mp h
    simp only [Memory.write]
    split
    · next hlt =>
      refine List.pairwise_cons.mpr ⟨fun c hc => ?_, h⟩
      rcases List.mem_cons.mp hc with hc | hc
      · simpa [hc] using hlt
      · exact Nat.lt_trans hlt (hd c hc)
    · split
      · exact List.pairwise_cons.mpr ⟨hd, hm⟩
      · next hlt hne =>
        refine List.pairwise_cons.mpr ⟨fun c hc => ?_, ih hm⟩
        rcases Memory.mem_write hc with hc | hc
        · simp only [hc]; omega
        · exact hd c hc

/-- Several bytes written: the bytes at their addresses, everything else as before. -/
theorem Memory.read?_writeAll (m : Memory) (i : Nat) (vs : List Byte) (a : Nat) :
    Memory.read? (Memory.writeAll m i vs) a =
      if i ≤ a ∧ a < i + vs.length then vs[a - i]? else Memory.read? m a := by
  induction vs generalizing m i with
  | nil => simp only [Memory.writeAll, List.length_nil]; split <;> first | omega | rfl
  | cons v vs ih =>
    simp only [Memory.writeAll, ih, List.length_cons]
    by_cases hai : a = i
    · subst hai
      rw [if_neg (by omega), if_pos (by omega)]
      simp
    · by_cases hin : i + 1 ≤ a ∧ a < i + 1 + vs.length
      · rw [if_pos hin, if_pos (by omega), show a - i = (a - (i + 1)) + 1 by omega]
        simp
      · rw [if_neg hin, if_neg (by omega), Memory.read?_write_other _ _ _ _ hai]

/-- Several bytes written keep the canonical form. -/
theorem Memory.wf_writeAll {m : Memory} (h : Memory.wf m) (i : Nat) (vs : List Byte) :
    Memory.wf (Memory.writeAll m i vs) := by
  induction vs generalizing m i with
  | nil => exact h
  | cons v vs ih => exact ih (Memory.wf_write h i v) (i + 1)

/-- Several bytes written below a bound leave every listed address below it. -/
theorem Memory.inside_writeAll {m : Memory} {n : Nat} (h : ∀ c, c ∈ m → c.1 < n) (i : Nat)
    (vs : List Byte) (hn : i + vs.length ≤ n) : ∀ c, c ∈ Memory.writeAll m i vs → c.1 < n := by
  induction vs generalizing m i with
  | nil => exact h
  | cons v vs ih =>
    simp only [List.length_cons] at hn
    refine ih (fun c hc => ?_) (i + 1) (by omega)
    rcases Memory.mem_write hc with rfl | hc
    · simp only; omega
    · exact h c hc

/-- A byte of RAW after bytes are written to RAW. -/
theorem State.rawByte_writeRaw (s : State) (i : Nat) (vs : List Byte) (a : Nat) :
    (s.writeRaw i vs).rawByte a =
      if i ≤ a ∧ a < i + vs.length then vs.getD (a - i) 0#8 else s.rawByte a := by
  simp only [State.rawByte, State.writeRaw_raw, Memory.read?_writeAll]
  split
  · next h =>
    have : a - i < vs.length := by omega
    simp [List.getD, List.getElem?_eq_getElem this]
  · rfl

/-- A byte of PKD after bytes are written to PKD. -/
theorem State.pkdByte_writePkd (s : State) (i : Nat) (vs : List Byte) (a : Nat) :
    (s.writePkd i vs).pkdByte a =
      if i ≤ a ∧ a < i + vs.length then vs.getD (a - i) 0#8 else s.pkdByte a := by
  simp only [State.pkdByte, State.writePkd_pkd, Memory.read?_writeAll]
  split
  · next h =>
    have : a - i < vs.length := by omega
    simp [List.getD, List.getElem?_eq_getElem this]
  · rfl

end Sys2Proof.Machine
end

