-- ==== Sys2Proof/Laws/Commands.lean ====
section
/-! SUPPORT. The laws of how a command runs: what each kind of command answers, said once, so that no proof about a command unfolds the gating again (30_encoding.md R73; 60_exceptions.md R188, R189). -/

namespace Sys2Proof.Machine

/-- A change-class command with no error pending is its pseudocode. -/
theorem changeCommand_clear (body : State → Effect) {s : State} (h : s.err = .none) :
    changeCommand body s = settle s (body s) := by simp [changeCommand, h]

/-- A change-class command with an error pending is dropped. -/
theorem changeCommand_pending (body : State → Effect) {s : State} (h : s.err ≠ .none) :
    changeCommand body s = .next s.drop := by simp [changeCommand, h]

/-- All that a change-class command can do when it answers a next state. -/
theorem changeCommand_cases {body : State → Effect} {s t : State}
    (h : changeCommand body s = .next t) :
    (s.err ≠ .none ∧ t = s.drop) ∨
    (s.err = .none ∧ ∃ u r, body s = .done u r ∧ t = u.respond r) ∨
    (s.err = .none ∧ ∃ e info, body s = .raise e info ∧ t = s.raiseError e info) := by
  by_cases he : s.err = .none
  · rw [changeCommand_clear body he] at h
    cases hb : body s with
    | done u r =>
      rw [hb] at h
      exact .inr (.inl ⟨he, u, r, rfl, by simpa [settle] using h.symm⟩)
    | raise e info =>
      rw [hb] at h
      exact .inr (.inr ⟨he, e, info, rfl, by simpa [settle] using h.symm⟩)
    | stop f => rw [hb] at h; simp [settle] at h
  · rw [changeCommand_pending body he] at h
    exact .inl ⟨he, by simpa using h.symm⟩

/-- A change-class command stops only where its pseudocode does. -/
theorem changeCommand_next {body : State → Effect} {s : State}
    (h : ∀ f, s.err = .none → body s ≠ .stop f) : ∃ t, changeCommand body s = .next t := by
  by_cases he : s.err = .none
  · rw [changeCommand_clear body he]
    cases hb : body s with
    | done u r => exact ⟨_, rfl⟩
    | raise e info => exact ⟨_, rfl⟩
    | stop f => exact absurd hb (h f he)
  · exact ⟨_, changeCommand_pending body he⟩

/-- All that a read-class command can do. -/
theorem readCommand_cases (c : Word) (value : State → Option Word) (s : State) :
    (∃ v, value s = some v ∧ readCommand c value s = .next (s.respond v)) ∨
    (value s = none ∧ s.err = .none ∧
      readCommand c value s = .next (s.raiseError .illegalCommand c)) ∨
    (value s = none ∧ s.err ≠ .none ∧ readCommand c value s = .next s.drop) := by
  cases hv : value s with
  | some v => exact .inl ⟨v, rfl, by simp [readCommand, hv]⟩
  | none =>
    by_cases he : s.err = .none
    · exact .inr (.inl ⟨rfl, he, by simp [readCommand, hv, State.illegalWord, he]⟩)
    · exact .inr (.inr ⟨rfl, he, by simp [readCommand, hv, State.illegalWord, he]⟩)

/-- A word that may not be executed, with no error pending. -/
theorem State.illegalWord_clear {s : State} (h : s.err = .none) (c : Word) :
    s.illegalWord c = s.raiseError .illegalCommand c := by simp [State.illegalWord, h]

/-- A word that may not be executed, with an error pending. -/
theorem State.illegalWord_pending {s : State} (h : s.err ≠ .none) (c : Word) :
    s.illegalWord c = s.drop := by simp [State.illegalWord, h]

/-- All that a step can do: wait, reject the word, or execute the command it decodes to. -/
theorem step_cases (s : State) :
    (s.commands = [] ∧ step s = .next s) ∨
    (∃ c rest r, s.commands = c :: rest ∧ decode c = .error r ∧
      step s = .next (State.illegalWord { s with commands := rest } c)) ∨
    (∃ c rest i, s.commands = c :: rest ∧ decode c = .ok i ∧
      step s = exec i { s with commands := rest }) := by
  cases hc : s.commands with
  | nil => exact .inl ⟨rfl, by simp [step, takeCommand, hc]⟩
  | cons c rest =>
    cases hd : decode c with
    | error r => exact .inr (.inl ⟨c, rest, r, rfl, hd, by simp [step, takeCommand, hc, runWord, hd]⟩)
    | ok i => exact .inr (.inr ⟨c, rest, i, rfl, hd, by simp [step, takeCommand, hc, runWord, hd]⟩)

end Sys2Proof.Machine
end

