-- ==== Sys2Proof/Laws/Exec.lean ====
section
/-! SUPPORT. What each command can do, said once: the state it completes with, the errors it raises, and from these all that `exec` can answer. Proofs over all commands start from `exec_cases`. -/

namespace Sys2Proof.Machine

/-- The change-class command i, run in s with no error pending, completes with the state u before its response. -/
inductive Completes : Instr → State → State → Prop where
  | nop (s : State) : Completes .nop s s
  | clrfreq (s : State) : Completes .clrfreq s s.clearFreq
  | wrregNnodes (s : State) (reg : BitVec 8) (val : BitVec 40) (hr : reg = 3#8)
      (hv : val.toNat ≤ 511) :
      Completes (.wrreg reg val) s { s with nnodes := val.setWidth 10, treeBuilt := false }
  | wrregRoot (s : State) (reg : BitVec 8) (val : BitVec 40) (hr : reg = 4#8)
      (hv : val.toNat ≤ 511) :
      Completes (.wrreg reg val) s { s with root := val.setWidth 9, treeBuilt := false }
  | wrregRawlen (s : State) (reg : BitVec 8) (val : BitVec 40) (hr : reg = 5#8)
      (hv : val.toNat ≤ 4294967295) :
      Completes (.wrreg reg val) s { s with rawlen := val.setWidth 32 }
  | wrregPkdlen (s : State) (reg : BitVec 8) (val : BitVec 40) (hr : reg = 6#8)
      (hv : val.toNat ≤ 4294967295) :
      Completes (.wrreg reg val) s { s with pkdlen := val.setWidth 32 }
  | wrregSymcnt (s : State) (reg : BitVec 8) (val : BitVec 40) (hr : reg = 7#8)
      (hv : val.toNat ≤ 4294967295) :
      Completes (.wrreg reg val) s { s with symcnt := val.setWidth 32 }
  | wrfreq (s : State) (sym : Byte) (cnt : BitVec 32) :
      Completes (.wrfreq sym cnt) s (s.setFreq sym cnt)
  | wrnode (s : State) (idx : BitVec 9) (kind : BitVec 1) (pay : BitVec 18) (e : NodeEntry)
      (hi : idx ≠ 511#9) (he : nodeOfPayload? kind pay = some e) :
      Completes (.wrnode idx kind pay) s (s.setNode idx e).clearTreeBuilt
  | wrraw (s : State) (addr : BitVec 32) (data : Byte) (h : addr.toNat < s.rawcap.toNat) :
      Completes (.wrraw addr data) s (s.writeRaw addr.toNat [data])
  | wrpkd (s : State) (addr : BitVec 32) (data : Byte) (h : addr.toNat < s.pkdcap.toNat) :
      Completes (.wrpkd addr data) s (s.writePkd addr.toNat [data])
  | build (s : State) (h : s.leaves ≠ []) :
      Completes .build s
        { s with
          node := (buildTree s.node s.leaves).nodes
          root := BitVec.ofNat 9 ((buildTree s.node s.leaves).live.headD 0)
          nnodes := BitVec.ofNat 10 (buildTree s.node s.leaves).next
          treeBuilt := true }
  | assign (s : State) (codes : CodeTable) (hb : s.treeBuilt = true)
      (h : assignCodes s = .ok codes) : Completes .assign s { s with code := codes }
  | pack (s : State) (hr : s.rawlen.toNat ≤ s.rawcap.toNat)
      (hc : firstUncoded s 0 (s.rawBytes s.rawlen.toNat) = none)
      (hn : ceil8 (totalBits s (s.rawBytes s.rawlen.toNat)) ≤ s.pkdcap.toNat) :
      Completes .pack s
        { s.writePkd 0
            (bytesOfBits (ceil8 (totalBits s (s.rawBytes s.rawlen.toNat)))
              (codeStream s (s.rawBytes s.rawlen.toNat))) with
          pkdlen := BitVec.ofNat 32 (ceil8 (totalBits s (s.rawBytes s.rawlen.toNat)))
          bitcnt := BitVec.ofNat 40 (totalBits s (s.rawBytes s.rawlen.toNat)) }
  | unpack (s : State) (out : List Byte) (hp : s.pkdlen.toNat ≤ s.pkdcap.toNat)
      (hs : s.symcnt.toNat ≤ s.rawcap.toNat)
      (hr : s.symcnt.toNat = 0 ∨ s.root.toNat < s.nnodes.toNat)
      (h : decodeSymbols s s.symcnt.toNat 0 s.streamBits = .ok out) :
      Completes .unpack s { s.writeRaw 0 out with rawlen := s.symcnt }

/-- The change-class command i, run in s with no error pending, raises e with ERRINFO info. -/
inductive Raises : Instr → State → ErrorCode → Word → Prop where
  | wrreg (s : State) (reg : BitVec 8) (val : BitVec 40)
      (h : (regOfNumber reg).bind (fun r => s.writeReg? r val) = none) :
      Raises (.wrreg reg val) s .illegalCommand (encode (.wrreg reg val))
  | wrnode (s : State) (idx : BitVec 9) (kind : BitVec 1) (pay : BitVec 18)
      (h : idx = 511#9 ∨ nodeOfPayload? kind pay = none) :
      Raises (.wrnode idx kind pay) s .illegalCommand (encode (.wrnode idx kind pay))
  | wrraw (s : State) (addr : BitVec 32) (data : Byte) (h : s.rawcap.toNat ≤ addr.toNat) :
      Raises (.wrraw addr data) s .illegalCommand (encode (.wrraw addr data))
  | wrpkd (s : State) (addr : BitVec 32) (data : Byte) (h : s.pkdcap.toNat ≤ addr.toNat) :
      Raises (.wrpkd addr data) s .illegalCommand (encode (.wrpkd addr data))
  | build (s : State) (h : s.leaves = []) : Raises .build s .emptyInput 0#64
  | assign (s : State) (h : s.treeBuilt = false) :
      Raises .assign s .illegalCommand (encode .assign)
  | packRawlen (s : State) (h : s.rawcap.toNat < s.rawlen.toNat) :
      Raises .pack s .bufferBounds (infoSub subPackRawlen s.rawlen.toNat)
  | packSymbol (s : State) (j : Nat) (x : Byte) (hr : s.rawlen.toNat ≤ s.rawcap.toNat)
      (h : firstUncoded s 0 (s.rawBytes s.rawlen.toNat) = some (j, x)) :
      Raises .pack s .unknownSymbol (infoUnknownSymbol j x)
  | packOutput (s : State) (hr : s.rawlen.toNat ≤ s.rawcap.toNat)
      (hc : firstUncoded s 0 (s.rawBytes s.rawlen.toNat) = none)
      (hn : s.pkdcap.toNat < ceil8 (totalBits s (s.rawBytes s.rawlen.toNat))) :
      Raises .pack s .bufferBounds
        (infoSub subPackOutput (ceil8 (totalBits s (s.rawBytes s.rawlen.toNat))))
  | unpackPkdlen (s : State) (h : s.pkdcap.toNat < s.pkdlen.toNat) :
      Raises .unpack s .bufferBounds (infoSub subUnpackPkdlen s.pkdlen.toNat)
  | unpackSymcnt (s : State) (hp : s.pkdlen.toNat ≤ s.pkdcap.toNat)
      (h : s.rawcap.toNat < s.symcnt.toNat) :
      Raises .unpack s .bufferBounds (infoSub subUnpackSymcnt s.symcnt.toNat)
  | unpackRoot (s : State) (hp : s.pkdlen.toNat ≤ s.pkdcap.toNat)
      (hs : s.symcnt.toNat ≤ s.rawcap.toNat)
      (h : 0 < s.symcnt.toNat ∧ s.nnodes.toNat ≤ s.root.toNat) :
      Raises .unpack s .corruptStream (infoSub subBadRoot 0)
  | unpackStream (s : State) (sub : BitVec 4) (decoded : Nat)
      (hp : s.pkdlen.toNat ≤ s.pkdcap.toNat) (hs : s.symcnt.toNat ≤ s.rawcap.toNat)
      (hr : s.symcnt.toNat = 0 ∨ s.root.toNat < s.nnodes.toNat)
      (h : decodeSymbols s s.symcnt.toNat 0 s.streamBits = .error (corrupt sub decoded)) :
      Raises .unpack s .corruptStream (infoSub sub decoded)

/-- A walk that fails is a corrupt stream, or would read an index that is no entry. -/
theorem descend_error {s : State} {n : Nat} {l r : BitVec 9} {bits : List Bool} {e : Effect}
    (h : descend s n l r bits = .error e) :
    (∃ sub k, e = corrupt sub k) ∨ e = .stop .noSuchNode := by
  induction bits generalizing l r with
  | nil => exact .inl ⟨_, _, by simpa [descend] using h.symm⟩
  | cons b bits ih =>
    simp only [descend] at h
    generalize (if b = true then r else l) = child at h
    split at h
    · exact .inl ⟨_, _, by simpa using h.symm⟩
    · split at h
      · exact .inr (by simpa using h.symm)
      · simp at h
      · exact ih h

theorem decodeSymbol_error {s : State} {n : Nat} {bits : List Bool} {e : Effect}
    (h : decodeSymbol s n bits = .error e) :
    (∃ sub k, e = corrupt sub k) ∨ e = .stop .noSuchNode := by
  unfold decodeSymbol at h
  split at h
  · exact .inr (by simpa using h.symm)
  · split at h
    · exact .inl ⟨_, _, by simpa using h.symm⟩
    · split at h
      · exact .inl ⟨_, _, by simpa using h.symm⟩
      · simp at h
  · exact descend_error h

theorem decodeSymbols_error {s : State} {count n : Nat} {bits : List Bool} {e : Effect}
    (h : decodeSymbols s count n bits = .error e) :
    (∃ sub k, e = corrupt sub k) ∨ e = .stop .noSuchNode := by
  induction count generalizing n bits with
  | zero => simp [decodeSymbols] at h
  | succ count ih =>
    simp only [decodeSymbols] at h
    split at h
    · next hd =>
      obtain rfl := Except.error.inj h
      exact decodeSymbol_error hd
    · split at h
      · next hd =>
        obtain rfl := Except.error.inj h
        exact ih hd
      · simp at h

/-- As many symbols as were asked for. -/
theorem decodeSymbols_length {s : State} {count n : Nat} {bits : List Bool} {out : List Byte}
    (h : decodeSymbols s count n bits = .ok out) : out.length = count := by
  induction count generalizing n bits out with
  | zero =>
    obtain rfl := Except.ok.inj h
    rfl
  | succ count ih =>
    simp only [decodeSymbols] at h
    split at h
    · simp at h
    · split at h
      · simp at h
      · next hd =>
        obtain rfl := Except.ok.inj h
        simp [ih hd]

/-- All that a WRREG can do. -/
theorem wrreg_cases (s : State) (reg : BitVec 8) (val : BitVec 40) :
    (∃ u, (regOfNumber reg).bind (fun r => s.writeReg? r val) = some u ∧
      Completes (.wrreg reg val) s u) ∨
    (regOfNumber reg).bind (fun r => s.writeReg? r val) = none := by
  cases hr : regOfNumber reg with
  | none => exact .inr rfl
  | some r =>
    have num : ∀ n : Nat, reg.toNat = n → n < 256 → reg = BitVec.ofNat 8 n := fun n h hn =>
      BitVec.eq_of_toNat_eq (by rw [h, BitVec.toNat_ofNat, Nat.mod_eq_of_lt (by simpa using hn)])
    unfold regOfNumber at hr
    split at hr <;> simp only [reduceCtorEq, Option.some.injEq] at hr <;> subst hr <;>
      simp only [Option.bind_some, State.writeReg?]
    all_goals first
      | exact .inr trivial
      | (next hn =>
          split
          · exact .inr rfl
          · next hv =>
            exact .inl ⟨_, rfl, by
              first
              | exact .wrregNnodes s reg val (num 3 hn (by omega)) (by omega)
              | exact .wrregRoot s reg val (num 4 hn (by omega)) (by omega)
              | exact .wrregRawlen s reg val (num 5 hn (by omega)) (by omega)
              | exact .wrregPkdlen s reg val (num 6 hn (by omega)) (by omega)
              | exact .wrregSymcnt s reg val (num 7 hn (by omega)) (by omega)⟩)

/-- All that `exec` can answer for a change-class command: dropped, completed, raised, or stopped (ASSIGN and UNPACK only). -/
theorem exec_change_cases (i : Instr) (s : State) (hc : classOf i = .change) :
    (s.err ≠ .none ∧ exec i s = .next s.drop) ∨
    (s.err = .none ∧ ∃ u, Completes i s u ∧ exec i s = .next (u.respond 0#64)) ∨
    (s.err = .none ∧ ∃ e info, Raises i s e info ∧ exec i s = .next (s.raiseError e info)) ∨
    (s.err = .none ∧ i = .assign ∧ s.treeBuilt = true ∧
      ∃ f, assignCodes s = .error f ∧ exec i s = .fault f) ∨
    (s.err = .none ∧ i = .unpack ∧
      (s.symcnt.toNat = 0 ∨ s.root.toNat < s.nnodes.toNat) ∧
      decodeSymbols s s.symcnt.toNat 0 s.streamBits = .error (.stop .noSuchNode) ∧
      exec i s = .fault .noSuchNode) := by
  by_cases he : s.err = .none
  · refine .inr ?_
    cases i <;> simp only [classOf, reduceCtorEq] at hc
    case nop => exact .inl ⟨he, _, .nop s, by simp [exec, execNop, changeCommand, he, settle]⟩
    case clrfreq =>
      exact .inl ⟨he, _, .clrfreq s, by simp [exec, execClrfreq, changeCommand, he, settle]⟩
    case wrreg reg val =>
      rcases wrreg_cases s reg val with ⟨u, hu, h⟩ | h
      · exact .inl ⟨he, u, h,
          by simp [exec, execWrreg, changeCommand, he, hu, writeOrIllegal, settle]⟩
      · exact .inr (.inl ⟨he, _, _, .wrreg s reg val h,
          by simp [exec, execWrreg, changeCommand, he, h, writeOrIllegal, settle]⟩)
    case wrfreq sym cnt =>
      exact .inl ⟨he, _, .wrfreq s sym cnt,
        by simp [exec, execWrfreq, changeCommand, he, settle]⟩
    case wrnode idx kind pay =>
      by_cases hi : idx = 511#9
      · exact .inr (.inl ⟨he, _, _, .wrnode s idx kind pay (.inl hi),
          by simp [exec, execWrnode, changeCommand, he, hi, writeOrIllegal, settle]⟩)
      · cases hn : nodeOfPayload? kind pay with
        | none =>
          exact .inr (.inl ⟨he, _, _, .wrnode s idx kind pay (.inr hn),
            by simp [exec, execWrnode, changeCommand, he, hi, hn, writeOrIllegal, settle]⟩)
        | some e =>
          exact .inl ⟨he, _, .wrnode s idx kind pay e hi hn,
            by simp [exec, execWrnode, changeCommand, he, hi, hn, writeOrIllegal, settle]⟩
    case wrraw addr data =>
      by_cases h : addr.toNat < s.rawcap.toNat
      · exact .inl ⟨he, _, .wrraw s addr data h,
          by simp [exec, execWrraw, changeCommand, he, h, writeOrIllegal, settle]⟩
      · exact .inr (.inl ⟨he, _, _, .wrraw s addr data (by omega),
          by simp [exec, execWrraw, changeCommand, he, h, writeOrIllegal, settle]⟩)
    case wrpkd addr data =>
      by_cases h : addr.toNat < s.pkdcap.toNat
      · exact .inl ⟨he, _, .wrpkd s addr data h,
          by simp [exec, execWrpkd, changeCommand, he, h, writeOrIllegal, settle]⟩
      · exact .inr (.inl ⟨he, _, _, .wrpkd s addr data (by omega),
          by simp [exec, execWrpkd, changeCommand, he, h, writeOrIllegal, settle]⟩)
    case build =>
      simp only [exec, execBuild, changeCommand_clear _ he]
      cases hl : s.leaves with
      | nil =>
        exact .inr (.inl ⟨he, _, _, .build s hl, by simp only [buildBody, hl, settle]⟩)
      | cons l ls =>
        refine .inl ⟨he, _, .build s (by simp [hl]), ?_⟩
        simp only [buildBody, hl, settle]
        rfl
    case assign =>
      simp only [exec, execAssign, changeCommand_clear _ he, assignBody]
      cases hb : s.treeBuilt with
      | false => exact .inr (.inl ⟨he, _, _, .assign s hb, rfl⟩)
      | true =>
        cases ha : assignCodes s with
        | ok codes =>
          refine .inl ⟨he, _, .assign s codes hb ha, ?_⟩
          simp [settle, hb]
        | error f => exact .inr (.inr (.inl ⟨he, trivial, rfl, f, rfl, rfl⟩))
    case pack =>
      simp only [exec, execPack, changeCommand_clear _ he, packBody]
      split
      · next h => exact .inr (.inl ⟨he, _, _, .packRawlen s h, rfl⟩)
      · next hr =>
        split
        · next j x h => exact .inr (.inl ⟨he, _, _, .packSymbol s j x (by omega) h, rfl⟩)
        · next hc =>
          simp only [packCoded]
          split
          · next h => exact .inr (.inl ⟨he, _, _, .packOutput s (by omega) hc h, rfl⟩)
          · next h => exact .inl ⟨he, _, .pack s (by omega) hc (by omega), rfl⟩
    case unpack =>
      simp only [exec, execUnpack, changeCommand_clear _ he, unpackBody]
      split
      · next h => exact .inr (.inl ⟨he, _, _, .unpackPkdlen s h, rfl⟩)
      · next hp =>
        split
        · next h => exact .inr (.inl ⟨he, _, _, .unpackSymcnt s (by omega) h, rfl⟩)
        · next hs =>
          split
          · next h => exact .inr (.inl ⟨he, _, _, .unpackRoot s (by omega) (by omega) h, rfl⟩)
          · next hr =>
            have hr' : s.symcnt.toNat = 0 ∨ s.root.toNat < s.nnodes.toNat := by omega
            cases hd : decodeSymbols s s.symcnt.toNat 0 s.streamBits with
            | ok out => exact .inl ⟨he, _, .unpack s out (by omega) (by omega) hr' hd, rfl⟩
            | error e =>
              rcases decodeSymbols_error hd with ⟨sub, k, rfl⟩ | rfl
              · exact .inr (.inl ⟨he, _, _, .unpackStream s sub k (by omega) (by omega) hr' hd, rfl⟩)
              · exact .inr (.inr (.inr ⟨he, trivial, hr', rfl, rfl⟩))
  · refine .inl ⟨he, ?_⟩
    cases i <;> simp only [classOf, reduceCtorEq] at hc <;>
      simp [exec, execNop, execClrfreq, execWrreg, execWrfreq, execWrnode, execWrraw, execWrpkd,
        execBuild, execAssign, execPack, execUnpack, changeCommand_pending _ he]

/-- The numbers 0 to 10 name a register, the others none (10_state.md R23). -/
theorem regOfNumber_cases (reg : BitVec 8) :
    (reg.toNat ≤ 10 ∧ ∃ r, regOfNumber reg = some r) ∨
    (10 < reg.toNat ∧ regOfNumber reg = none) := by
  by_cases h : reg.toNat ≤ 10
  · have cases10 : reg.toNat = 0 ∨ reg.toNat = 1 ∨ reg.toNat = 2 ∨ reg.toNat = 3 ∨
        reg.toNat = 4 ∨ reg.toNat = 5 ∨ reg.toNat = 6 ∨ reg.toNat = 7 ∨ reg.toNat = 8 ∨
        reg.toNat = 9 ∨ reg.toNat = 10 := by omega
    rcases cases10 with h' | h' | h' | h' | h' | h' | h' | h' | h' | h' | h' <;>
      exact .inl ⟨h, by simp [regOfNumber, h']⟩
  · refine .inr ⟨by omega, ?_⟩
    unfold regOfNumber
    split <;> first | rfl | omega

/-- Every index but 511 is an entry of NODE (10_state.md R31). -/
theorem nodeAt?_cases (s : State) (idx : BitVec 9) :
    (idx ≠ 511#9 ∧ ∃ e, s.nodeAt? idx = some e) ∨ (idx = 511#9 ∧ s.nodeAt? idx = none) := by
  by_cases h : idx = 511#9
  · exact .inr ⟨h, by simp [State.nodeAt?, h]⟩
  · have hlt : idx.toNat < 511 := by
      have := idx.isLt
      have : idx.toNat ≠ 511 := fun e => h (BitVec.eq_of_toNat_eq e)
      omega
    exact .inl ⟨h, _, Vector.getElem?_eq_getElem hlt⟩

/-- All that `exec` can answer for a read-class command: its value, or with an operand out of range an illegal word. -/
theorem exec_read_cases (i : Instr) (s : State) (hc : classOf i = .read) :
    (i.wellFormed s.rawcap s.pkdcap = true ∧ ∃ v, exec i s = .next (s.respond v)) ∨
    (i.wellFormed s.rawcap s.pkdcap = false ∧ s.err = .none ∧
      exec i s = .next (s.raiseError .illegalCommand (encode i))) ∨
    (i.wellFormed s.rawcap s.pkdcap = false ∧ s.err ≠ .none ∧ exec i s = .next s.drop) := by
  have key : ∀ (c : Word) (value : State → Option Word) (wf : Bool),
      (wf = true ∧ ∃ v, value s = some v) ∨ (wf = false ∧ value s = none) →
      (wf = true ∧ ∃ v, readCommand c value s = .next (s.respond v)) ∨
      (wf = false ∧ s.err = .none ∧
        readCommand c value s = .next (s.raiseError .illegalCommand c)) ∨
      (wf = false ∧ s.err ≠ .none ∧ readCommand c value s = .next s.drop) := by
    intro c value wf h
    rcases readCommand_cases c value s with ⟨v, hv, hr⟩ | ⟨hv, he, hr⟩ | ⟨hv, he, hr⟩
    · exact .inl ⟨by simpa [hv] using h, v, hr⟩
    · exact .inr (.inl ⟨by simpa [hv] using h, he, hr⟩)
    · exact .inr (.inr ⟨by simpa [hv] using h, he, hr⟩)
  cases i <;> simp only [classOf, reduceCtorEq] at hc <;>
    simp only [exec, execRdreg, execRdfreq, execRdnode, execRdclen, execRdcbits, execRdraw,
      execRdpkd] <;> refine key _ _ _ ?_
  case rdreg reg =>
    rcases regOfNumber_cases reg with ⟨h, r, hr⟩ | ⟨h, hr⟩
    · exact .inl ⟨by simpa [Instr.wellFormed] using h, _, by rw [hr]; rfl⟩
    · exact .inr ⟨by simpa [Instr.wellFormed] using h, by rw [hr]; rfl⟩
  case rdnode idx =>
    rcases nodeAt?_cases s idx with ⟨h, e, he⟩ | ⟨h, he⟩
    · exact .inl ⟨by simpa [Instr.wellFormed] using h, _, by rw [he]; rfl⟩
    · exact .inr ⟨by simpa [Instr.wellFormed] using h, by rw [he]; rfl⟩
  case rdraw a =>
    by_cases h : a.toNat < s.rawcap.toNat
    · exact .inl ⟨by simpa [Instr.wellFormed] using h, _, if_pos h⟩
    · exact .inr ⟨by simpa [Instr.wellFormed] using h, if_neg h⟩
  case rdpkd a =>
    by_cases h : a.toNat < s.pkdcap.toNat
    · exact .inl ⟨by simpa [Instr.wellFormed] using h, _, if_pos h⟩
    · exact .inr ⟨by simpa [Instr.wellFormed] using h, if_neg h⟩
  all_goals exact .inl ⟨rfl, _, rfl⟩

/-- All that `exec` can do when it answers a next state. -/
theorem exec_cases {i : Instr} {s t : State} (h : exec i s = .next t) :
    (classOf i = .change ∧ s.err ≠ .none ∧ t = s.drop) ∨
    (classOf i = .change ∧ s.err = .none ∧ ∃ u, Completes i s u ∧ t = u.respond 0#64) ∨
    (classOf i = .change ∧ s.err = .none ∧
      ∃ e info, Raises i s e info ∧ t = s.raiseError e info) ∨
    (classOf i = .read ∧ ∃ v, t = s.respond v) ∨
    (classOf i = .read ∧ s.err = .none ∧ t = s.raiseError .illegalCommand (encode i)) ∨
    (i = .srst ∧ t = s.softReset.respond 0#64) ∨
    (i = .clrerr ∧ t = s.clearError.respond 0#64) := by
  cases hc : classOf i with
  | change =>
    rcases exec_change_cases i s hc with ⟨he, h'⟩ | ⟨he, u, hu, h'⟩ | ⟨he, e, info, hr, h'⟩ |
      ⟨_, _, _, f, _, h'⟩ | ⟨_, _, _, _, h'⟩ <;> rw [h'] at h
    · exact .inl ⟨rfl, he, by simpa using h.symm⟩
    · exact .inr (.inl ⟨rfl, he, u, hu, by simpa using h.symm⟩)
    · exact .inr (.inr (.inl ⟨rfl, he, e, info, hr, by simpa using h.symm⟩))
    · simp at h
    · simp at h
  | read =>
    rcases exec_read_cases i s hc with ⟨_, v, h'⟩ | ⟨_, he, h'⟩ | ⟨_, _, h'⟩ <;> rw [h'] at h
    · exact .inr (.inr (.inr (.inl ⟨rfl, v, by simpa using h.symm⟩)))
    · exact .inr (.inr (.inr (.inr (.inl ⟨rfl, he, by simpa using h.symm⟩))))
    · exact .inr (.inr (.inr (.inl ⟨rfl, 0#64, by simpa [State.drop] using h.symm⟩)))
  | recover =>
    cases i <;> simp only [classOf, reduceCtorEq] at hc
    · simp only [exec, execSrst, recoverCommand, Host.Outcome.next.injEq] at h
      exact .inr (.inr (.inr (.inr (.inr (.inl ⟨rfl, h.symm⟩)))))
    · simp only [exec, execClrerr, recoverCommand, Host.Outcome.next.injEq] at h
      exact .inr (.inr (.inr (.inr (.inr (.inr ⟨rfl, h.symm⟩)))))

end Sys2Proof.Machine
end

