-- ==== Sys2Proof/Laws/Tree.lean ====
section
/-! SUPPORT. The laws of BUILD's algorithm: what an extraction and a merge do, and what holds of the tree under construction after any number of merges (41_tree_builder.md R120 to R130). -/

namespace Sys2Proof.Machine

/-- Entry k of an arena is an Internal entry one of whose children is j. -/
def hasChild (nodes : Arena) (k j : Nat) : Prop :=
  ∃ l r w, nodes[k]? = some (.internal l r w) ∧ (l.toNat = j ∨ r.toNat = j)

/-- The first of two in the order of extraction, as a proposition (R122). -/
def Before (nodes : Arena) (i j : Nat) : Prop :=
  (weightAt nodes i).toNat < (weightAt nodes j).toNat ∨
    (weightAt nodes i).toNat = (weightAt nodes j).toNat ∧ i < j

theorem extractedBefore_iff (nodes : Arena) (i j : Nat) :
    extractedBefore nodes i j = true ↔ Before nodes i j := by simp [extractedBefore, Before]

theorem Before.trans {nodes : Arena} {i j k : Nat} (h : Before nodes i j) (h' : Before nodes j k) :
    Before nodes i k := by
  unfold Before at *; omega

/-- Of two different nodes one is extracted first. -/
theorem Before.of_not {nodes : Arena} {i j : Nat} (h : ¬ Before nodes i j) (hne : i ≠ j) :
    Before nodes j i := by
  unfold Before at *; omega

/-- An extraction fails only when nothing is live. -/
theorem extractLeast_none {nodes : Arena} {q : List Nat} : extractLeast nodes q = none ↔ q = [] := by
  cases q with
  | nil => simp [extractLeast]
  | cons i q =>
    simp only [extractLeast]
    split
    · simp
    · split <;> simp

/-- An extraction takes one node off, which comes before every other (R122). -/
theorem extractLeast_some {nodes : Arena} {q rest : List Nat} {m : Nat} (hq : q.Nodup)
    (h : extractLeast nodes q = some (m, rest)) :
    (m :: rest).Perm q ∧ ∀ j, j ∈ rest → Before nodes m j := by
  induction q generalizing m rest with
  | nil => simp [extractLeast] at h
  | cons i q ih =>
    obtain ⟨hi, hq⟩ := List.nodup_cons.mp hq
    simp only [extractLeast] at h
    split at h
    · next hn =>
      obtain ⟨rfl, rfl⟩ := Prod.mk.inj (Option.some.inj h)
      simp [extractLeast_none.mp hn]
    · next m' rest' hs =>
      obtain ⟨hp, hb⟩ := ih hq hs
      split at h <;> obtain ⟨rfl, rfl⟩ := Prod.mk.inj (Option.some.inj h)
      · next hlt =>
        rw [extractedBefore_iff] at hlt
        refine ⟨hp.cons i, fun j hj => ?_⟩
        rcases List.mem_cons.mp hj with rfl | hj
        · exact hlt
        · exact hlt.trans (hb j hj)
      · next hlt =>
        rw [extractedBefore_iff] at hlt
        have hne : i ≠ m' := fun e => hi (e ▸ hp.mem_iff.mp List.mem_cons_self)
        refine ⟨(List.Perm.swap i m' rest').trans (hp.cons i), fun j hj => ?_⟩
        rcases List.mem_cons.mp hj with rfl | hj
        · exact Before.of_not hlt hne
        · exact hb j hj

/-- All that a merge does: two live nodes a and b are taken off, a before b and b before every other, and become the children of a new live node (R123). -/
theorem mergeStep?_some {b c : BuildState} (hn : b.live.Nodup) (h : mergeStep? b = some c) :
    ∃ x y r, (x :: y :: r).Perm b.live ∧ Before b.nodes x y ∧
      (∀ j, j ∈ r → Before b.nodes y j) ∧ c.live = r ++ [b.next] ∧ c.next = b.next + 1 ∧
      c.nodes = b.nodes.setIfInBounds b.next
        (.internal (BitVec.ofNat 9 x) (BitVec.ofNat 9 y)
          (weightAt b.nodes x + weightAt b.nodes y)) := by
  unfold mergeStep? at h
  split at h
  · simp at h
  · next x q hx =>
    split at h
    · simp at h
    · next y r hy =>
      obtain ⟨hp, hb⟩ := extractLeast_some hn hx
      have hq : q.Nodup := (List.nodup_cons.mp (hp.nodup_iff.mpr hn)).2
      obtain ⟨hp', hb'⟩ := extractLeast_some hq hy
      obtain rfl := Option.some.inj h
      exact ⟨x, y, r, (hp'.cons x).trans hp, hb y (hp'.mem_iff.mp List.mem_cons_self), hb',
        rfl, rfl, rfl⟩

/-- No merge is left exactly when fewer than two nodes are live (R124). -/
theorem mergeStep?_none {b : BuildState} (hn : b.live.Nodup) (h : mergeStep? b = none) :
    b.live.length ≤ 1 := by
  unfold mergeStep? at h
  split at h
  · next hx => simp [extractLeast_none.mp hx]
  · next x q hx =>
    have hp := (extractLeast_some hn hx).1.length_eq
    split at h
    · next hy => rw [extractLeast_none.mp hy] at hp; simp [← hp]
    · simp at h

/-- Entry k is the merge of the two least of the nodes that were live when it was made: the entries below k that no entry below k has as a child (R122, R123). -/
structure MergedLeast (nodes : Arena) (k : Nat) : Prop where
  merged : ∃ l r w, nodes[k]? = some (.internal l r w) ∧ l.toNat < k ∧ r.toNat < k ∧ l ≠ r ∧
    w.toNat = (weightAt nodes l.toNat).toNat + (weightAt nodes r.toNat).toNat ∧
    (∀ m, m < k → ¬ hasChild nodes m l.toNat ∧ ¬ hasChild nodes m r.toNat) ∧
    Before nodes l.toNat r.toNat ∧
    ∀ j, j < k → (∀ m, m < k → ¬ hasChild nodes m j) → j ≠ l.toNat → j ≠ r.toNat →
      Before nodes r.toNat j

/-- What holds of the build after any number of merges: of the arena that was there before, of the leaves and of the build itself. -/
structure Built (base : Arena) (ls : List NodeEntry) (b : BuildState) : Prop where
  areLeaves : ∀ e, e ∈ ls → ∃ sym w, e = .leaf sym w
  count : b.next + b.live.length = 2 * ls.length
  atLeast : ls.length ≤ b.next
  below : ∀ j, j ∈ b.live → j < b.next
  nodup : b.live.Nodup
  leaves : ∀ i, i < ls.length → b.nodes[i]? = ls[i]?
  beyond : ∀ k, b.next ≤ k → b.nodes[k]? = base[k]?
  merged : ∀ k, ls.length ≤ k → k < b.next → MergedLeast b.nodes k
  live : ∀ j, j < b.next → (j ∈ b.live ↔ ∀ k, k < b.next → ¬ hasChild b.nodes k j)
  oneParent : ∀ j k k', k < b.next → k' < b.next → hasChild b.nodes k j → hasChild b.nodes k' j →
    k = k'
  sum : (b.live.map (fun i => (weightAt b.nodes i).toNat)).sum =
    (ls.map (fun e => e.weight.toNat)).sum
  bounded : ∀ k, k < b.next →
    (weightAt b.nodes k).toNat ≤ (ls.map (fun e => e.weight.toNat)).sum

theorem getElem?_setIfInBounds_ne {nodes : Arena} {i k : Nat} (e : NodeEntry) (h : k ≠ i) :
    (nodes.setIfInBounds i e)[k]? = nodes[k]? := by
  rw [Vector.getElem?_setIfInBounds_ne h.symm]

theorem hasChild_set {nodes : Arena} {i k j : Nat} (e : NodeEntry) (h : k ≠ i) :
    hasChild (nodes.setIfInBounds i e) k j ↔ hasChild nodes k j := by
  simp only [hasChild, getElem?_setIfInBounds_ne e h]

theorem weightAt_set {nodes : Arena} {i k : Nat} (e : NodeEntry) (h : k ≠ i) :
    weightAt (nodes.setIfInBounds i e) k = weightAt nodes k := by
  simp only [weightAt, getElem?_setIfInBounds_ne e h]

theorem before_set {nodes : Arena} {i j k : Nat} (e : NodeEntry) (hj : j ≠ i) (hk : k ≠ i) :
    Before (nodes.setIfInBounds i e) j k ↔ Before nodes j k := by
  simp only [Before, weightAt_set e hj, weightAt_set e hk]

/-- Writing an entry above k leaves what is known of k. -/
theorem MergedLeast.set {nodes : Arena} {k i : Nat} (e : NodeEntry) (h : MergedLeast nodes k)
    (hk : k < i) : MergedLeast (nodes.setIfInBounds i e) k := by
  obtain ⟨l, r, w, hn, hl, hr, hne, hw, hc, hb, hleast⟩ := h.merged
  refine ⟨l, r, w, by rw [getElem?_setIfInBounds_ne e (by omega), hn], hl, hr, hne, ?_, ?_, ?_, ?_⟩
  · rw [weightAt_set e (by omega), weightAt_set e (by omega), hw]
  · intro m hm
    rw [hasChild_set e (by omega), hasChild_set e (by omega)]
    exact hc m hm
  · exact (before_set e (by omega) (by omega)).mpr hb
  · intro j hj hp hjl hjr
    refine (before_set e (by omega) (by omega)).mpr (hleast j hj (fun m hm => ?_) hjl hjr)
    have := hp m hm
    rwa [hasChild_set e (by omega)] at this

/-- A child lies below its parent. -/
theorem Built.child_lt {base : Arena} {ls : List NodeEntry} {b : BuildState}
    (h : Built base ls b) {k j : Nat} (hk : k < b.next) (hc : hasChild b.nodes k j) : j < k := by
  obtain ⟨l, r, w, hkl, hlr⟩ := hc
  by_cases hkn : ls.length ≤ k
  · obtain ⟨l', r', w', hk', hl', hr', -⟩ := (h.merged k hkn hk).merged
    rw [hkl] at hk'
    obtain ⟨rfl, rfl, rfl⟩ := NodeEntry.internal.inj (Option.some.inj hk')
    omega
  · rw [h.leaves k (by omega), List.getElem?_eq_getElem (by omega)] at hkl
    obtain ⟨sym, v, he⟩ := h.areLeaves _ (List.getElem_mem (by omega : k < ls.length))
    simp [he] at hkl

/-- A merge keeps all of it. -/
theorem Built.step {base : Arena} {ls : List NodeEntry} {b c : BuildState}
    (h : Built base ls b) (hlen : ls.length ≤ 256)
    (htot : (ls.map (fun e => e.weight.toNat)).sum < 2 ^ 40) (hm : mergeStep? b = some c) :
    Built base ls c := by
  obtain ⟨x, y, r, hp, hxy, hyr, hlive, hnext, hnodes⟩ := mergeStep?_some h.nodup hm
  have hnd := hp.nodup_iff.mpr h.nodup
  simp only [List.nodup_cons, List.mem_cons, not_or] at hnd
  obtain ⟨⟨hxney, hxr⟩, hyr', hrnd⟩ := hnd
  have hcard := hp.length_eq
  simp only [List.length_cons] at hcard
  have hcount := h.count
  have hx : x ∈ b.live := hp.mem_iff.mp (by simp)
  have hy : y ∈ b.live := hp.mem_iff.mp (by simp)
  have hxlt := h.below x hx
  have hylt := h.below y hy
  have hxo : (BitVec.ofNat 9 x).toNat = x := by rw [BitVec.toNat_ofNat]; omega
  have hyo : (BitVec.ofNat 9 y).toNat = y := by rw [BitVec.toNat_ofNat]; omega
  have hsum := h.sum
  rw [← (hp.map (fun i => (weightAt b.nodes i).toNat)).sum_eq] at hsum
  simp only [List.map_cons, List.sum_cons] at hsum
  have hw : (weightAt b.nodes x + weightAt b.nodes y).toNat =
      (weightAt b.nodes x).toNat + (weightAt b.nodes y).toNat := by
    rw [BitVec.toNat_add]
    omega
  obtain ⟨cn, cl, ck⟩ := c
  simp only at hlive hnext hnodes
  subst hlive hnext hnodes
  have hself : (b.nodes.setIfInBounds b.next
      (.internal (BitVec.ofNat 9 x) (BitVec.ofNat 9 y)
        (weightAt b.nodes x + weightAt b.nodes y)))[b.next]? =
      some (.internal (BitVec.ofNat 9 x) (BitVec.ofNat 9 y)
        (weightAt b.nodes x + weightAt b.nodes y)) := by
    rw [Vector.getElem?_setIfInBounds_self]
    rw [if_pos (by omega)]
  generalize he : NodeEntry.internal (BitVec.ofNat 9 x) (BitVec.ofNat 9 y)
    (weightAt b.nodes x + weightAt b.nodes y) = e at hself ⊢
  have hnew : weightAt (b.nodes.setIfInBounds b.next e) b.next =
      weightAt b.nodes x + weightAt b.nodes y := by
    rw [weightAt, hself, ← he]
    rfl
  have hchild : ∀ j, hasChild (b.nodes.setIfInBounds b.next e) b.next j ↔ x = j ∨ y = j := by
    intro j
    unfold hasChild
    rw [hself, ← he]
    constructor
    · rintro ⟨l, r, w, heq, hj⟩
      obtain ⟨rfl, rfl, rfl⟩ := NodeEntry.internal.inj (Option.some.inj heq)
      rwa [hxo, hyo] at hj
    · intro hj
      exact ⟨_, _, _, rfl, by rwa [hxo, hyo]⟩
  have hnox : ∀ k, k < b.next → ¬ hasChild b.nodes k x := (h.live x hxlt).mp hx
  have hnoy : ∀ k, k < b.next → ¬ hasChild b.nodes k y := (h.live y hylt).mp hy
  constructor
  · exact h.areLeaves
  · simp only [List.length_append, List.length_singleton]; omega
  · have := h.atLeast; simp only; omega
  · intro j hj
    simp only [List.mem_append, List.mem_singleton] at hj
    rcases hj with hj | rfl
    · have := h.below j (hp.mem_iff.mp (by simp [hj])); simp only; omega
    · simp only; omega
  · simp only
    refine List.nodup_append.mpr ⟨hrnd, by simp, ?_⟩
    intro a ha b' hb' hab
    simp only [List.mem_singleton] at hb'
    have := h.below a (hp.mem_iff.mp (by simp [ha]))
    omega
  · intro i hi
    have := h.atLeast
    simp only
    rw [getElem?_setIfInBounds_ne e (by omega)]
    exact h.leaves i hi
  · intro k hk
    simp only at hk ⊢
    rw [getElem?_setIfInBounds_ne e (by omega)]
    exact h.beyond k (by omega)
  · intro k hk hk'
    simp only at hk' ⊢
    by_cases hkn : k = b.next
    · subst hkn
      refine ⟨_, _, _, by rw [hself, ← he], ?_, ?_, ?_, ?_, ?_, ?_, ?_⟩
      · rw [hxo]; exact hxlt
      · rw [hyo]; exact hylt
      · intro h'
        exact hxney (by rw [← hxo, ← hyo, h'])
      · rw [hxo, hyo, weightAt_set e (by omega), weightAt_set e (by omega)]; exact hw
      · intro m hm'
        rw [hxo, hyo, hasChild_set e (by omega), hasChild_set e (by omega)]
        exact ⟨hnox m hm', hnoy m hm'⟩
      · rw [hxo, hyo]
        exact (before_set e (by omega) (by omega)).mpr hxy
      · intro j hj hpar hjx hjy
        rw [hxo] at hjx
        rw [hyo] at hjy ⊢
        refine (before_set e (by omega) (by omega)).mpr (hyr j ?_)
        have hjl : j ∈ b.live := (h.live j hj).mpr (fun m hm' => by
          have := hpar m hm'
          rwa [hasChild_set e (by omega)] at this)
        have := hp.mem_iff.mpr hjl
        simp only [List.mem_cons] at this
        rcases this with h' | h' | h'
        · exact absurd h' hjx
        · exact absurd h' hjy
        · exact h'
    · exact (h.merged k hk (by omega)).set e (by omega)
  · intro j hj
    simp only at hj ⊢
    by_cases hjn : j = b.next
    · subst hjn
      refine ⟨fun _ k hk => ?_, fun _ => by simp⟩
      by_cases hkn : k = b.next
      · subst hkn
        rw [hchild]
        omega
      · rw [hasChild_set e hkn]
        intro hc
        have := h.child_lt (by omega) hc
        omega
    · simp only [List.mem_append, List.mem_singleton, hjn, or_false]
      have hjlt : j < b.next := by omega
      constructor
      · intro hjr k hk
        by_cases hkn : k = b.next
        · subst hkn
          rw [hchild]
          rintro (rfl | rfl)
          · exact hxr hjr
          · exact hyr' hjr
        · rw [hasChild_set e hkn]
          exact (h.live j hjlt).mp (hp.mem_iff.mp (by simp [hjr])) k (by omega)
      · intro hpar
        have hjl : j ∈ b.live := (h.live j hjlt).mpr (fun k hk => by
          have := hpar k (by omega)
          rwa [hasChild_set e (by omega)] at this)
        have hjn' := hpar b.next (by omega)
        rw [hchild] at hjn'
        have := hp.mem_iff.mpr hjl
        simp only [List.mem_cons] at this
        rcases this with rfl | rfl | h'
        · exact absurd (.inl rfl) hjn'
        · exact absurd (.inr rfl) hjn'
        · exact h'
  · intro j k k' hk hk' hc hc'
    simp only at hk hk' hc hc'
    by_cases hkn : k = b.next <;> by_cases hkn' : k' = b.next
    · omega
    · subst hkn
      rw [hchild] at hc
      rw [hasChild_set e hkn'] at hc'
      rcases hc with rfl | rfl
      · exact absurd hc' (hnox k' (by omega))
      · exact absurd hc' (hnoy k' (by omega))
    · subst hkn'
      rw [hchild] at hc'
      rw [hasChild_set e hkn] at hc
      rcases hc' with rfl | rfl
      · exact absurd hc (hnox k (by omega))
      · exact absurd hc (hnoy k (by omega))
    · rw [hasChild_set e hkn] at hc
      rw [hasChild_set e hkn'] at hc'
      exact h.oneParent j k k' (by omega) (by omega) hc hc'
  · simp only [List.map_append, List.sum_append, List.map_cons, List.map_nil, List.sum_cons,
      List.sum_nil, hnew, hw]
    rw [List.map_congr_left (g := fun i => (weightAt b.nodes i).toNat) (fun i hi => by
      have := h.below i (hp.mem_iff.mp (by simp [hi]))
      rw [weightAt_set e (by omega)])]
    omega
  · intro k hk
    simp only at hk ⊢
    by_cases hkn : k = b.next
    · rw [hkn, hnew, hw]
      omega
    · rw [weightAt_set e hkn]
      exact h.bounded k (by omega)

/-- Merging to the end keeps all of it, and leaves one live node (R124). -/
theorem Built.mergeAll {base : Arena} {ls : List NodeEntry} {b : BuildState} {rounds : Nat}
    (h : Built base ls b) (hlen : ls.length ≤ 256)
    (htot : (ls.map (fun e => e.weight.toNat)).sum < 2 ^ 40) (hpos : 0 < b.live.length)
    (hr : b.live.length ≤ rounds) :
    Built base ls (Sys2Proof.Machine.mergeAll rounds b) ∧
      (Sys2Proof.Machine.mergeAll rounds b).live.length = 1 := by
  induction rounds generalizing b with
  | zero => omega
  | succ rounds ih =>
    simp only [Sys2Proof.Machine.mergeAll]
    split
    · next hm => exact ⟨h, by have := mergeStep?_none h.nodup hm; omega⟩
    · next c hm =>
      obtain ⟨x, y, r, hp, -, -, hlive, -, -⟩ := mergeStep?_some h.nodup hm
      have hcard := hp.length_eq
      simp only [List.length_cons] at hcard
      exact ih (h.step hlen htot hm) (by simp [hlive]) (by simp [hlive]; omega)

/-- Entries stored one after another, where there is room. -/
theorem getElem?_storeNodes (nodes : Arena) (i : Nat) (es : List NodeEntry) (k : Nat)
    (h : i + es.length ≤ 511) :
    (storeNodes nodes i es)[k]? =
      if i ≤ k ∧ k < i + es.length then es[k - i]? else nodes[k]? := by
  induction es generalizing nodes i with
  | nil => simp only [storeNodes, List.length_nil]; rw [if_neg (by omega)]
  | cons e es ih =>
    simp only [List.length_cons] at h
    simp only [storeNodes, List.length_cons]
    rw [ih _ _ (by omega)]
    by_cases hki : k = i
    · subst hki
      rw [if_neg (by omega), if_pos (by omega), Vector.getElem?_setIfInBounds_self,
        if_pos (by omega)]
      simp
    · by_cases hin : i + 1 ≤ k ∧ k < i + 1 + es.length
      · rw [if_pos hin, if_pos (by omega), show k - i = (k - (i + 1)) + 1 by omega]
        simp
      · rw [if_neg hin, if_neg (by omega), getElem?_setIfInBounds_ne e hki]

/-- What holds of the finished tree, and that one node is live: the last one made. -/
theorem buildTree_spec (base : Arena) (ls : List NodeEntry) (hpos : 0 < ls.length)
    (hlen : ls.length ≤ 256) (hleaf : ∀ e, e ∈ ls → ∃ sym w, e = .leaf sym w)
    (htot : (ls.map (fun e => e.weight.toNat)).sum < 2 ^ 40) :
    Built base ls (buildTree base ls) ∧ (buildTree base ls).next = 2 * ls.length - 1 ∧
      (buildTree base ls).live = [2 * ls.length - 2] := by
  have hstore : ∀ k, (storeNodes base 0 ls)[k]? = if k < ls.length then ls[k]? else base[k]? := by
    intro k
    rw [getElem?_storeNodes base 0 ls k (by omega)]
    simp
  have hweight : ∀ k (hk : k < ls.length), weightAt (storeNodes base 0 ls) k = ls[k].weight := by
    intro k hk
    rw [weightAt, hstore, if_pos hk, List.getElem?_eq_getElem hk]
    rfl
  have hnone : ∀ k, k < ls.length → ∀ j, ¬ hasChild (storeNodes base 0 ls) k j := by
    rintro k hk j ⟨l, r, w, hkl, -⟩
    rw [hstore, if_pos hk, List.getElem?_eq_getElem hk] at hkl
    obtain ⟨sym, v, he⟩ := hleaf _ (List.getElem_mem hk)
    simp [he] at hkl
  have hmap : (List.range ls.length).map (fun i => (weightAt (storeNodes base 0 ls) i).toNat) =
      ls.map (fun e => e.weight.toNat) := by
    apply List.ext_getElem
    · simp
    · intro i h1 h2
      simp only [List.length_map, List.length_range] at h1
      simp [hweight i h1]
  have hstart : Built base ls
      { nodes := storeNodes base 0 ls, live := List.range ls.length, next := ls.length } := by
    refine ⟨hleaf, ?_, Nat.le_refl _, ?_, List.nodup_range, ?_, ?_, ?_, ?_, ?_, by rw [hmap], ?_⟩
    · simp only [List.length_range]; omega
    · simp
    · intro i hi; simp only; rw [hstore, if_pos hi]
    · intro k hk; simp only at hk ⊢; rw [hstore, if_neg (by omega)]
    · intro k hk hk'; simp only at hk'; omega
    · intro j hj
      simp only at hj ⊢
      exact ⟨fun _ k hk => hnone k hk j, fun _ => by simpa using hj⟩
    · intro j k k' hk _ hc; exact absurd hc (hnone k hk j)
    · intro k hk
      simp only at hk ⊢
      rw [hweight k hk]
      exact List.le_sum_of_mem (List.mem_map_of_mem (f := fun e => e.weight.toNat) (List.getElem_mem hk))
  obtain ⟨hb, hone⟩ := hstart.mergeAll (rounds := ls.length) hlen htot (by simpa using hpos)
    (by simp)
  have hcount := hb.count
  have hnext : (buildTree base ls).next = 2 * ls.length - 1 := by
    have : (buildTree base ls).next = 2 * ls.length - 1 := by
      unfold buildTree
      omega
    exact this
  refine ⟨hb, hnext, ?_⟩
  have hl := (hb.live (2 * ls.length - 2) (by unfold buildTree at hnext; omega)).mpr (by
    intro k hk hc
    have := hb.child_lt hk hc
    unfold buildTree at hnext
    omega)
  obtain ⟨m, hm⟩ := List.length_eq_one_iff.mp hone
  rw [hm] at hl
  unfold buildTree
  rw [hm, List.mem_singleton.mp hl]

/-! ### The keys and the leaves -/

/-- The keys are the symbols with a count (R121). -/
theorem State.mem_keys (s : State) (x : Byte) : x ∈ s.keys ↔ s.freqAt x ≠ 0#32 := by
  simp only [State.keys, List.mem_filter, List.mem_map, List.mem_range, decide_eq_true_eq]
  refine ⟨fun h => h.2, fun h => ⟨⟨x.toNat, x.isLt, ?_⟩, h⟩⟩
  simp

/-- The keys are listed in ascending order, each once (R121). -/
theorem State.keys_ascending (s : State) :
    s.keys.Pairwise (fun x y => x.toNat < y.toNat) := by
  refine List.Pairwise.filter _ (List.pairwise_map.mpr (List.pairwise_lt_range.imp_of_mem ?_))
  intro a b ha hb hab
  simp only [List.mem_range] at ha hb
  rw [BitVec.toNat_ofNat, BitVec.toNat_ofNat]
  omega

theorem State.length_keys_le (s : State) : s.keys.length ≤ 256 := by
  refine Nat.le_trans (List.length_filter_le _ _) ?_
  simp

@[simp] theorem State.length_leaves (s : State) : s.leaves.length = s.keys.length := by
  simp [State.leaves]

theorem State.leaves_are (s : State) : ∀ e, e ∈ s.leaves → ∃ sym w, e = .leaf sym w := by
  intro e he
  obtain ⟨x, _, rfl⟩ := List.mem_map.mp he
  exact ⟨_, _, rfl⟩

/-- The weights of the leaves are the counts of the keys, exactly (R127). -/
theorem State.leaves_weights (s : State) :
    s.leaves.map (fun e => e.weight.toNat) = s.keys.map (fun x => (s.freqAt x).toNat) := by
  simp only [State.leaves, List.map_map]
  refine List.map_congr_left (fun x _ => ?_)
  simp only [Function.comp_apply, NodeEntry.weight, BitVec.toNat_setWidth]
  have := (s.freqAt x).isLt
  omega

/-- The counts add up to less than a weight holds (R127). -/
theorem State.counts_le (s : State) :
    (s.keys.map (fun x => (s.freqAt x).toNat)).sum ≤ 256 * (2 ^ 32 - 1) := by
  refine Nat.le_trans (List.sum_le_card_nsmul _ (2 ^ 32 - 1) ?_) ?_
  · intro c hc
    obtain ⟨x, _, rfl⟩ := List.mem_map.mp hc
    have := (s.freqAt x).isLt
    omega
  · have := s.length_keys_le
    simp only [List.length_map, smul_eq_mul]
    omega

/-- There is a leaf exactly when some symbol has a count (R126). -/
theorem State.leaves_eq_nil (s : State) : s.leaves = [] ↔ ∀ x, s.freqAt x = 0#32 := by
  rw [← List.length_eq_zero_iff, s.length_leaves, List.length_eq_zero_iff,
    List.eq_nil_iff_forall_not_mem]
  exact forall_congr' fun x => by rw [s.mem_keys, not_not]

/-- What holds of the tree BUILD writes (R120 to R129). -/
theorem State.built (s : State) (h : s.leaves ≠ []) :
    Built s.node s.leaves (buildTree s.node s.leaves) ∧
      (buildTree s.node s.leaves).next = 2 * s.keys.length - 1 ∧
      (buildTree s.node s.leaves).live = [2 * s.keys.length - 2] := by
  have hlen := s.length_keys_le
  have := buildTree_spec s.node s.leaves (List.length_pos_iff.mpr h)
    (by simpa using s.length_keys_le) s.leaves_are
    (by rw [s.leaves_weights]; have := s.counts_le; omega)
  rwa [s.length_leaves] at this

end Sys2Proof.Machine
end

