-- ==== Sys2Proof/Laws/Optimal.lean ====
section
/-! SUPPORT. What 41_tree_builder.md R130 rests on: the Kraft inequality, that the two least weights may always be merged, and what both say of the tree under construction. A code is represented by pairs of a weight and a code length. -/

namespace Sys2Proof.Laws

/-- The Kraft sum of the lengths, scaled by 2^M. -/
def kraftSum (M : Nat) (ps : List (Nat × Nat)) : Nat := (ps.map (fun p => 2 ^ (M - p.2))).sum

/-- The weighted length. -/
def cost (ps : List (Nat × Nat)) : Nat := (ps.map (fun p => p.1 * p.2)).sum

@[simp] theorem kraftSum_nil (M : Nat) : kraftSum M [] = 0 := rfl

@[simp] theorem kraftSum_cons (M : Nat) (p : Nat × Nat) (ps : List (Nat × Nat)) :
    kraftSum M (p :: ps) = 2 ^ (M - p.2) + kraftSum M ps := by simp [kraftSum]

@[simp] theorem cost_nil : cost [] = 0 := rfl

@[simp] theorem cost_cons (p : Nat × Nat) (ps : List (Nat × Nat)) :
    cost (p :: ps) = p.1 * p.2 + cost ps := by simp [cost]

/-- What follows a first bit `b`. -/
def tailAfter (b : Bool) : List Bool → Option (List Bool)
  | [] => none
  | c :: t => if c = b then some t else none

theorem tailAfter_some {b : Bool} {c t : List Bool} (h : tailAfter b c = some t) : c = b :: t := by
  cases c with
  | nil => simp [tailAfter] at h
  | cons d c =>
    simp only [tailAfter] at h
    split at h
    · next hd => rw [hd, Option.some.inj h]
    · simp at h

theorem sum_split (g : List Bool → Nat) (cs : List (List Bool)) (h : [] ∉ cs) :
    (cs.map g).sum = ((cs.filterMap (tailAfter false)).map (fun t => g (false :: t))).sum +
      ((cs.filterMap (tailAfter true)).map (fun t => g (true :: t))).sum := by
  induction cs with
  | nil => rfl
  | cons c cs ih =>
    simp only [List.mem_cons, not_or] at h
    cases c with
    | nil => exact absurd rfl h.1
    | cons b c =>
      have := ih h.2
      cases b <;> simp [tailAfter, this] <;> omega

/-- The Kraft inequality: code words of at most M bits, none a prefix of another. -/
theorem kraft_le (M : Nat) (cs : List (List Bool)) (hlen : ∀ c, c ∈ cs → c.length ≤ M)
    (hfree : cs.Pairwise (fun c d => ¬ c <+: d ∧ ¬ d <+: c)) :
    (cs.map (fun c => 2 ^ (M - c.length))).sum ≤ 2 ^ M := by
  by_cases hnil : [] ∈ cs
  · obtain ⟨l, r, rfl⟩ := List.append_of_mem hnil
    obtain ⟨-, hr, hlr⟩ := List.pairwise_append.mp hfree
    have hl : l = [] := List.eq_nil_iff_forall_not_mem.mpr
      (fun c hc => (hlr c hc [] List.mem_cons_self).2 List.nil_prefix)
    have hr : r = [] := List.eq_nil_iff_forall_not_mem.mpr
      (fun c hc => ((List.pairwise_cons.mp hr).1 c hc).1 List.nil_prefix)
    simp [hl, hr]
  · induction M generalizing cs with
    | zero =>
      have : cs = [] := List.eq_nil_iff_forall_not_mem.mpr (fun c hc => hnil (by
        obtain rfl : c = [] := List.length_eq_zero_iff.mp (Nat.le_zero.mp (hlen c hc))
        exact hc))
      simp [this]
    | succ M ih =>
      have half : ∀ b : Bool, ((cs.filterMap (tailAfter b)).map
          (fun t => 2 ^ (M + 1 - (b :: t).length))).sum ≤ 2 ^ M := by
        intro b
        have hlen' : ∀ t, t ∈ cs.filterMap (tailAfter b) → t.length ≤ M := by
          intro t ht
          obtain ⟨c, hc, hct⟩ := List.mem_filterMap.mp ht
          have := hlen c hc
          rw [tailAfter_some hct, List.length_cons] at this
          omega
        have hfree' : (cs.filterMap (tailAfter b)).Pairwise
            (fun c d => ¬ c <+: d ∧ ¬ d <+: c) := by
          refine hfree.filterMap _ (fun c d hcd t ht u hu => ?_)
          rw [tailAfter_some ht, tailAfter_some hu] at hcd
          simpa [List.cons_prefix_cons] using hcd
        have hsum : ((cs.filterMap (tailAfter b)).map
            (fun t => 2 ^ (M + 1 - (b :: t).length))) =
            (cs.filterMap (tailAfter b)).map (fun t => 2 ^ (M - t.length)) :=
          List.map_congr_left (fun t _ => by rw [List.length_cons]; congr 1; omega)
        rw [hsum]
        by_cases hnil' : [] ∈ cs.filterMap (tailAfter b)
        · obtain ⟨l, r, hlr⟩ := List.append_of_mem hnil'
          rw [hlr] at hfree'
          obtain ⟨-, hr, hl⟩ := List.pairwise_append.mp hfree'
          have hl : l = [] := List.eq_nil_iff_forall_not_mem.mpr
            (fun c hc => (hl c hc [] List.mem_cons_self).2 List.nil_prefix)
          have hr : r = [] := List.eq_nil_iff_forall_not_mem.mpr
            (fun c hc => ((List.pairwise_cons.mp hr).1 c hc).1 List.nil_prefix)
          simp [hlr, hl, hr]
        · exact ih _ hlen' hfree' hnil'
      rw [sum_split _ cs hnil]
      have := half false
      have := half true
      rw [Nat.pow_succ]
      omega

/-- The least weight may take the greatest length: the lengths are the same up to their order, and the weighted length does not grow. -/
theorem raise_least (a la : Nat) (ps : List (Nat × Nat)) (h : ∀ p, p ∈ ps → a ≤ p.1) :
    ∃ l qs, qs.map Prod.fst = ps.map Prod.fst ∧ la ≤ l ∧ (∀ q, q ∈ qs → q.2 ≤ l) ∧
      (∀ M, kraftSum M ((a, l) :: qs) = kraftSum M ((a, la) :: ps)) ∧
      cost ((a, l) :: qs) ≤ cost ((a, la) :: ps) ∧
      ∀ M, la ≤ M → (∀ p, p ∈ ps → p.2 ≤ M) → l ≤ M := by
  induction ps generalizing la with
  | nil => exact ⟨la, [], rfl, Nat.le_refl _, by simp, by simp, by simp, fun M h _ => h⟩
  | cons p ps ih =>
    obtain ⟨c, lc⟩ := p
    have hac : a ≤ c := h (c, lc) List.mem_cons_self
    obtain ⟨l, qs, hfst, hle, hmax, hk, hcost, hM⟩ :=
      ih (max la lc) (fun p hp => h p (List.mem_cons_of_mem _ hp))
    refine ⟨l, (c, min la lc) :: qs, by simp [hfst], by omega, ?_, ?_, ?_, ?_⟩
    · intro q hq
      rcases List.mem_cons.mp hq with rfl | hq
      · simp only; omega
      · exact hmax q hq
    · intro M
      have := hk M
      simp only [kraftSum_cons] at this ⊢
      rcases Nat.le_total la lc with h' | h'
      · rw [Nat.max_eq_right h'] at this
        rw [Nat.min_eq_left h']
        omega
      · rw [Nat.max_eq_left h'] at this
        rw [Nat.min_eq_right h']
        omega
    · simp only [cost_cons] at hcost ⊢
      rcases Nat.le_total la lc with h' | h'
      · rw [Nat.max_eq_right h'] at hcost
        rw [Nat.min_eq_left h']
        obtain ⟨d, rfl⟩ := Nat.exists_eq_add_of_le hac
        obtain ⟨e, rfl⟩ := Nat.exists_eq_add_of_le h'
        nlinarith
      · rw [Nat.max_eq_left h'] at hcost
        rw [Nat.min_eq_right h']
        omega
    · intro M hla hps
      refine hM M ?_ (fun p hp => hps p (List.mem_cons_of_mem _ hp))
      have := hps (c, lc) List.mem_cons_self
      simp only at this
      omega

/-- A sum of powers with small exponents is a multiple of the smallest power that can occur. -/
theorem dvd_kraftSum {M l : Nat} {ps : List (Nat × Nat)} (h : ∀ p, p ∈ ps → p.2 ≤ l) :
    2 ^ (M - l) ∣ kraftSum M ps := by
  induction ps with
  | nil => simp
  | cons p ps ih =>
    rw [kraftSum_cons]
    refine Nat.dvd_add (Nat.pow_dvd_pow 2 ?_) (ih fun q hq => h q (List.mem_cons_of_mem _ hq))
    have := h p List.mem_cons_self
    omega

/-- The two least weights a and b may be merged into one of weight a + b: the Kraft inequality is kept and the weighted length falls by a + b at least. -/
theorem merge_least (M a b la lb : Nat) (ps : List (Nat × Nat)) (hab : a ≤ b)
    (hb : ∀ p, p ∈ ps → b ≤ p.1) (hM : ∀ p, p ∈ (a, la) :: (b, lb) :: ps → p.2 ≤ M)
    (hk : kraftSum M ((a, la) :: (b, lb) :: ps) ≤ 2 ^ M) :
    ∃ l qs, qs.map Prod.fst = ps.map Prod.fst ∧
      (∀ q, q ∈ (a + b, l) :: qs → q.2 ≤ M) ∧ kraftSum M ((a + b, l) :: qs) ≤ 2 ^ M ∧
      cost ((a + b, l) :: qs) + (a + b) ≤ cost ((a, la) :: (b, lb) :: ps) := by
  obtain ⟨l, ps', hfst, hle, hmax, hk1, hcost1, hM1⟩ := raise_least a la ((b, lb) :: ps) (by
    intro p hp
    rcases List.mem_cons.mp hp with rfl | hp
    · exact hab
    · exact Nat.le_trans hab (hb p hp))
  obtain ⟨⟨b', lb'⟩, ps1, rfl⟩ : ∃ p ps1, ps' = p :: ps1 := by
    cases ps' with
    | nil => simp at hfst
    | cons p ps1 => exact ⟨p, ps1, rfl⟩
  simp only [List.map_cons, List.cons.injEq] at hfst
  obtain ⟨rfl, hfst⟩ := hfst
  have hlM : l ≤ M := hM1 M (hM (a, la) (by simp)) (fun p hp => hM p (by
    rcases List.mem_cons.mp hp with rfl | hp <;> simp [*]))
  obtain ⟨l', qs, hfst', hle', hmax', hk2, hcost2, hM2⟩ := raise_least b' lb' ps1 (by
    intro p hp
    have : p.1 ∈ ps.map Prod.fst := hfst ▸ List.mem_map_of_mem hp
    obtain ⟨q, hq, hqp⟩ := List.mem_map.mp this
    exact hqp ▸ hb q hq)
  have hll : l' ≤ l := hM2 l (hmax (b', lb') (by simp)) (fun p hp => hmax p (by simp [hp]))
  rw [← hk1 M, kraftSum_cons, ← hk2 M] at hk
  simp only [kraftSum_cons] at hk
  have hpos : 0 < 2 ^ (M - l) := Nat.two_pow_pos _
  obtain ⟨x, hx⟩ := dvd_kraftSum (M := M) (l := l') hmax'
  obtain ⟨y, hy⟩ : 2 ^ (M - l') ∣ 2 ^ M := Nat.pow_dvd_pow 2 (by omega)
  have htwo : 2 ^ (M - l') * (x + 2) ≤ 2 ^ M := by
    have hlt : 2 ^ (M - l') * (x + 1) < 2 ^ M := by
      rw [Nat.mul_add, ← hx]
      omega
    rw [hy] at hlt ⊢
    exact Nat.mul_le_mul_left _ (Nat.lt_of_mul_lt_mul_left hlt)
  have hl1 : 1 ≤ l' := by
    by_contra h0
    have : l' = 0 := by omega
    subst this
    simp only [Nat.sub_zero] at htwo
    have := Nat.two_pow_pos M
    nlinarith
  refine ⟨l' - 1, qs, by rw [hfst', hfst], ?_, ?_, ?_⟩
  · intro q hq
    rcases List.mem_cons.mp hq with rfl | hq
    · simp only; omega
    · have := hmax' q hq; omega
  · rw [kraftSum_cons, hx]
    simp only
    rw [show M - (l' - 1) = M - l' + 1 by omega, Nat.pow_succ]
    nlinarith
  · simp only [cost_cons] at hcost1 hcost2 ⊢
    have h1 : (a + b') * (l' - 1) + (a + b') = a * l' + b' * l' := by
      obtain ⟨k, rfl⟩ : ∃ k, l' = k + 1 := ⟨l' - 1, by omega⟩
      simp only [Nat.add_sub_cancel]
      ring
    have h2 : a * l' ≤ a * l := Nat.mul_le_mul_left _ hll
    omega

theorem kraftSum_perm {M : Nat} {ps qs : List (Nat × Nat)} (h : ps.Perm qs) :
    kraftSum M ps = kraftSum M qs := (h.map _).sum_eq

theorem cost_perm {ps qs : List (Nat × Nat)} (h : ps.Perm qs) : cost ps = cost qs :=
  (h.map _).sum_eq

/-- An element of an image has an origin, and the rest of the image is the image of the rest. -/
theorem perm_map_cons {ps : List (Nat × Nat)} {a : Nat} {t : List Nat}
    (h : (ps.map Prod.fst).Perm (a :: t)) :
    ∃ l qs, ps.Perm ((a, l) :: qs) ∧ (qs.map Prod.fst).Perm t := by
  obtain ⟨⟨b, l⟩, hp, rfl⟩ := List.mem_map.mp (h.mem_iff.mpr List.mem_cons_self)
  have hperm := List.perm_cons_erase hp
  exact ⟨l, ps.erase (b, l), hperm, ((hperm.map Prod.fst).symm.trans h).cons_inv⟩

/-! ### The tree under construction -/

open Sys2Proof.Machine

/-- The weight of an entry, as a number. -/
def weight (nodes : Arena) (i : Nat) : Nat := (weightAt nodes i).toNat

open Classical in
/-- The nodes that are live when entry k is made: the entries below k with no parent below k. -/
noncomputable def liveAt (nodes : Arena) (k : Nat) : List Nat :=
  (List.range k).filter (fun j => ∀ m, m < k → ¬ hasChild nodes m j)

theorem mem_liveAt {nodes : Arena} {k j : Nat} :
    j ∈ liveAt nodes k ↔ j < k ∧ ∀ m, m < k → ¬ hasChild nodes m j := by simp [liveAt]

theorem nodup_liveAt (nodes : Arena) (k : Nat) : (liveAt nodes k).Nodup :=
  List.Nodup.filter _ List.nodup_range

/-- The sum of the weights of the entries from k on, below n. -/
def weightsFrom (nodes : Arena) (n k : Nat) : Nat :=
  ((List.range' k (n - k)).map (weight nodes)).sum

theorem weightsFrom_end (nodes : Arena) (n : Nat) : weightsFrom nodes n n = 0 := by
  simp [weightsFrom]

theorem weightsFrom_step {nodes : Arena} {n k : Nat} (h : k < n) :
    weightsFrom nodes n k = weight nodes k + weightsFrom nodes n (k + 1) := by
  obtain ⟨d, rfl⟩ : ∃ d, n = k + (d + 1) := ⟨n - k - 1, by omega⟩
  simp only [weightsFrom, Nat.add_sub_cancel_left, show k + (d + 1) - (k + 1) = d by omega]
  rw [List.range'_succ, List.map_cons, List.sum_cons]

/-- The making of entry k takes its two children off the live nodes and puts k in. -/
theorem liveAt_step {base : Arena} {ls : List NodeEntry} {b : BuildState} (hb : Built base ls b)
    {k : Nat} (hk : ls.length ≤ k) (hk' : k < b.next) :
    ∃ l r w rest, b.nodes[k]? = some (.internal l r w) ∧
      (liveAt b.nodes k).Perm (l.toNat :: r.toNat :: rest) ∧
      (liveAt b.nodes (k + 1)).Perm (k :: rest) ∧
      weight b.nodes k = weight b.nodes l.toNat + weight b.nodes r.toNat ∧
      weight b.nodes l.toNat ≤ weight b.nodes r.toNat ∧
      ∀ j, j ∈ rest → weight b.nodes r.toNat ≤ weight b.nodes j := by
  obtain ⟨l, r, w, hn, hl, hr, hlr, hw, hnone, hbef, hleast⟩ := (hb.merged k hk hk').merged
  have hne : l.toNat ≠ r.toNat := fun h => hlr (BitVec.eq_of_toNat_eq h)
  have hchild : ∀ j, hasChild b.nodes k j ↔ l.toNat = j ∨ r.toNat = j := by
    intro j
    constructor
    · rintro ⟨l', r', w', h, hj⟩
      rw [hn] at h
      obtain ⟨rfl, rfl, rfl⟩ := NodeEntry.internal.inj (Option.some.inj h)
      exact hj
    · exact fun hj => ⟨l, r, w, hn, hj⟩
  refine ⟨l, r, w, (liveAt b.nodes k).filter (fun j => j ≠ l.toNat ∧ j ≠ r.toNat), hn, ?_, ?_, ?_,
    ?_, ?_⟩
  · rw [List.perm_ext_iff_of_nodup (nodup_liveAt _ _) (List.nodup_cons.mpr ⟨by simp [hne],
      List.nodup_cons.mpr ⟨by simp, (nodup_liveAt _ _).filter _⟩⟩)]
    intro j
    simp only [List.mem_cons, List.mem_filter, mem_liveAt, decide_eq_true_eq]
    constructor
    · intro h
      by_cases hjl : j = l.toNat
      · exact .inl hjl
      · by_cases hjr : j = r.toNat
        · exact .inr (.inl hjr)
        · exact .inr (.inr ⟨h, hjl, hjr⟩)
    · rintro (rfl | rfl | h)
      · exact ⟨hl, fun m hm => (hnone m hm).1⟩
      · exact ⟨hr, fun m hm => (hnone m hm).2⟩
      · exact h.1
  · rw [List.perm_ext_iff_of_nodup (nodup_liveAt _ _) (List.nodup_cons.mpr
      ⟨by simp [mem_liveAt], (nodup_liveAt _ _).filter _⟩)]
    intro j
    simp only [List.mem_cons, List.mem_filter, mem_liveAt, decide_eq_true_eq]
    constructor
    · rintro ⟨hj, h⟩
      by_cases hjk : j = k
      · exact .inl hjk
      · have hnot := h k (by omega)
        rw [hchild, not_or] at hnot
        exact .inr ⟨⟨by omega, fun m hm => h m (by omega)⟩, Ne.symm hnot.1, Ne.symm hnot.2⟩
    · rintro (rfl | ⟨⟨hj, h⟩, hjl, hjr⟩)
      · refine ⟨by omega, fun m hm hc => ?_⟩
        have := hb.child_lt (by omega) hc
        omega
      · refine ⟨by omega, fun m hm => ?_⟩
        by_cases hmk : m = k
        · rw [hmk, hchild, not_or]
          exact ⟨Ne.symm hjl, Ne.symm hjr⟩
        · exact h m (by omega)
  · simpa [weight, weightAt, hn, NodeEntry.weight] using hw
  · unfold Before at hbef
    unfold weight
    omega
  · intro j hj
    simp only [List.mem_filter, mem_liveAt, decide_eq_true_eq] at hj
    have := hleast j hj.1.1 hj.1.2 hj.2.1 hj.2.2
    unfold Before at this
    unfold weight
    omega

/-- Any code lengths that meet the Kraft inequality, for the nodes live when entry k is made, cost at least the weights of the entries from k on. -/
theorem weightsFrom_le_cost {base : Arena} {ls : List NodeEntry} {b : BuildState}
    (hb : Built base ls b) (M : Nat) {k : Nat} (hk : ls.length ≤ k) (hk' : k ≤ b.next)
    (ps : List (Nat × Nat)) (hps : (ps.map Prod.fst).Perm ((liveAt b.nodes k).map (weight b.nodes)))
    (hM : ∀ p, p ∈ ps → p.2 ≤ M) (hkr : kraftSum M ps ≤ 2 ^ M) :
    weightsFrom b.nodes b.next k ≤ cost ps := by
  obtain ⟨d, hd⟩ : ∃ d, b.next = k + d := ⟨b.next - k, by omega⟩
  induction d generalizing k ps with
  | zero =>
    rw [show b.next = k by omega, weightsFrom_end]
    exact Nat.zero_le _
  | succ d ih =>
    obtain ⟨l, r, w, rest, -, hold, hnew, hw, hlr, hrest⟩ := liveAt_step hb hk (by omega)
    have h1 := hps.trans (hold.map _)
    simp only [List.map_cons] at h1
    obtain ⟨la, ps1, hp1, h2⟩ := perm_map_cons h1
    obtain ⟨lb, ps2, hp2, h3⟩ := perm_map_cons h2
    have hall := hp1.trans (hp2.cons _)
    rw [kraftSum_perm hall] at hkr
    obtain ⟨l', qs, hfst, hlen, hkr', hcost⟩ := merge_least M _ _ la lb ps2 hlr (by
        intro p hp
        obtain ⟨j, hj, hjp⟩ := List.mem_map.mp (h3.mem_iff.mp (List.mem_map_of_mem hp))
        exact hjp ▸ hrest j hj)
      (fun p hp => hM p (hall.mem_iff.mpr hp)) hkr
    have := ih (k := k + 1) (by omega) (by omega) _ (by
      refine List.Perm.trans ?_ (hnew.map _).symm
      simp only [List.map_cons, hw, hfst]
      exact h3.cons _) hlen hkr' (by omega)
    rw [weightsFrom_step (by omega), cost_perm hall, hw]
    omega

/-- Lengths that grow by one from an entry to its children, and are 0 at the last entry, cost exactly the weights of the entries from k on. -/
theorem weights_eq_weightsFrom {base : Arena} {ls : List NodeEntry} {b : BuildState}
    (hb : Built base ls b) (depth : Nat → Nat) {last : Nat} (hlive : b.live = [last])
    (hlast : depth last = 0)
    (hdepth : ∀ k, k < b.next → ∀ j, hasChild b.nodes k j → depth j = depth k + 1) {k : Nat}
    (hk : ls.length ≤ k) (hk' : k ≤ b.next) :
    ((liveAt b.nodes k).map (fun j => weight b.nodes j * depth j)).sum =
      weightsFrom b.nodes b.next k := by
  obtain ⟨d, hd⟩ : ∃ d, b.next = k + d := ⟨b.next - k, by omega⟩
  induction d generalizing k with
  | zero =>
    obtain rfl : b.next = k := by omega
    have hone : (liveAt b.nodes b.next).Perm [last] := by
      rw [List.perm_ext_iff_of_nodup (nodup_liveAt _ _) (by simp), ← hlive]
      intro j
      rw [mem_liveAt]
      exact ⟨fun h => (hb.live j h.1).mpr h.2,
        fun h => ⟨hb.below j h, (hb.live j (hb.below j h)).mp h⟩⟩
    rw [(hone.map _).sum_eq, weightsFrom_end]
    simp [hlast]
  | succ d ih =>
    obtain ⟨l, r, w, rest, hn, hold, hnew, hw, -⟩ := liveAt_step hb hk (by omega)
    have := ih (k := k + 1) (by omega) (by omega) (by omega)
    rw [(hnew.map _).sum_eq] at this
    rw [(hold.map _).sum_eq, weightsFrom_step (by omega)]
    simp only [List.map_cons, List.sum_cons] at this ⊢
    rw [hdepth k (by omega) _ ⟨l, r, w, hn, .inl rfl⟩, hdepth k (by omega) _ ⟨l, r, w, hn, .inr rfl⟩,
      ← this, hw]
    ring

end Sys2Proof.Laws
end

