-- ==== Sys2Proof/Laws/PerInstr.lean ====
section
/-! SUPPORT. Statements made for each command as syntax. Family Opcode: the word of a command carries the command's OP in its top byte (30_encoding.md R71, R74). -/

namespace Sys2Proof.Laws

/-- OP of a command (30_encoding.md R74, first column). -/
def Opcode.number : Instr → BitVec 8
  | .nop => 0x00#8
  | .srst => 0x01#8
  | .clrerr => 0x02#8
  | .clrfreq => 0x03#8
  | .wrreg _ _ => 0x10#8
  | .rdreg _ => 0x11#8
  | .wrfreq _ _ => 0x12#8
  | .rdfreq _ => 0x13#8
  | .wrnode _ _ _ => 0x14#8
  | .rdnode _ => 0x15#8
  | .rdclen _ => 0x16#8
  | .rdcbits _ _ => 0x17#8
  | .wrraw _ _ => 0x18#8
  | .rdraw _ => 0x19#8
  | .wrpkd _ _ => 0x1A#8
  | .rdpkd _ => 0x1B#8
  | .build => 0x20#8
  | .assign => 0x21#8
  | .pack => 0x22#8
  | .unpack => 0x23#8

/-- The top byte of the command's word is its OP. -/
def Opcode.Statement (i : Instr) : Prop := opOf (encode i) = Opcode.number i

theorem opOf_encodeN (op : BitVec 8) : opOf (encodeN op) = op := by
  apply BitVec.eq_of_getLsbD_eq
  intro i hi
  simp only [opOf, encodeN, BitVec.getLsbD_extractLsb', BitVec.getLsbD_cast, BitVec.getLsbD_append]
  simp [hi]

theorem opOf_encodeG (op reg : BitVec 8) (val : BitVec 40) : opOf (encodeG op reg val) = op := by
  apply BitVec.eq_of_getLsbD_eq
  intro i hi
  simp only [opOf, encodeG, BitVec.getLsbD_extractLsb', BitVec.getLsbD_cast, BitVec.getLsbD_append]
  rw [if_neg (by omega), if_neg (by omega), if_neg (by omega),
    show 56 + i - 40 - 8 - 8 = i by omega]
  simp [hi]

theorem opOf_encodeF (op : BitVec 8) (sym : Byte) (cnt : BitVec 32) :
    opOf (encodeF op sym cnt) = op := by
  apply BitVec.eq_of_getLsbD_eq
  intro i hi
  simp only [opOf, encodeF, BitVec.getLsbD_extractLsb', BitVec.getLsbD_cast, BitVec.getLsbD_append]
  rw [if_neg (by omega), if_neg (by omega), if_neg (by omega),
    show 56 + i - 32 - 8 - 16 = i by omega]
  simp [hi]

theorem opOf_encodeT (op : BitVec 8) (idx : BitVec 9) (kind : BitVec 1) (pay : BitVec 18) :
    opOf (encodeT op idx kind pay) = op := by
  apply BitVec.eq_of_getLsbD_eq
  intro i hi
  simp only [opOf, encodeT, BitVec.getLsbD_extractLsb', BitVec.getLsbD_cast, BitVec.getLsbD_append]
  rw [if_neg (by omega), if_neg (by omega), if_neg (by omega), if_neg (by omega),
    show 56 + i - 18 - 1 - 9 - 28 = i by omega]
  simp [hi]

theorem opOf_encodeK (op : BitVec 8) (chunk : BitVec 2) (sym : Byte) :
    opOf (encodeK op chunk sym) = op := by
  apply BitVec.eq_of_getLsbD_eq
  intro i hi
  simp only [opOf, encodeK, BitVec.getLsbD_extractLsb', BitVec.getLsbD_cast, BitVec.getLsbD_append]
  rw [if_neg (by omega), if_neg (by omega), if_neg (by omega),
    show 56 + i - 8 - 2 - 46 = i by omega]
  simp [hi]

theorem opOf_encodeB (op : BitVec 8) (addr : BitVec 32) (data : Byte) :
    opOf (encodeB op addr data) = op := by
  apply BitVec.eq_of_getLsbD_eq
  intro i hi
  simp only [opOf, encodeB, BitVec.getLsbD_extractLsb', BitVec.getLsbD_cast, BitVec.getLsbD_append]
  rw [if_neg (by omega), if_neg (by omega), if_neg (by omega),
    show 56 + i - 8 - 32 - 16 = i by omega]
  simp [hi]

theorem Opcode.nop : Opcode.Statement .nop := opOf_encodeN _
theorem Opcode.srst : Opcode.Statement .srst := opOf_encodeN _
theorem Opcode.clrerr : Opcode.Statement .clrerr := opOf_encodeN _
theorem Opcode.clrfreq : Opcode.Statement .clrfreq := opOf_encodeN _
theorem Opcode.wrreg (reg : BitVec 8) (val : BitVec 40) : Opcode.Statement (.wrreg reg val) :=
  opOf_encodeG _ _ _
theorem Opcode.rdreg (reg : BitVec 8) : Opcode.Statement (.rdreg reg) := opOf_encodeG _ _ _
theorem Opcode.wrfreq (sym : Byte) (cnt : BitVec 32) : Opcode.Statement (.wrfreq sym cnt) :=
  opOf_encodeF _ _ _
theorem Opcode.rdfreq (sym : Byte) : Opcode.Statement (.rdfreq sym) := opOf_encodeF _ _ _
theorem Opcode.wrnode (idx : BitVec 9) (kind : BitVec 1) (pay : BitVec 18) :
    Opcode.Statement (.wrnode idx kind pay) := opOf_encodeT _ _ _ _
theorem Opcode.rdnode (idx : BitVec 9) : Opcode.Statement (.rdnode idx) := opOf_encodeT _ _ _ _
theorem Opcode.rdclen (sym : Byte) : Opcode.Statement (.rdclen sym) := opOf_encodeK _ _ _
theorem Opcode.rdcbits (sym : Byte) (chunk : BitVec 2) : Opcode.Statement (.rdcbits sym chunk) :=
  opOf_encodeK _ _ _
theorem Opcode.wrraw (addr : BitVec 32) (data : Byte) : Opcode.Statement (.wrraw addr data) :=
  opOf_encodeB _ _ _
theorem Opcode.rdraw (addr : BitVec 32) : Opcode.Statement (.rdraw addr) := opOf_encodeB _ _ _
theorem Opcode.wrpkd (addr : BitVec 32) (data : Byte) : Opcode.Statement (.wrpkd addr data) :=
  opOf_encodeB _ _ _
theorem Opcode.rdpkd (addr : BitVec 32) : Opcode.Statement (.rdpkd addr) := opOf_encodeB _ _ _
theorem Opcode.build : Opcode.Statement .build := opOf_encodeN _
theorem Opcode.assign : Opcode.Statement .assign := opOf_encodeN _
theorem Opcode.pack : Opcode.Statement .pack := opOf_encodeN _
theorem Opcode.unpack : Opcode.Statement .unpack := opOf_encodeN _

end Sys2Proof.Laws
end

