-- ==== Sys2Proof/Laws/Streams.lean ====
section
/-! SUPPORT. The laws of PACK's and UNPACK's algorithms: which byte has no code, how long the code stream is, and that a decoding reads exactly one code of the tree after another (43_bit_packer.md R145 to R149; 44_bit_unpacker.md R160 to R166). -/

namespace Sys2Proof.Machine

/-! ### PACK -/

/-- No position is reported exactly when every byte has a code (R147). -/
theorem firstUncoded_none {s : State} {j : Nat} {xs : List Byte} :
    firstUncoded s j xs = none ↔ ∀ x, x ∈ xs → (s.codeAt x).len ≠ 0#8 := by
  induction xs generalizing j with
  | nil => simp [firstUncoded]
  | cons y xs ih =>
    simp only [firstUncoded]
    split
    · next h => simp [h]
    · next h => simp [ih, h]

/-- The position reported is the least whose byte has no code (R147). -/
theorem firstUncoded_some {s : State} {j k : Nat} {xs : List Byte} {x : Byte}
    (h : firstUncoded s j xs = some (k, x)) :
    j ≤ k ∧ xs[k - j]? = some x ∧ (s.codeAt x).len = 0#8 ∧
      ∀ i y, i < k - j → xs[i]? = some y → (s.codeAt y).len ≠ 0#8 := by
  induction xs generalizing j with
  | nil => simp [firstUncoded] at h
  | cons z xs ih =>
    simp only [firstUncoded] at h
    split at h
    · next hz =>
      obtain ⟨rfl, rfl⟩ := Prod.mk.inj (Option.some.inj h)
      exact ⟨Nat.le_refl _, by simp, hz, fun i y hi => by omega⟩
    · next hz =>
      obtain ⟨hle, hx, hlen, hbefore⟩ := ih h
      have hsub : k - j = (k - (j + 1)) + 1 := by omega
      refine ⟨by omega, by rw [hsub]; simpa using hx, hlen, fun i y hi hy => ?_⟩
      cases i with
      | zero => simpa [← Option.some.inj hy] using hz
      | succ i => exact hbefore i y (by omega) (by simpa using hy)

/-- The number of bits PACK writes is the length of the code stream (R146, R149). -/
theorem length_codeStream (s : State) (xs : List Byte) :
    (codeStream s xs).length = totalBits s xs := by
  simp [codeStream, totalBits, List.length_flatMap]

/-- Each byte has at most 255 bits (R149). -/
theorem totalBits_le (s : State) (xs : List Byte) : totalBits s xs ≤ 255 * xs.length := by
  induction xs with
  | nil => simp [totalBits]
  | cons x xs ih =>
    have := (s.codeAt x).len.isLt
    simp only [totalBits, List.map_cons, List.sum_cons, List.length_cons] at ih ⊢
    omega

@[simp] theorem State.length_rawBytes (s : State) (n : Nat) : (s.rawBytes n).length = n := by
  simp [State.rawBytes]

/-! ### UNPACK -/

/-- A descent that ends at a Leaf has read one bit to a child and the path from there (R162). -/
theorem descend_ok {s : State} {n : Nat} {l r : BitVec 9} {bits rest : List Bool} {x : Byte} :
    descend s n l r bits = .ok (x, rest) ↔
      ∃ b p, bits = b :: p ++ rest ∧ (if b then r else l).toNat < s.nnodes.toNat ∧
        s.PathTo (if b then r else l) p x := by
  induction bits generalizing l r with
  | nil => simp [descend]
  | cons b bits ih =>
    simp only [descend]
    constructor
    · intro h
      refine ⟨b, ?_⟩
      generalize (if b = true then r else l) = child at h ⊢
      split at h
      · simp at h
      · next hc =>
        split at h
        · simp at h
        · next sym w hs =>
          obtain ⟨rfl, rfl⟩ := Prod.mk.inj (Except.ok.inj h)
          exact ⟨[], by simp, by omega, (State.pathTo_leaf hs _).mpr ⟨rfl, rfl⟩⟩
        · next l' r' w hs =>
          obtain ⟨b', p, rfl, hc', hp⟩ := ih.mp h
          exact ⟨b' :: p, by simp, by omega,
            (State.pathTo_internal hs _).mpr ⟨b', p, rfl, hc', hp⟩⟩
    · rintro ⟨b', p, heq, hc, hp⟩
      simp only [List.cons_append, List.cons.injEq] at heq
      obtain ⟨rfl, rfl⟩ := heq
      rw [if_neg (by omega)]
      have hpath := hp
      obtain ⟨j, v, hw, hj⟩ := hp
      cases hs : s.nodeAt? (if b then r else l) with
      | none => cases p with
        | nil =>
          obtain rfl : (if b then r else l) = j := hw
          simp [hs] at hj
        | cons c p =>
          obtain ⟨l', r', w', he, -⟩ := hw
          simp [hs] at he
      | some e => cases e with
        | leaf sym w =>
          obtain ⟨rfl, rfl⟩ := (State.pathTo_leaf hs _).mp hpath
          simp
        | internal l' r' w =>
          simp only
          obtain ⟨c, p', rfl, hc', hp'⟩ := (State.pathTo_internal hs _).mp hpath
          exact ih.mpr ⟨c, p', by simp, hc', hp'⟩

/-- One symbol is decoded exactly when the stream begins with its code in the tree (R162, R166). -/
theorem decodeSymbol_ok {s : State} {n : Nat} {bits rest : List Bool} {x : Byte} :
    decodeSymbol s n bits = .ok (x, rest) ↔ ∃ p, bits = p ++ rest ∧ s.TreeCode p x := by
  unfold decodeSymbol
  cases hs : s.nodeAt? s.root with
  | none =>
    simp only [reduceCtorEq, false_iff, not_exists, not_and]
    rintro p - (⟨-, w, hw⟩ | ⟨hne, j, w, hw, -⟩)
    · simp [hs] at hw
    · cases p with
      | nil => exact hne rfl
      | cons b p =>
        obtain ⟨l, r, v, he, -⟩ := hw
        simp [hs] at he
  | some e => cases e with
    | leaf sym w =>
      have code : ∀ p, s.TreeCode p x ↔ p = [false] ∧ sym = x := by
        intro p
        constructor
        · rintro (⟨rfl, v, hv⟩ | ⟨hne, hp⟩)
          · rw [hs] at hv
            exact ⟨rfl, (NodeEntry.leaf.inj (Option.some.inj hv)).1⟩
          · exact absurd ((State.pathTo_leaf hs _).mp hp).1 hne
        · rintro ⟨rfl, rfl⟩
          exact .inl ⟨rfl, w, hs⟩
      simp only [code]
      cases bits with
      | nil => simp
      | cons b bits => cases b <;> simp [and_comm, eq_comm]
    | internal l r w =>
      simp only [descend_ok]
      constructor
      · rintro ⟨b, p, rfl, hc, hp⟩
        exact ⟨b :: p, rfl, .inr ⟨by simp, (State.pathTo_internal hs _).mpr ⟨b, p, rfl, hc, hp⟩⟩⟩
      · rintro ⟨q, rfl, ⟨rfl, v, hv⟩ | ⟨-, hq⟩⟩
        · simp [hs] at hv
        · obtain ⟨b, p, rfl, hc, hp⟩ := (State.pathTo_internal hs _).mp hq
          exact ⟨b, p, rfl, hc, hp⟩

/-- Codes of the tree at the head of the stream are decoded, and the decoding goes on behind them (R163). -/
theorem decodeSymbols_append {s : State} {codes : List (List Bool × Byte)} (m n : Nat)
    (rest : List Bool) (hc : ∀ c, c ∈ codes → s.TreeCode c.1 c.2) :
    decodeSymbols s (codes.length + m) n (codes.flatMap Prod.fst ++ rest) =
      (decodeSymbols s m (n + codes.length) rest).map (codes.map Prod.snd ++ ·) := by
  induction codes generalizing n with
  | nil =>
    simp only [List.length_nil, Nat.zero_add, Nat.add_zero, List.flatMap_nil, List.nil_append,
      List.map_nil]
    cases decodeSymbols s m n rest <;> rfl
  | cons c codes ih =>
    have hhead : decodeSymbol s n (c.1 ++ (codes.flatMap Prod.fst ++ rest)) =
        .ok (c.2, codes.flatMap Prod.fst ++ rest) :=
      decodeSymbol_ok.mpr ⟨c.1, rfl, hc c List.mem_cons_self⟩
    rw [show (c :: codes).length + m = codes.length + m + 1 by simp; omega]
    simp only [List.flatMap_cons, List.append_assoc, decodeSymbols, hhead]
    rw [ih (n + 1) (fun d hd => hc d (List.mem_cons_of_mem _ hd)),
      show n + (c :: codes).length = n + 1 + codes.length by simp; omega]
    cases decodeSymbols s m (n + 1 + codes.length) rest <;> rfl

/-- A decoding completes exactly when the stream begins with codes of the tree, one for each symbol (R163). -/
theorem decodeSymbols_ok {s : State} {count n : Nat} {bits : List Bool} {out : List Byte} :
    decodeSymbols s count n bits = .ok out ↔
      ∃ codes : List (List Bool × Byte), codes.length = count ∧ codes.map Prod.snd = out ∧
        (∀ c, c ∈ codes → s.TreeCode c.1 c.2) ∧ codes.flatMap Prod.fst <+: bits := by
  constructor
  · intro h
    induction count generalizing n bits out with
    | zero =>
      obtain rfl := Except.ok.inj h
      exact ⟨[], rfl, rfl, by simp, List.nil_prefix⟩
    | succ count ih =>
      simp only [decodeSymbols] at h
      split at h
      · simp at h
      · next x rest hd =>
        split at h
        · simp at h
        · next out' hd' =>
          obtain rfl := Except.ok.inj h
          obtain ⟨p, rfl, hp⟩ := decodeSymbol_ok.mp hd
          obtain ⟨codes, rfl, rfl, hc, hpre⟩ := ih hd'
          refine ⟨(p, x) :: codes, rfl, rfl, ?_, ?_⟩
          · intro c hc'
            rcases List.mem_cons.mp hc' with rfl | hc'
            · exact hp
            · exact hc c hc'
          · simpa using hpre
  · rintro ⟨codes, rfl, rfl, hc, rest, rfl⟩
    have := decodeSymbols_append 0 n rest hc
    simpa [decodeSymbols, Except.map] using this

end Sys2Proof.Machine
end

