-- ==== Sys2Proof/Tests/Slice0.lean ====
section
/-! SUPPORT. Tests of the definitions: well-formedness, the command words of the spec, one step of each command with results from 95_test_vectors.md, and for each statement with hypotheses a state and operands that meet them. Vector numbers (A12, T1, ...) are those of 95_test_vectors.md. -/

namespace Sys2Proof.Tests

open Sys2Proof Sys2Proof.Machine

-- one theorem at a time, so that the kernel evaluations below do not stand in memory together
set_option Elab.async false

/-! ### States -/

/-- The reset state with both capacities 4096, as the vectors marked "caps = 4096" assume. -/
def small : State := { State.reset with rawcap := 4096#32, pkdcap := 4096#32 }

/-- With EmptyInput pending, as after vector T10. -/
def pending : State := { small with err := .emptyInput }

/-- The counts of program P1: a 3, b 2, c 1. -/
def counted : State := ((small.setFreq 0x61#8 3#32).setFreq 0x62#8 2#32).setFreq 0x63#8 1#32

/-- Program P1 after BUILD. -/
def built : State :=
  { ((((counted.setNode 0#9 (.leaf 0x61#8 3#40)).setNode 1#9 (.leaf 0x62#8 2#40)).setNode 2#9
      (.leaf 0x63#8 1#40)).setNode 3#9 (.internal 2#9 1#9 3#40)).setNode 4#9
      (.internal 0#9 3#9 6#40) with
    nnodes := 5#10, root := 4#9, treeBuilt := true }

/-- Program P1 after ASSIGN: a `0`, b `11`, c `10`. -/
def coded : State :=
  { built with
    code := setCode (setCode (setCode (Vector.replicate 256 CodeEntry.empty) 0x61#8 [false])
      0x62#8 [true, true]) 0x63#8 [true, false] }

/-- Program P1 before PACK: RAW = "aaabbc". -/
def loaded : State :=
  { coded.writeRaw 0 [0x61#8, 0x61#8, 0x61#8, 0x62#8, 0x62#8, 0x63#8] with rawlen := 6#32 }

/-- Program P1 after PACK and WRREG SYMCNT, 6: PKD = 1F 00. -/
def packed : State :=
  { loaded.writePkd 0 [0x1F#8, 0x00#8] with pkdlen := 2#32, bitcnt := 9#40, symcnt := 6#32 }

/-- A tree with a missing child, vector E3: NODE[1] = Internal(0, NIL), PKD[0] = 0x20. -/
def missing : State :=
  { ((small.setNode 0#9 (.leaf 0x61#8 0#40)).setNode 1#9 (.internal 0#9 511#9 0#40)).writePkd 0
      [0x20#8] with
    nnodes := 2#10, root := 1#9, pkdlen := 1#32, symcnt := 4#32 }

/-- A root that is a Leaf, vector E4: PKD[0] = 0x10. -/
def leafRoot : State :=
  { (small.setNode 0#9 (.leaf 0x78#8 0#40)).writePkd 0 [0x10#8] with
    nnodes := 1#10, root := 0#9, pkdlen := 1#32, symcnt := 5#32 }

/-- The state after a command that completes or raises. -/
def after (i : Instr) (s : State) : Option State :=
  match exec i s with
  | .next t => some t
  | .fault _ => none
  | .refused _ => none

/-- A command whose state after it is there answers a next state. -/
theorem completes {i : Instr} {s : State} (h : (after i s).isSome = true) :
    ∃ t, exec i s = .next t := by
  unfold after at h
  split at h <;> rename_i heq
  · exact ⟨_, heq⟩
  · cases h
  · cases h

/-- Two commands one after the other. -/
theorem completes_both {i j : Instr} {s : State} (h : ((after i s).bind (after j)).isSome = true) :
    ∃ t u, exec i s = .next t ∧ exec j t = .next u := by
  cases ha : after i s with
  | none => rw [ha] at h; cases h
  | some t =>
    rw [ha] at h
    obtain ⟨u, hu⟩ := completes h
    refine ⟨t, u, ?_, hu⟩
    unfold after at ha
    split at ha <;> simp_all

/-- NODE does not stand in FREQ. -/
theorem nodeAt?_freq (s : State) (f : Vector (BitVec 32) 256) (i : BitVec 9) :
    { s with freq := f }.nodeAt? i = s.nodeAt? i := rfl

/-- STATUS.ERR, ERRINFO and the response after a command. -/
def ends (i : Instr) (s : State) : Option (ErrorCode × Word × Option Word) :=
  (after i s).map (fun t => (t.err, t.errinfo, t.responses.getLast?))

/-! ### Well-formedness: an ill-formed command for each check -/

theorem test_wf_rdreg_reserved : (Instr.rdreg 11#8).wellFormed 4096#32 4096#32 = false := by decide
theorem test_wf_rdreg_last : (Instr.rdreg 10#8).wellFormed 4096#32 4096#32 = true := by decide
theorem test_wf_wrreg_readonly :
    (Instr.wrreg 8#8 1#40).wellFormed 4096#32 4096#32 = false := by decide
theorem test_wf_wrreg_nnodes_large :
    (Instr.wrreg 3#8 512#40).wellFormed 4096#32 4096#32 = false := by decide
theorem test_wf_wrreg_length_large :
    (Instr.wrreg 7#8 0x100000000#40).wellFormed 4096#32 4096#32 = false := by decide
theorem test_wf_wrreg_largest :
    (Instr.wrreg 7#8 0xFFFFFFFF#40).wellFormed 4096#32 4096#32 = true := by decide
theorem test_wf_rdnode_nil : (Instr.rdnode 511#9).wellFormed 4096#32 4096#32 = false := by decide
theorem test_wf_wrnode_nil :
    (Instr.wrnode 511#9 0#1 1#18).wellFormed 4096#32 4096#32 = false := by decide
theorem test_wf_wrnode_payload :
    (Instr.wrnode 1#9 0#1 0x100#18).wellFormed 4096#32 4096#32 = false := by decide
theorem test_wf_rdraw_capacity :
    (Instr.rdraw 4096#32).wellFormed 4096#32 8192#32 = false := by decide
theorem test_wf_wrraw_capacity :
    (Instr.wrraw 4096#32 1#8).wellFormed 4096#32 8192#32 = false := by decide
theorem test_wf_rdpkd_capacity :
    (Instr.rdpkd 4096#32).wellFormed 8192#32 4096#32 = false := by decide
theorem test_wf_wrpkd_capacity :
    (Instr.wrpkd 4096#32 1#8).wellFormed 8192#32 4096#32 = false := by decide

/-! ### Decoding: words of 95_test_vectors.md, one for each command -/

theorem test_decode_nop : decode 0x0000000000000000#64 = .ok .nop := by decide
theorem test_decode_srst : decode 0x0100000000000000#64 = .ok .srst := by decide
theorem test_decode_clrerr : decode 0x0200000000000000#64 = .ok .clrerr := by decide
theorem test_decode_clrfreq : decode 0x0300000000000000#64 = .ok .clrfreq := by decide
theorem test_decode_wrreg : decode 0x10000700FFFFFFFF#64 = .ok (.wrreg 7#8 0xFFFFFFFF#40) := by decide
theorem test_decode_rdreg : decode 0x11000B0000000000#64 = .ok (.rdreg 11#8) := by decide
theorem test_decode_wrfreq :
    decode 0x1200006100000003#64 = .ok (.wrfreq 0x61#8 3#32) := by decide
theorem test_decode_rdfreq : decode 0x130000FF00000000#64 = .ok (.rdfreq 0xFF#8) := by decide
theorem test_decode_wrnode :
    decode 0x14000000001C0202#64 = .ok (.wrnode 3#9 1#1 0x202#18) := by decide
theorem test_decode_rdnode : decode 0x150000000FF00000#64 = .ok (.rdnode 510#9) := by decide
theorem test_decode_rdclen : decode 0x1600000000000061#64 = .ok (.rdclen 0x61#8) := by decide
theorem test_decode_rdcbits :
    decode 0x1700000000000361#64 = .ok (.rdcbits 0x61#8 3#2) := by decide
theorem test_decode_wrraw :
    decode 0x1800000000000362#64 = .ok (.wrraw 3#32 0x62#8) := by decide
theorem test_decode_rdraw : decode 0x19000000000FFF00#64 = .ok (.rdraw 4095#32) := by decide
theorem test_decode_wrpkd :
    decode 0x1A00000000000180#64 = .ok (.wrpkd 1#32 0x80#8) := by decide
theorem test_decode_rdpkd : decode 0x1B00000000000100#64 = .ok (.rdpkd 1#32) := by decide
theorem test_decode_build : decode 0x2000000000000000#64 = .ok .build := by decide
theorem test_decode_assign : decode 0x2100000000000000#64 = .ok .assign := by decide
theorem test_decode_pack : decode 0x2200000000000000#64 = .ok .pack := by decide
theorem test_decode_unpack : decode 0x2300000000000000#64 = .ok .unpack := by decide

-- A15, A28, A29: a must-be-zero bit set, a reserved opcode
theorem test_decode_mbz_rdfreq :
    decode 0x1300006100000001#64 = .error .mustBeZeroSet := by decide
theorem test_decode_mbz_build :
    decode 0x2000000000000001#64 = .error .mustBeZeroSet := by decide
theorem test_decode_reserved :
    decode 0x0400000000000000#64 = .error .reservedOpcode := by decide
theorem test_decode_table_word : decodeTableWord 64 0x1400000000240003 =
    some (.wrnode 4#9 1#1 0x003#18) := by decide

/-! ### One step of each command -/

-- A1
theorem test_nop : after .nop small = some (small.respond 0#64) := rfl
-- H5: everything but RAW and PKD, and a pending error is cleared
theorem test_srst : (after .srst { packed with err := .unknownSymbol, errinfo := 0x364#64 }).map (fun t =>
    (t.status, t.nnodes, t.rawlen, t.bitcnt, t.freqAt 0x61#8, t.codeAt 0x61#8)) =
    some (0#64, 0#10, 0#32, 0#40, 0#32, CodeEntry.empty) := by decide +kernel
theorem test_srst_keeps_buffers : (after .srst packed).map (fun t =>
    (t.nodeAt? 3#9, t.rawByte 0, t.pkdByte 0)) = some (some (.leaf 0#8 0#40), 0x61#8, 0x1F#8) := by
  decide +kernel
-- E10, step 9
theorem test_clrerr : ends .clrerr { small with err := .illegalCommand, errinfo := 7#64 } =
    some (.none, 0#64, some 0#64) := by decide +kernel
-- A14
theorem test_clrfreq : (after .clrfreq built).map (fun t => (t.freqAt 0x61#8, t.treeBuilt)) =
    some (0#32, true) := by decide +kernel
-- A7
theorem test_wrreg_root : (after (.wrreg 4#8 511#40) built).map (fun t => (t.root, t.treeBuilt)) =
    some (511#9, false) := by decide +kernel
-- A9
theorem test_wrreg_readonly : ends (.wrreg 8#8 1#40) small =
    some (.illegalCommand, 0x1000080000000001#64, some 0#64) := by decide +kernel
-- A2
theorem test_rdreg_id : ends (.rdreg 0#8) small =
    some (.none, 0#64, some 0x0000000048544201#64) := by decide +kernel
-- P1, step 14
theorem test_rdreg_status : ends (.rdreg 1#8) built = some (.none, 0#64, some 0x10#64) := by
  decide +kernel
-- A13
theorem test_wrfreq : (after (.wrfreq 0xFF#8 0xFFFFFFFF#32) small).map
    (fun t => (t.freqAt 0xFF#8, t.freqAt 0xFE#8)) = some (0xFFFFFFFF#32, 0#32) := by decide +kernel
-- E10, step 2: dropped
theorem test_wrfreq_dropped : after (.wrfreq 0x61#8 3#32) pending = some (pending.respond 0#64) := rfl
-- A12
theorem test_rdfreq : ends (.rdfreq 0x61#8) counted = some (.none, 0#64, some 3#64) := by
  decide +kernel
-- A17
theorem test_wrnode : (after (.wrnode 3#9 1#1 0x202#18) built).map
    (fun t => (t.nodeAt? 3#9, t.treeBuilt)) = some (some (.internal 1#9 2#9 0#40), false) := by
  decide +kernel
-- A20
theorem test_wrnode_payload : ends (.wrnode 1#9 0#1 0x100#18) small =
    some (.illegalCommand, 0x1400000000080100#64, some 0#64) := by decide +kernel
-- P1, step 32
theorem test_rdnode : ends (.rdnode 3#9) built = some (.none, 0#64, some 0x04000000000C0401#64) := by
  decide +kernel
-- T8: the record of a leaf with the largest count
theorem test_record_largest : (NodeEntry.leaf 0x01#8 4294967295#40).record =
    0x003FFFFFFFC0001#59 := by decide
-- P1, step 22
theorem test_rdclen : ends (.rdclen 0x62#8) coded = some (.none, 0#64, some 2#64) := by
  decide +kernel
-- P1, step 26
theorem test_rdcbits : ends (.rdcbits 0x62#8 0#2) coded =
    some (.none, 0#64, some 0xC000000000000000#64) := by decide +kernel
-- the code of 65 zeros and a one: its last bit is the second of chunk 1 (R52)
theorem test_rdcbits_second_chunk :
    (CodeEntry.ofPath (List.replicate 65 false ++ [true])).chunk 1#2 = 0x4000000000000000#64 := by
  decide +kernel
-- A24
theorem test_wrraw : (after (.wrraw 3#32 0x62#8) small).map (fun t => (t.rawByte 3, t.raw)) =
    some (0x62#8, [(3, 0x62#8)]) := by decide +kernel
-- A26
theorem test_wrraw_capacity : ends (.wrraw 4096#32 1#8) small =
    some (.illegalCommand, 0x1800000000100001#64, some 0#64) := by decide +kernel
-- P1, step 37
theorem test_rdraw : ends (.rdraw 5#32) loaded = some (.none, 0#64, some 0x63#64) := by
  decide +kernel
-- A27: legal, and the byte is whatever it is
theorem test_rdraw_unwritten :
    exec (.rdraw 4095#32) small = .next (small.respond ((Config.rawReset 4095).setWidth 64)) := rfl
-- A25
theorem test_wrpkd : (after (.wrpkd 1#32 0x80#8) small).map (fun t => t.pkdByte 1) =
    some 0x80#8 := by decide +kernel
-- P1, step 19
theorem test_rdpkd : ends (.rdpkd 0#32) packed = some (.none, 0#64, some 0x1F#64) := by
  decide +kernel
-- E10, step 7: a bad operand of a read command while an error is pending
theorem test_rdpkd_pending : after (.rdpkd 4096#32) pending = some (pending.respond 0#64) := rfl
-- P1, step 11
theorem test_build : (after .build counted).map (fun t =>
    (t.root, t.nnodes, t.status, t.nodeAt? 3#9, t.nodeAt? 4#9)) =
    some (4#9, 5#10, 0x10#64, some (.internal 2#9 1#9 3#40), some (.internal 0#9 3#9 6#40)) := by decide +kernel
-- T1: a leaf goes before a merged node of equal weight
theorem test_build_tie : (after .build
      (((small.setFreq 0x61#8 1#32).setFreq 0x62#8 1#32).setFreq 0x63#8 2#32)).map
    (fun t => (t.nodeAt? 3#9, t.nodeAt? 4#9)) =
    some (some (.internal 0#9 1#9 2#40), some (.internal 2#9 3#9 4#40)) := by decide +kernel
-- P1, step 12
theorem test_assign : (after .assign built).map (fun t =>
    (t.codeOf 0x61#8, t.codeOf 0x62#8, t.codeOf 0x63#8, t.codeOf 0x64#8)) =
    some ([false], [true, true], [true, false], []) := by decide +kernel
-- K9
theorem test_assign_unbuilt : ends .assign small =
    some (.illegalCommand, 0x2100000000000000#64, some 0#64) := by decide +kernel
-- P1, step 13
theorem test_pack : (after .pack loaded).map (fun t => (t.pkd, t.pkdlen, t.bitcnt)) =
    some ([(0, 0x1F#8), (1, 0x00#8)], 2#32, 9#40) := by decide +kernel
-- E1
theorem test_pack_unknown : ends .pack
      { coded.writeRaw 0 [0x61#8, 0x61#8, 0x62#8, 0x64#8] with rawlen := 4#32 } =
    some (.unknownSymbol, 0x0000000000000364#64, some 0#64) := by decide +kernel
-- P2: the host's tree, bytes 15 80
theorem test_unpack : (after .unpack
      { (((((small.setNode 0#9 (.leaf 0x61#8 0#40)).setNode 1#9 (.leaf 0x62#8 0#40)).setNode 2#9
          (.leaf 0x63#8 0#40)).setNode 3#9 (.internal 1#9 2#9 0#40)).setNode 4#9
          (.internal 0#9 3#9 0#40)).writePkd 0 [0x15#8, 0x80#8] with
        nnodes := 5#10, root := 4#9, pkdlen := 2#32, symcnt := 6#32 }).map
    (fun t => (t.rawBytes 6, t.rawlen, t.err)) =
    some ([0x61#8, 0x61#8, 0x61#8, 0x62#8, 0x62#8, 0x63#8], 6#32, .none) := by decide +kernel
-- V4
theorem test_unpack_exhausted : ends .unpack { packed with symcnt := 14#32 } =
    some (.corruptStream, 0x100000000000000D#64, some 0#64) := by decide +kernel
-- the ERRINFO words of E1, V4, E3, E4, E5 and of a SYMCNT of 5000
theorem test_errinfo_words : infoUnknownSymbol 3 0x64#8 = 0x0000000000000364#64 ∧
    infoSub subExhausted 13 = 0x100000000000000D#64 ∧
    infoSub subMissingChild 2 = 0x3000000000000002#64 ∧
    infoSub subBadLeafBit 3 = 0x4000000000000003#64 ∧
    infoSub subBadRoot 0 = 0x2000000000000000#64 ∧
    infoSub subUnpackSymcnt 5000 = 0x4000000000001388#64 := by decide
-- A28, and E10, step 6
theorem test_illegal_word : step { small with commands := [0x0400000000000000#64] } =
    .next (small.raiseError .illegalCommand 0x0400000000000000#64) := rfl
theorem test_illegal_word_dropped : step { pending with commands := [0x0400000000000000#64] } =
    .next (pending.respond 0#64) := rfl
-- no word waiting, and a word placed by withFetchWord is the one taken
theorem test_idle : step small = .next small := rfl
theorem test_placed : step (small.withFetchWord 64 0x1200006100000003) =
    .next ((small.setFreq 0x61#8 3#32).respond 0#64) := rfl
theorem test_reset_runs : (match step (State.reset.withFetchWord 64 0x2000000000000000) with
    | .next t => some t.err
    | .fault _ => none
    | .refused _ => none) = some .emptyInput := by decide +kernel

/-! ### Witnesses: for each statement with hypotheses, a state and operands that meet them -/

-- a reserved opcode and a must-be-zero bit, without and with an error pending
theorem witness_IllegalEncodingRaisesOrIsDropped :
    (∀ r, r ∈ opcodeTable → 0x0400000000000000#64 &&& r.mask ≠ r.pattern) ∧
    (∀ r, r ∈ opcodeTable → 0x2000000000000001#64 &&& r.mask ≠ r.pattern) ∧
    small.err = .none ∧ pending.err ≠ .none := by decide
-- the first and last word of each range of reserved opcodes
theorem witness_reserved_opcodes :
    4 ≤ (0x0400000000000000#64).toNat / 2 ^ 56 ∧ (0x0FFFFFFFFFFFFFFF#64).toNat / 2 ^ 56 ≤ 0x0F ∧
    0x1C ≤ (0x1C00000000000000#64).toNat / 2 ^ 56 ∧
    (0x1FFFFFFFFFFFFFFF#64).toNat / 2 ^ 56 ≤ 0x1F ∧
    0x24 ≤ (0x2400000000000000#64).toNat / 2 ^ 56 := by decide
theorem witness_EncodeOfDecode : decode 0x150000000FF80000#64 = .ok (.rdnode 511#9) := by decide
theorem witness_StepRunsTheDecodedCommand :
    { small with commands := [0x2300000000000000#64] }.commands = 0x2300000000000000#64 :: [] ∧
    decode 0x2300000000000000#64 = .ok .unpack ∧ small.commands = [] := by decide
-- an NOP word with a must-be-zero bit set
theorem witness_NopOnlyResponds : opOf 0x0000000000000001#64 = 0x00#8 ∧
    (0x0000000000000001#64 : Word) ≠ 0x0000000000000000#64 := by decide
theorem witness_ClrfreqEmptiesTheTable : built.err = .none := rfl
-- register 10 is the last, 11 the first reserved one
theorem witness_RdregReadsTheRegister : (10#8).toNat ≤ 10 ∧ 10 < (11#8).toNat ∧
    small.err = .none ∧ pending.err ≠ .none := by decide
-- the largest value of each register, the least refused one, a read-only register on either side
theorem witness_WrregWritesTheRegister : built.err = .none ∧
    ((3#8).toNat = 3 ∧ (511#40).toNat ≤ 511) ∧ ((4#8).toNat = 4 ∧ (511#40).toNat ≤ 511) ∧
    ((5#8).toNat = 5 ∧ (0xFFFFFFFF#40).toNat ≤ 2 ^ 32 - 1) ∧
    ((6#8).toNat = 6 ∧ (0xFFFFFFFF#40).toNat ≤ 2 ^ 32 - 1) ∧
    ((7#8).toNat = 7 ∧ (0xFFFFFFFF#40).toNat ≤ 2 ^ 32 - 1) ∧
    ((4#8).toNat = 4 ∧ 511 < (512#40).toNat) ∧
    (5 ≤ (7#8).toNat ∧ (7#8).toNat ≤ 7 ∧ 2 ^ 32 - 1 < (0x100000000#40).toNat) ∧
    (2#8).toNat < 3 ∧ 7 < (8#8).toNat := by decide
theorem witness_WrfreqWritesTheCount : small.err = .none ∧ (0x60#8 : Byte) ≠ 0x61#8 := by decide
-- the last entry is 510; NODE[3] of the tree of P1 is Internal
theorem witness_RdnodeReadsTheRecord : small.nodeAt? 510#9 = some (.leaf 0#8 0#40) ∧
    built.nodeAt? 3#9 = some (.internal 2#9 1#9 3#40) ∧ (510#9 : BitVec 9) ≠ 511#9 ∧
    small.err = .none ∧ pending.err ≠ .none := by decide +kernel
theorem witness_WrnodeWritesTheEntry : built.err = .none ∧ (510#9 : BitVec 9) ≠ 511#9 ∧
    (255#18).toNat < 256 ∧ 256 ≤ (256#18).toNat := by decide
theorem witness_CodeReadsGiveLengthAndChunk : (coded.codeAt 0x62#8).Padded := by
  unfold CodeEntry.Padded
  decide +kernel
-- the last byte of each buffer, and the first address beyond it
theorem witness_RdrawReadsTheByte : (4095#32).toNat < small.rawcap.toNat ∧
    small.rawcap.toNat ≤ (4096#32).toNat ∧ small.err = .none ∧ pending.err ≠ .none := by decide
theorem witness_WrrawWritesTheByte : (4095#32).toNat < small.rawcap.toNat ∧
    small.rawcap.toNat ≤ (4096#32).toNat ∧ small.err = .none := by decide
theorem witness_RdpkdReadsTheByte : (4095#32).toNat < small.pkdcap.toNat ∧
    small.pkdcap.toNat ≤ (4096#32).toNat ∧ small.err = .none ∧ pending.err ≠ .none := by decide
theorem witness_WrpkdWritesTheByte : (4095#32).toNat < small.pkdcap.toNat ∧
    small.pkdcap.toNat ≤ (4096#32).toNat ∧ small.err = .none := by decide
theorem witness_RaisingCommandsChangeNothingElse :
    exec .assign small = .next (small.raiseError .illegalCommand (encode .assign)) ∧
    small.err = .none ∧ (small.raiseError .illegalCommand (encode .assign)).err ≠ .none :=
  ⟨rfl, rfl, by decide⟩
-- a change-class command, a read-class command with a bad operand, a read-class command
theorem witness_PendingErrorFreezesTheState : pending.err ≠ .none ∧
    decode 0x1200006100000003#64 = .ok (.wrfreq 0x61#8 3#32) ∧
    classOf (.wrfreq 0x61#8 3#32) = .change ∧
    decode 0x11000B0000000000#64 = .ok (.rdreg 11#8) ∧
    (Instr.rdreg 11#8).wellFormed pending.rawcap pending.pkdcap = false ∧
    decode 0x1100010000000000#64 = .ok (.rdreg 1#8) := by decide
theorem witness_ReadCommandsChangeNothing : classOf (.rdraw 4095#32) = .read ∧
    (Instr.rdraw 4095#32).wellFormed small.rawcap small.pkdcap = true ∧
    (Instr.rdraw 4096#32).wellFormed small.rawcap small.pkdcap = false ∧
    small.err = .none ∧ pending.err ≠ .none := by decide
theorem witness_IllegalCommandExactlyForBadOperands :
    exec (.rdreg 11#8) small =
      .next (small.raiseError .illegalCommand (encode (.rdreg 11#8))) ∧ small.err = .none ∧
    exec .nop small = .next (small.respond 0#64) := ⟨rfl, rfl, rfl⟩
-- each error is reached; the commands of the last clause complete
theorem witness_ErrorsByCommand :
    (after .build small).map (fun t => t.err) = some .emptyInput ∧
    (after .pack { small with rawlen := 4097#32 }).map (fun t => t.err) = some .bufferBounds ∧
    (after .unpack { small with symcnt := 1#32 }).map (fun t => t.err) = some .corruptStream ∧
    (after .pack (State.writeRaw { small with rawlen := 1#32 } 0 [0x61#8])).map (fun t => t.err) =
      some .unknownSymbol ∧
    (after (.rdclen 0x61#8) small).map (fun t => t.err) = some .none := by decide +kernel
theorem witness_OneResponseForEachCommand :
    step { small with commands := [0x0000000000000000#64, 0x0300000000000000#64] } =
      .next { small with commands := [0x0300000000000000#64], responses := [0#64] } := rfl
-- BUILD sets the flag; WRNODE and SRST clear it; PACK keeps it
theorem witness_TreeBuiltIsSetByBuildAlone :
    (after .build counted).map (fun t => t.treeBuilt) = some true ∧
    (after (.wrnode 0#9 0#1 0#18) built).map (fun t => t.treeBuilt) = some false ∧
    (after .srst built).map (fun t => t.treeBuilt) = some false ∧
    (after .pack built).map (fun t => t.treeBuilt) = some true := by decide +kernel
-- each clause: a command that does change what the clause is about
theorem witness_OnlyTheseCommandsWrite_status :
    (after .build small).map (fun t => t.err) = some .emptyInput ∧ small.err = .none ∧
    (after (.wrreg 8#8 1#40) small).map (fun t => t.errinfo) = some 0x1000080000000001#64 ∧
    small.errinfo = 0#64 ∧
    (after .clrerr pending).map (fun t => t.err) = some .none ∧ pending.err = .emptyInput ∧
    (after (.wrreg 4#8 4#40) built).map (fun t => t.treeBuilt) = some false ∧
    built.treeBuilt = true := by decide +kernel
theorem witness_OnlyTheseCommandsWrite_registers :
    (after .build counted).map (fun t => (t.nnodes, t.root)) = some (5#10, 4#9) ∧
    counted.nnodes = 0#10 ∧ counted.root = 0#9 ∧
    (after .unpack { packed with symcnt := 5#32 }).map (fun t => t.rawlen) = some 5#32 ∧
    packed.rawlen = 6#32 ∧
    (after .pack loaded).map (fun t => (t.pkdlen, t.bitcnt)) = some (2#32, 9#40) ∧
    loaded.pkdlen = 0#32 ∧ loaded.bitcnt = 0#40 ∧
    (after (.wrreg 7#8 1#40) small).map (fun t => t.symcnt) = some 1#32 := by decide +kernel
theorem witness_OnlyTheseCommandsWrite_memories :
    (after (.wrfreq 0x61#8 1#32) small).map (fun t => t.freqAt 0x61#8) = some 1#32 ∧
    small.freqAt 0x61#8 = 0#32 ∧
    (after (.wrnode 0#9 1#1 0#18) small).map (fun t => t.nodeAt? 0#9) =
      some (some (.internal 0#9 0#9 0#40)) ∧
    (after .assign built).map (fun t => t.codeOf 0x62#8) = some [true, true] ∧
    (built.codeAt 0x62#8).len = 0#8 ∧
    (after .unpack { packed with symcnt := 13#32 }).map (fun t => t.rawByte 12) = some 0x61#8 ∧
    (after .pack (loaded.writePkd 0 [0xFF#8])).map (fun t => t.pkdByte 0) = some 0x1F#8 := by
  decide +kernel
theorem witness_BuildOfNothingRaisesEmptyInput :
    small.err = .none ∧ ∀ x : Byte, small.freqAt x = 0#32 := by
  refine ⟨rfl, fun x => ?_⟩
  simp [small, State.freqAt, State.reset]
theorem witness_BuildOfOneSymbolIsItsLeaf :
    (small.setFreq 0x78#8 3#32).err = .none ∧ (small.setFreq 0x78#8 3#32).freqAt 0x78#8 ≠ 0#32 ∧
    ∀ y : Byte, y ≠ 0x78#8 → (small.setFreq 0x78#8 3#32).freqAt y = 0#32 := by
  refine ⟨rfl, by decide +kernel, fun y hy => ?_⟩
  have hne : (0x78#8 : Byte).toNat ≠ y.toNat := fun h => hy (BitVec.eq_of_toNat_eq h.symm)
  simp only [State.setFreq, State.freqAt]
  rw [Vector.getElem_set_ne (h := hne)]
  simp [small, State.reset]
theorem witness_BuildStoresTheTree :
    counted.err = .none ∧ (∃ x, counted.freqAt x ≠ 0#32) ∧ counted.keys = [0x61#8, 0x62#8, 0x63#8] :=
  ⟨rfl, ⟨0x61#8, by decide +kernel⟩, by decide +kernel⟩
-- entry 3 is the first Internal one, entry 4 the last
theorem witness_BuildMergesTheTwoLeast : (∃ t, exec .build counted = .next t) ∧
    (after .build counted).map (fun t => t.nnodes.toNat) = some 5 ∧ counted.keys.length = 3 :=
  ⟨completes (by decide +kernel), by decide +kernel, by decide +kernel⟩
theorem witness_BuildMakesAWellFormedTree :
    counted.err = .none ∧ counted.freqAt 0x61#8 ≠ 0#32 ∧ ∃ t, exec .build counted = .next t :=
  ⟨rfl, by decide +kernel, completes (by decide +kernel)⟩
theorem witness_BuildWeightsAreExact :
    counted.err = .none ∧ counted.freqAt 0x63#8 ≠ 0#32 ∧ ∃ t, exec .build counted = .next t :=
  ⟨rfl, by decide +kernel, completes (by decide +kernel)⟩
-- two states with the same counts that differ in ROOT
theorem witness_BuildReadsOnlyFreq : counted.err = .none ∧
    (∀ x, counted.freqAt x = { counted with root := 7#9 }.freqAt x) ∧
    counted.freqAt 0x61#8 ≠ 0#32 ∧ (∃ t, exec .build counted = .next t) ∧
    ∃ t, exec .build { counted with root := 7#9 } = .next t :=
  ⟨rfl, fun _ => rfl, by decide +kernel, completes (by decide +kernel), completes (by decide +kernel)⟩
theorem witness_AssignNeedsABuiltTree : small.err = .none ∧ small.treeBuilt = false := by decide

/-- The tree of P1, entry by entry. -/
theorem built_entries : built.node[0]? = some (.leaf 0x61#8 3#40) ∧
    built.node[1]? = some (.leaf 0x62#8 2#40) ∧ built.node[2]? = some (.leaf 0x63#8 1#40) ∧
    built.node[3]? = some (.internal 2#9 1#9 3#40) ∧
    built.node[4]? = some (.internal 0#9 3#9 6#40) := by decide +kernel

/-- The tree of P1 is well-formed. -/
theorem built_wellFormed : built.TreeWellFormed := by
  obtain ⟨h0, h1, h2, h3, h4⟩ := built_entries
  have hn : built.nnodes.toNat = 5 := rfl
  have hc : built.leafCount = 3 := rfl
  have child : ∀ k j, k < 5 → (built.childOf k j ↔
      (k = 3 ∧ (j = 2 ∨ j = 1)) ∨ (k = 4 ∧ (j = 0 ∨ j = 3))) := by
    intro k j hk
    unfold State.childOf
    interval_cases k
    · exact ⟨fun ⟨_, _, _, h, _⟩ => (by rw [h0] at h; cases h), fun h => by omega⟩
    · exact ⟨fun ⟨_, _, _, h, _⟩ => (by rw [h1] at h; cases h), fun h => by omega⟩
    · exact ⟨fun ⟨_, _, _, h, _⟩ => (by rw [h2] at h; cases h), fun h => by omega⟩
    · constructor
      · rintro ⟨l, r, w, h, hj⟩
        rw [h3] at h
        cases h
        exact .inl ⟨rfl, hj.imp Eq.symm Eq.symm⟩
      · rintro (⟨-, hj⟩ | ⟨h, -⟩)
        · exact ⟨_, _, _, h3, hj.imp Eq.symm Eq.symm⟩
        · omega
    · constructor
      · rintro ⟨l, r, w, h, hj⟩
        rw [h4] at h
        cases h
        exact .inr ⟨rfl, hj.imp Eq.symm Eq.symm⟩
      · rintro (⟨h, -⟩ | ⟨-, hj⟩)
        · omega
        · exact ⟨_, _, _, h4, hj.imp Eq.symm Eq.symm⟩
  constructor
  · rw [hn]; decide
  · rw [hn]
  · intro i hi
    rw [hc] at hi
    interval_cases i
    exacts [⟨_, _, h0⟩, ⟨_, _, h1⟩, ⟨_, _, h2⟩]
  · intro i j a v b w hij hj hi' hj'
    rw [hc] at hj
    interval_cases j <;> interval_cases i <;> simp_all
    all_goals
      obtain ⟨rfl, -⟩ := hi'
      obtain ⟨rfl, -⟩ := hj'
      decide
  · intro k hk hk'
    rw [hc] at hk
    rw [hn] at hk'
    interval_cases k
    · exact ⟨_, _, _, _, _, h3, by decide, by decide, by decide, h2, h1, by decide⟩
    · exact ⟨_, _, _, _, _, h4, by decide, by decide, by decide, h0, h3, by decide⟩
  · intro j hj
    rw [hn] at hj ⊢
    have parent : ∀ k, k < 5 ∧ built.childOf k j ↔
        k < 5 ∧ ((k = 3 ∧ (j = 2 ∨ j = 1)) ∨ (k = 4 ∧ (j = 0 ∨ j = 3))) := fun k =>
      and_congr_right (fun hk => child k j hk)
    by_cases hj' : j = 1 ∨ j = 2
    · exact ⟨3, (parent 3).2 (by omega), fun k hk => by have := (parent k).1 hk; omega⟩
    · exact ⟨4, (parent 4).2 (by omega), fun k hk => by have := (parent k).1 hk; omega⟩
  · intro k hk
    rw [hn] at hk ⊢
    rw [child k _ hk]
    omega
  · rfl

theorem witness_AssignGivesEveryLeafItsPath :
    built.err = .none ∧ built.treeBuilt = true ∧ built.TreeWellFormed := ⟨rfl, rfl, built_wellFormed⟩
theorem witness_AssignedCodesArePrefixFree : built.err = .none ∧ built.treeBuilt = true ∧
    built.TreeWellFormed ∧ ∃ t, exec .assign built = .next t := ⟨rfl, rfl, built_wellFormed, completes (by decide +kernel)⟩
theorem witness_CodeLengthsAreBounded : built.err = .none ∧ built.treeBuilt = true ∧
    built.TreeWellFormed ∧ ∃ t, exec .assign built = .next t := ⟨rfl, rfl, built_wellFormed, completes (by decide +kernel)⟩
theorem witness_CodedSymbolsAreTheKeys : counted.err = .none ∧ counted.freqAt 0x61#8 ≠ 0#32 ∧
    counted.freqAt 0x64#8 = 0#32 := by decide +kernel

-- the code a `1`, b `01`, others `00` on the three keys of P1
theorem witness_BuiltCodesAreOptimal : counted.err = .none ∧ 2 ≤ counted.keys.length ∧
    (∃ t u, exec .build counted = .next t ∧ exec .assign t = .next u) ∧
    ∀ x y, x ∈ counted.keys → y ∈ counted.keys → x ≠ y →
      ¬ (if x = 0x61#8 then [true] else if x = 0x62#8 then [false, true] else [false, false]) <+:
        (if y = 0x61#8 then [true] else if y = 0x62#8 then [false, true] else [false, false]) := by
  have hk : counted.keys = [0x61#8, 0x62#8, 0x63#8] := by decide +kernel
  refine ⟨rfl, by rw [hk]; decide, completes_both (by decide +kernel), ?_⟩
  intro x y hx hy hne
  rw [hk] at hx hy
  simp only [List.mem_cons, List.not_mem_nil, or_false] at hx hy
  rcases hx with rfl | rfl | rfl <;> rcases hy with rfl | rfl | rfl <;>
    first | exact absurd rfl hne | decide
-- two states that differ in FREQ
theorem witness_AssignReadsOnlyTheShape :
    (built.err = .none ∧ { built with freq := small.freq }.err = .none ∧ built.treeBuilt = true ∧
      { built with freq := small.freq }.treeBuilt = true ∧
      built.root = { built with freq := small.freq }.root) ∧
    (∀ i sym w, built.nodeAt? i = some (.leaf sym w) →
      ∃ w', { built with freq := small.freq }.nodeAt? i = some (.leaf sym w')) ∧
    (∀ i l r w, built.nodeAt? i = some (.internal l r w) →
      ∃ w', { built with freq := small.freq }.nodeAt? i = some (.internal l r w')) ∧
    (∃ t, exec .assign built = .next t) ∧
    ∃ t, exec .assign { built with freq := small.freq } = .next t :=
  ⟨⟨rfl, rfl, rfl, rfl, rfl⟩, fun _ _ w h => ⟨w, (nodeAt?_freq _ _ _).trans h⟩,
    fun _ _ _ w h => ⟨w, (nodeAt?_freq _ _ _).trans h⟩, completes (by decide +kernel),
    completes (by decide +kernel)⟩

/-- The input of P1 and its codes. -/
theorem loaded_codes : loaded.rawlen.toNat = 6 ∧
    (∀ j, j < 6 → loaded.codeOf (loaded.rawByte j) ≠ []) ∧
    (List.range 6).flatMap (fun j => loaded.codeOf (loaded.rawByte j)) =
      [false, false, false, true, true, true, true, true, false] := by decide +kernel

theorem witness_PackLaysTheCodesEndToEnd : loaded.err = .none ∧
    loaded.rawlen.toNat ≤ loaded.rawcap.toNat ∧
    (∀ j, j < loaded.rawlen.toNat → loaded.codeOf (loaded.rawByte j) ≠ []) ∧
    ((List.range loaded.rawlen.toNat).flatMap
      (fun j => loaded.codeOf (loaded.rawByte j))).length = 9 ∧ (9 + 7) / 8 ≤ loaded.pkdcap.toNat := by
  obtain ⟨h1, h2, h3⟩ := loaded_codes
  rw [h1]
  exact ⟨rfl, by decide, h2, by rw [h3]; rfl, by decide⟩
-- RAWLEN one above RAW_CAP
theorem witness_PackErrorsInOrder_length : { small with rawlen := 4097#32 }.err = .none ∧
    { small with rawlen := 4097#32 }.rawcap.toNat < { small with rawlen := 4097#32 }.rawlen.toNat := by
  decide
-- positions 0 to 4 have a code, position 5, the last, has none
theorem witness_PackErrorsInOrder_symbol : (loaded.writeRaw 5 [0x64#8]).err = .none ∧
    (loaded.writeRaw 5 [0x64#8]).rawlen.toNat ≤ (loaded.writeRaw 5 [0x64#8]).rawcap.toNat ∧
    5 < (loaded.writeRaw 5 [0x64#8]).rawlen.toNat ∧
    (loaded.writeRaw 5 [0x64#8]).codeOf ((loaded.writeRaw 5 [0x64#8]).rawByte 5) = [] ∧
    ∀ i, i < 5 →
      (loaded.writeRaw 5 [0x64#8]).codeOf ((loaded.writeRaw 5 [0x64#8]).rawByte i) ≠ [] := by
  decide +kernel

/-- Program P1 where PKD has room for one byte and two are needed. -/
def cramped : State :=
  { State.writeRaw { coded with rawcap := 6#32, pkdcap := 1#32 } 0
      [0x61#8, 0x61#8, 0x61#8, 0x62#8, 0x62#8, 0x63#8] with rawlen := 6#32 }

theorem witness_PackErrorsInOrder_output : cramped.err = .none ∧
    cramped.rawlen.toNat ≤ cramped.rawcap.toNat ∧
    (∀ j, j < cramped.rawlen.toNat → cramped.codeOf (cramped.rawByte j) ≠ []) ∧
    cramped.pkdcap.toNat < (((List.range cramped.rawlen.toNat).flatMap
      (fun j => cramped.codeOf (cramped.rawByte j))).length + 7) / 8 := by decide +kernel
theorem witness_PackOfNothingIsEmpty : coded.err = .none ∧ coded.rawlen = 0#32 := by decide
theorem witness_PackReportsTheBitCount :
    (after .pack loaded).map (fun t => (t.err, t.bitcnt)) = some (.none, 9#40) ∧
    (after .pack coded).map (fun t => (t.err, t.bitcnt)) = some (.none, 0#40) := by decide +kernel

/-- Another tree, and a byte at address 6. -/
def retreed (s : State) : State := State.writeRaw { s with root := 0#9 } 6 [0xFF#8]

/-- What PACK reads, but for RAW, is the same. -/
theorem retreed_reads (s : State) : (retreed s).err = s.err ∧ (retreed s).rawlen = s.rawlen ∧
    (retreed s).rawcap = s.rawcap ∧ (retreed s).pkdcap = s.pkdcap ∧ (retreed s).code = s.code :=
  ⟨rfl, rfl, rfl, rfl, rfl⟩

-- two states that differ in the tree and in a byte above RAWLEN
theorem witness_PackReadsOnlyRawAndCode :
    (loaded.err = .none ∧ (retreed loaded).err = .none ∧
      loaded.rawlen = (retreed loaded).rawlen ∧ loaded.rawcap = (retreed loaded).rawcap ∧
      loaded.pkdcap = (retreed loaded).pkdcap ∧ loaded.code = (retreed loaded).code) ∧
    (∀ j, j < loaded.rawlen.toNat → loaded.rawByte j = (retreed loaded).rawByte j) ∧
    (∃ t, exec .pack loaded = .next t) ∧ ∃ t, exec .pack (retreed loaded) = .next t := by
  obtain ⟨h1, h2, h3, h4, h5⟩ := retreed_reads loaded
  exact ⟨⟨rfl, h1, h2.symm, h3.symm, h4.symm, h5.symm⟩, by decide +kernel,
    completes (by decide +kernel), completes (by decide +kernel)⟩

/-- The six codes that PACK laid out. -/
def sixCodes : List (List Bool × Byte) :=
  [([false], 0x61#8), ([false], 0x61#8), ([false], 0x61#8), ([true, true], 0x62#8),
    ([true, true], 0x62#8), ([true, false], 0x63#8)]

/-- All six are codes in the tree of P1, in any state that holds it. -/
theorem sixCodes_treeCodes (s : State) (hn : s.nnodes = 5#10) (hr : s.root = 4#9)
    (h0 : s.nodeAt? 0#9 = some (.leaf 0x61#8 3#40)) (h1 : s.nodeAt? 1#9 = some (.leaf 0x62#8 2#40))
    (h2 : s.nodeAt? 2#9 = some (.leaf 0x63#8 1#40))
    (h3 : s.nodeAt? 3#9 = some (.internal 2#9 1#9 3#40))
    (h4 : s.nodeAt? 4#9 = some (.internal 0#9 3#9 6#40)) :
    ∀ c, c ∈ sixCodes → s.TreeCode c.1 c.2 := by
  have ha : s.TreeCode [false] 0x61#8 :=
    .inr ⟨by decide, _, _, ⟨_, _, _, by rw [hr]; exact h4, by rw [hn]; decide, rfl⟩, h0⟩
  have hb : s.TreeCode [true, true] 0x62#8 :=
    .inr ⟨by decide, _, _, ⟨_, _, _, by rw [hr]; exact h4, by rw [hn]; decide, _, _, _, h3,
      by rw [hn]; decide, rfl⟩, h1⟩
  have hc : s.TreeCode [true, false] 0x63#8 :=
    .inr ⟨by decide, _, _, ⟨_, _, _, by rw [hr]; exact h4, by rw [hn]; decide, _, _, _, h3,
      by rw [hn]; decide, rfl⟩, h2⟩
  intro c hm
  simp only [sixCodes, List.mem_cons, List.not_mem_nil, or_false] at hm
  rcases hm with rfl | rfl | rfl | rfl | rfl | rfl
  exacts [ha, ha, ha, hb, hb, hc]

theorem witness_UnpackFollowsTheTree : packed.err = .none ∧
    packed.pkdlen.toNat ≤ packed.pkdcap.toNat ∧ packed.symcnt.toNat ≤ packed.rawcap.toNat ∧
    packed.nnodes.toNat ≤ 511 ∧ packed.root.toNat < packed.nnodes.toNat ∧
    sixCodes.length = packed.symcnt.toNat ∧ (∀ c, c ∈ sixCodes → packed.TreeCode c.1 c.2) ∧
    sixCodes.flatMap Prod.fst <+: (List.range (8 * packed.pkdlen.toNat)).map packed.pkdBit :=
  ⟨rfl, by decide, by decide, by decide, by decide, rfl,
    sixCodes_treeCodes packed (by decide) (by decide) (by decide +kernel) (by decide +kernel)
      (by decide +kernel) (by decide +kernel) (by decide +kernel), by decide +kernel⟩
theorem witness_UnpackNeverGuesses : packed.err = .none ∧ packed.nnodes.toNat ≤ 511 ∧
    (after .unpack packed).map (fun t => t.err) = some .none := by decide +kernel
-- PKDLEN one above PKD_CAP; SYMCNT one above RAW_CAP; ROOT the least index that is no node
theorem witness_UnpackChecksBoundsThenRoot :
    ({ packed with pkdlen := 4097#32 }.err = .none ∧
      { packed with pkdlen := 4097#32 }.pkdcap.toNat <
        { packed with pkdlen := 4097#32 }.pkdlen.toNat) ∧
    ({ packed with symcnt := 4097#32 }.err = .none ∧
      { packed with symcnt := 4097#32 }.pkdlen.toNat ≤
        { packed with symcnt := 4097#32 }.pkdcap.toNat ∧
      { packed with symcnt := 4097#32 }.rawcap.toNat <
        { packed with symcnt := 4097#32 }.symcnt.toNat) ∧
    { packed with root := 5#9 }.err = .none ∧
    { packed with root := 5#9 }.pkdlen.toNat ≤ { packed with root := 5#9 }.pkdcap.toNat ∧
    { packed with root := 5#9 }.symcnt.toNat ≤ { packed with root := 5#9 }.rawcap.toNat ∧
    0 < { packed with root := 5#9 }.symcnt.toNat ∧
    { packed with root := 5#9 }.nnodes.toNat ≤ { packed with root := 5#9 }.root.toNat := by decide

/-- What `UnpackReportsTheFirstCorruption` asks before its three clauses. -/
def Walked (s : State) (codes : List (List Bool × Byte)) (q rest : List Bool) (j : BitVec 9) : Prop :=
  s.err = .none ∧ s.pkdlen.toNat ≤ s.pkdcap.toNat ∧ s.symcnt.toNat ≤ s.rawcap.toNat ∧
    s.nnodes.toNat ≤ 511 ∧ s.root.toNat < s.nnodes.toNat ∧
    codes.length < s.symcnt.toNat ∧ (∀ c, c ∈ codes → s.TreeCode c.1 c.2) ∧
    (List.range (8 * s.pkdlen.toNat)).map s.pkdBit = codes.flatMap Prod.fst ++ q ++ rest ∧
    s.WalksTo s.root q j

/-- Program P1 with one byte of its stream, 1F, and six symbols asked for. -/
def cut : State := { packed with pkdlen := 1#32 }

-- after aaabb the byte has one bit left, 1: it leads to NODE[3], and no bit follows
theorem witness_UnpackReportsTheFirstCorruption_exhausted :
    Walked cut (sixCodes.take 5) [true] [] 3#9 ∧
    cut.nodeAt? 3#9 = some (.internal 2#9 1#9 3#40) := by
  have h3 : cut.nodeAt? 3#9 = some (.internal 2#9 1#9 3#40) := by decide +kernel
  have h4 : cut.nodeAt? 4#9 = some (.internal 0#9 3#9 6#40) := by decide +kernel
  have hr : cut.root = 4#9 := by decide
  have hw : cut.WalksTo cut.root [true] 3#9 := by
    rw [hr]
    exact ⟨_, _, _, h4, by decide, rfl⟩
  exact ⟨⟨rfl, by decide, by decide, by decide, by decide, by decide,
    fun c hm => sixCodes_treeCodes cut (by decide) hr (by decide +kernel) (by decide +kernel)
      (by decide +kernel) h3 h4 c (List.mem_of_mem_take hm), by decide +kernel, hw⟩, h3⟩
-- two symbols decoded, then a 1 at ROOT: its right child is NIL
theorem witness_UnpackReportsTheFirstCorruption_missing :
    Walked missing [([false], 0x61#8), ([false], 0x61#8)] []
      (true :: [false, false, false, false, false]) missing.root ∧
    missing.nodeAt? missing.root = some (.internal 0#9 511#9 0#40) ∧
    missing.nnodes.toNat ≤ (if true then 511#9 else 0#9 : BitVec 9).toNat := by
  have h : missing.nodeAt? missing.root = some (.internal 0#9 511#9 0#40) ∧
      missing.nodeAt? 0#9 = some (.leaf 0x61#8 0#40) := by decide +kernel
  have hc : missing.TreeCode [false] 0x61#8 :=
    .inr ⟨by decide, _, _, ⟨_, _, _, h.1, by decide, rfl⟩, h.2⟩
  refine ⟨⟨rfl, by decide, by decide, by decide, by decide, by decide, ?_, by decide +kernel, rfl⟩,
    h.1, by decide⟩
  intro c hm
  simp only [List.mem_cons, List.not_mem_nil, or_false, or_self] at hm
  subst hm
  exact hc
-- three symbols decoded, then a 1 where ROOT is a Leaf
theorem witness_UnpackReportsTheFirstCorruption_leafBit :
    Walked leafRoot (List.replicate 3 ([false], 0x78#8)) [] (true :: [false, false, false, false])
      leafRoot.root ∧
    leafRoot.nodeAt? leafRoot.root = some (.leaf 0x78#8 0#40) := by
  have h : leafRoot.nodeAt? leafRoot.root = some (.leaf 0x78#8 0#40) := by decide +kernel
  refine ⟨⟨rfl, by decide, by decide, by decide, by decide, by decide, ?_, by decide +kernel, rfl⟩, h⟩
  intro c hm
  rw [List.eq_of_mem_replicate hm]
  exact .inl ⟨rfl, _, h⟩
theorem witness_UnpackOfNothingIsEmpty : loaded.err = .none ∧ loaded.symcnt = 0#32 ∧
    loaded.pkdlen.toNat ≤ loaded.pkdcap.toNat := by decide

/-- Other contents of CODE and FREQ, of TREE_BUILT and BITCNT, and of PKD at address 2. -/
def altered (s : State) : State :=
  State.writePkd { s with
    code := small.code, freq := small.freq, treeBuilt := false, bitcnt := 0#40 } 2 [0xFF#8]

/-- What UNPACK reads, but for PKD, is the same. -/
theorem altered_reads (s : State) : (altered s).err = s.err ∧ (altered s).pkdlen = s.pkdlen ∧
    (altered s).symcnt = s.symcnt ∧ (altered s).rawcap = s.rawcap ∧ (altered s).pkdcap = s.pkdcap ∧
    (altered s).nnodes = s.nnodes ∧ (altered s).root = s.root ∧ (altered s).node = s.node :=
  ⟨rfl, rfl, rfl, rfl, rfl, rfl, rfl, rfl⟩

theorem witness_UnpackReadsOnlyStreamAndTree :
    (packed.err = .none ∧ (altered packed).err = .none) ∧
    (∀ a, a < packed.pkdlen.toNat → packed.pkdByte a = (altered packed).pkdByte a) ∧
    (∃ t, exec .unpack packed = .next t) ∧ ∃ t, exec .unpack (altered packed) = .next t :=
  ⟨⟨rfl, (altered_reads packed).1⟩, by decide +kernel, completes (by decide +kernel),
    completes (by decide +kernel)⟩
theorem witness_UnpackUndoesPack : loaded.err = .none ∧ 0 < loaded.rawlen.toNat ∧
    loaded.rawlen.toNat ≤ loaded.rawcap.toNat ∧
    (∀ j, j < loaded.rawlen.toNat → loaded.freqAt (loaded.rawByte j) ≠ 0#32) ∧
    (small.err = .none ∧ small.rawlen = 0#32 ∧ small.symcnt = 0#32) := by decide +kernel

/-- The states of `InvariantIsKept` and `NoStepStops`: capacities 4096, an error pending, one word waiting. -/
theorem pending_inv : State.Inv { pending with errinfo := 5#64, commands := [0x0200000000000000#64] } := by
  have hc : ∀ x, pending.codeAt x = CodeEntry.empty := by
    intro x
    simp [State.codeAt, pending, small, State.reset]
  constructor
  · exact List.Pairwise.nil
  · exact List.Pairwise.nil
  · intro c hc; cases hc
  · intro c hc; cases hc
  · decide
  · decide
  · decide
  · intro h; cases h
  · intro h; cases h
  · intro x i _ _
    show (pending.codeAt x).bits.getLsbD (255 - i) = false
    rw [hc]
    simp [CodeEntry.empty]
  · intro a b _ ha
    exact absurd (by show (pending.codeAt a).path = []; rw [hc]; rfl) ha

theorem witness_InvariantIsKept :
    State.Inv { pending with errinfo := 5#64, commands := [0x0200000000000000#64] } ∧
    step { pending with errinfo := 5#64, commands := [0x0200000000000000#64] } =
      .next { small with responses := [0#64] } := ⟨pending_inv, rfl⟩
theorem witness_NoStepStops :
    State.Inv { pending with errinfo := 5#64, commands := [0x0200000000000000#64] } := pending_inv

end Sys2Proof.Tests
end

section
/-! PROOF. One step and the word it takes (00_scope.md R6; 30_encoding.md R70, R73). -/

namespace Sys2Proof.Machine

theorem step_of_commands_nil {s : State} (hs : s.commands = []) : step s = .next s := by
  simp [step, takeCommand, hs]

theorem step_of_commands_cons {s : State} {c : Word} {rest : List Word}
    (hs : s.commands = c :: rest) : step s = runWord c { s with commands := rest } := by
  simp [step, takeCommand, hs]

theorem runWord_of_decode_ok {c : Word} {i : Instr} (hd : decode c = .ok i) (s : State) :
    runWord c s = exec i s := by
  simp [runWord, hd]

/-- Taking the word just placed gives back the state it was placed in. -/
theorem step_sendFirst (s : State) (c : Word) : step (s.sendFirst c) = runWord c s :=
  step_of_commands_cons (s.sendFirst_commands c)

/-- A word given by its own bits is placed unchanged (log entry 5). -/
@[simp] theorem State.withFetchWord_toNat (s : State) (c : Word) :
    s.withFetchWord 64 c.toNat = s.sendFirst c := by
  have hc : tableWord 64 c.toNat = c := by
    rw [tableWord, Nat.mod_eq_of_lt c.isLt, BitVec.ofNat_toNat, BitVec.setWidth_eq]
  rw [State.withFetchWord, hc]

/-- Settles O6: a step is `runWord` on the oldest word, and `runWord` is `exec` on what it decodes to. -/
theorem stepRunsTheDecodedCommand : Obligations.StepRunsTheDecodedCommand := by
  refine ⟨fun s c rest i hs hd => ?taken, fun s hs => step_of_commands_nil hs,
    fun s c i hd => ?placed⟩
  case taken => rw [step_of_commands_cons hs, runWord_of_decode_ok hd]
  case placed => rw [State.withFetchWord_toNat, step_sendFirst, runWord_of_decode_ok hd]

end Sys2Proof.Machine
end

section
/-! PROOF. What each command writes and what it leaves unchanged (10_state.md R23 to R40; 20_memory.md R50). -/

namespace Sys2Proof.Machine

/-! ### Reads after a write elsewhere -/

theorem State.freqAt_setFreq_ne (s : State) {x y : Byte} (n : BitVec 32) (h : y ≠ x) :
    (s.setFreq x n).freqAt y = s.freqAt y :=
  Vector.getElem_set_ne x.isLt y.isLt (fun e => h (BitVec.eq_of_toNat_eq e.symm))

theorem State.nodeAt?_setNode_ne (s : State) {i j : BitVec 9} (e : NodeEntry) (h : j ≠ i) :
    (s.setNode i e).nodeAt? j = s.nodeAt? j :=
  getElem?_setIfInBounds_ne e (fun he => h (BitVec.eq_of_toNat_eq he))

/-- A byte of RAW outside the bytes written is as before. -/
theorem State.rawByte_writeRaw_outside (s : State) {i a : Nat} {vs : List Byte}
    (h : ¬ (i ≤ a ∧ a < i + vs.length)) : (s.writeRaw i vs).rawByte a = s.rawByte a := by
  rw [State.rawByte_writeRaw, if_neg h]

/-- A byte of PKD outside the bytes written is as before. -/
theorem State.pkdByte_writePkd_outside (s : State) {i a : Nat} {vs : List Byte}
    (h : ¬ (i ≤ a ∧ a < i + vs.length)) : (s.writePkd i vs).pkdByte a = s.pkdByte a := by
  rw [State.pkdByte_writePkd, if_neg h]

/-! ### The three ways a command ends -/

theorem Raises.ne_none {i : Instr} {s : State} {e : ErrorCode} {info : Word}
    (h : Raises i s e info) : e ≠ .none := by
  cases h <;> simp

theorem Completes.class_eq {i : Instr} {s u : State} (h : Completes i s u) :
    classOf i = .change := by
  cases h <;> rfl

/-- A command that answers a next state completes, or resets the block, or writes nothing but ERR, ERRINFO and its response. -/
theorem exec_completes_resets_or_keeps {i : Instr} {s t : State} (h : exec i s = .next t) :
    (s.err = .none ∧ ∃ u, Completes i s u ∧ t = u.respond 0#64) ∨
    (i = .srst ∧ t = s.softReset.respond 0#64) ∨
    (i ≠ .srst ∧ (classOf i = .change → ¬ (s.err = .none ∧ t.err = .none)) ∧
      ∃ e info rs, t = { s with err := e, errinfo := info, responses := rs }) := by
  have ne_srst : ∀ {k : CommandClass}, classOf i = k → k ≠ .recover → i ≠ .srst := by
    rintro k hk hne rfl
    exact hne hk.symm
  rcases exec_cases h with ⟨hc, he, rfl⟩ | ⟨-, he, u, hu, rfl⟩ | ⟨hc, -, e, info, hr, rfl⟩ |
    ⟨hc, v, rfl⟩ | ⟨hc, -, rfl⟩ | ⟨rfl, rfl⟩ | ⟨rfl, rfl⟩
  · exact .inr (.inr ⟨ne_srst hc nofun, fun _ hn => he hn.1, _, _, _, rfl⟩)
  · exact .inl ⟨he, u, hu, rfl⟩
  · exact .inr (.inr ⟨ne_srst hc nofun, fun _ hn => hr.ne_none hn.2, _, _, _, rfl⟩)
  · exact .inr (.inr ⟨ne_srst hc nofun, fun hc' => by simp [hc] at hc', _, _, _, rfl⟩)
  · exact .inr (.inr ⟨ne_srst hc nofun, fun hc' => by simp [hc] at hc', _, _, _, rfl⟩)
  · exact .inr (.inl ⟨rfl, rfl⟩)
  · exact .inr (.inr ⟨nofun, nofun, _, _, _, rfl⟩)

/-! ### What a command that completes writes -/

section
variable {i : Instr} {s u : State}

theorem Completes.rawcap_eq (h : Completes i s u) : u.rawcap = s.rawcap := by cases h <;> rfl
theorem Completes.pkdcap_eq (h : Completes i s u) : u.pkdcap = s.pkdcap := by cases h <;> rfl
theorem Completes.commands_eq (h : Completes i s u) : u.commands = s.commands := by cases h <;> rfl
theorem Completes.err_eq (h : Completes i s u) : u.err = s.err := by cases h <;> rfl
theorem Completes.errinfo_eq (h : Completes i s u) : u.errinfo = s.errinfo := by cases h <;> rfl

theorem Completes.of_nnodes_ne (h : Completes i s u) (hne : u.nnodes ≠ s.nnodes) :
    i = .build ∨ ∃ v, i = .wrreg 3#8 v := by
  cases h with
  | build => exact .inl rfl
  | wrregNnodes _ reg val hr => exact .inr ⟨val, hr ▸ rfl⟩
  | _ => exact absurd rfl hne

theorem Completes.of_root_ne (h : Completes i s u) (hne : u.root ≠ s.root) :
    i = .build ∨ ∃ v, i = .wrreg 4#8 v := by
  cases h with
  | build => exact .inl rfl
  | wrregRoot _ reg val hr => exact .inr ⟨val, hr ▸ rfl⟩
  | _ => exact absurd rfl hne

theorem Completes.of_rawlen_ne (h : Completes i s u) (hne : u.rawlen ≠ s.rawlen) :
    i = .unpack ∨ ∃ v, i = .wrreg 5#8 v := by
  cases h with
  | unpack => exact .inl rfl
  | wrregRawlen _ reg val hr => exact .inr ⟨val, hr ▸ rfl⟩
  | _ => exact absurd rfl hne

theorem Completes.of_pkdlen_ne (h : Completes i s u) (hne : u.pkdlen ≠ s.pkdlen) :
    i = .pack ∨ ∃ v, i = .wrreg 6#8 v := by
  cases h with
  | pack => exact .inl rfl
  | wrregPkdlen _ reg val hr => exact .inr ⟨val, hr ▸ rfl⟩
  | _ => exact absurd rfl hne

theorem Completes.of_symcnt_ne (h : Completes i s u) (hne : u.symcnt ≠ s.symcnt) :
    ∃ v, i = .wrreg 7#8 v := by
  cases h with
  | wrregSymcnt _ reg val hr => exact ⟨val, hr ▸ rfl⟩
  | _ => exact absurd rfl hne

theorem Completes.of_bitcnt_ne (h : Completes i s u) (hne : u.bitcnt ≠ s.bitcnt) : i = .pack := by
  cases h with
  | pack => rfl
  | _ => exact absurd rfl hne

theorem Completes.of_freqAt_ne (h : Completes i s u) {x : Byte}
    (hne : u.freqAt x ≠ s.freqAt x) : i = .clrfreq ∨ ∃ n, i = .wrfreq x n := by
  cases h with
  | clrfreq => exact .inl rfl
  | wrfreq _ sym cnt =>
    by_cases hx : x = sym
    · exact .inr ⟨cnt, hx ▸ rfl⟩
    · exact absurd (s.freqAt_setFreq_ne cnt hx) hne
  | _ => exact absurd rfl hne

/-- NNODES after a BUILD: one for each leaf and one for each merge (R121, R124). -/
theorem State.toNat_nnodes_of_built {s : State} (h : s.leaves ≠ []) :
    (BitVec.ofNat 10 (buildTree s.node s.leaves).next).toNat = 2 * s.keys.length - 1 := by
  have := s.length_keys_le
  rw [(s.built h).2.1, BitVec.toNat_ofNat]
  omega

/-- BUILD writes NODE below NNODES only (41_tree_builder.md R129). -/
theorem Completes.of_nodeAt?_ne (h : Completes i s u) {j : BitVec 9}
    (hne : u.nodeAt? j ≠ s.nodeAt? j) :
    (i = .build ∧ j.toNat < u.nnodes.toNat) ∨ ∃ kind pay, i = .wrnode j kind pay := by
  cases h with
  | build _ hl =>
    obtain ⟨hb, hnext, -⟩ := s.built hl
    refine .inl ⟨rfl, Nat.lt_of_not_le fun hj => hne (hb.beyond j.toNat ?_)⟩
    rw [hnext]
    exact s.toNat_nnodes_of_built hl ▸ hj
  | wrnode _ idx kind pay e =>
    by_cases hj : j = idx
    · exact .inr ⟨kind, pay, hj ▸ rfl⟩
    · exact absurd (s.nodeAt?_setNode_ne e hj) hne
  | _ => exact absurd rfl hne

/-- ASSIGN alone writes CODE, and it writes the codes of the built tree. -/
theorem Completes.of_code_ne (h : Completes i s u) (hne : u.code ≠ s.code) :
    i = .assign ∧ s.treeBuilt = true ∧ assignCodes s = .ok u.code := by
  cases h with
  | assign _ codes hb hc => exact ⟨rfl, hb, hc⟩
  | _ => exact absurd rfl hne

theorem State.codeAt_congr {s t : State} (h : t.code = s.code) (x : Byte) :
    t.codeAt x = s.codeAt x := by
  simp [State.codeAt, h]

/-- UNPACK writes RAW below SYMCNT only (44_bit_unpacker.md R170). -/
theorem Completes.of_rawByte_ne (h : Completes i s u) {a : Nat}
    (hne : u.rawByte a ≠ s.rawByte a) :
    (i = .unpack ∧ a < s.symcnt.toNat) ∨ ∃ addr d, i = .wrraw addr d ∧ a = addr.toNat := by
  cases h with
  | unpack _ out _ _ _ hd =>
    refine .inl ⟨rfl, Nat.lt_of_not_le fun ha => hne (s.rawByte_writeRaw_outside ?_)⟩
    rw [decodeSymbols_length hd]
    omega
  | wrraw _ addr data =>
    refine .inr ⟨addr, data, rfl, by_contra fun ha => hne (s.rawByte_writeRaw_outside ?_)⟩
    simp only [List.length_singleton]
    omega
  | _ => exact absurd rfl hne

/-- PACK writes PKD below the new PKDLEN only (43_bit_packer.md R149). -/
theorem Completes.of_pkdByte_ne (h : Completes i s u) {a : Nat}
    (hne : u.pkdByte a ≠ s.pkdByte a) :
    (i = .pack ∧ a < u.pkdlen.toNat) ∨ ∃ addr d, i = .wrpkd addr d ∧ a = addr.toNat := by
  cases h with
  | pack _ _ _ hn =>
    refine .inl ⟨rfl, Nat.lt_of_not_le fun ha => hne (s.pkdByte_writePkd_outside ?_)⟩
    have := s.pkdcap.isLt
    simp only [BitVec.toNat_ofNat, length_bytesOfBits] at ha ⊢
    omega
  | wrpkd _ addr data =>
    refine .inr ⟨addr, data, rfl, by_contra fun ha => hne (s.pkdByte_writePkd_outside ?_)⟩
    simp only [List.length_singleton]
    omega
  | _ => exact absurd rfl hne

end

/-! ### TREE_BUILT -/

/-- The commands that clear TREE_BUILT where they complete (10_state.md R26). -/
def ClearsTree (i : Instr) : Prop :=
  (∃ idx kind pay, i = .wrnode idx kind pay) ∨ (∃ val, i = .wrreg 3#8 val) ∨
    ∃ val, i = .wrreg 4#8 val

theorem ClearsTree.class_eq {i : Instr} (h : ClearsTree i) : classOf i = .change := by
  rcases h with ⟨_, _, _, rfl⟩ | ⟨_, rfl⟩ | ⟨_, rfl⟩ <;> rfl

theorem ClearsTree.ne_build {i : Instr} (h : ClearsTree i) : i ≠ .build := by
  rcases h with ⟨_, _, _, rfl⟩ | ⟨_, rfl⟩ | ⟨_, rfl⟩ <;> simp

/-- A command that completes sets TREE_BUILT, clears it, or leaves it. -/
theorem Completes.treeBuilt_cases {i : Instr} {s u : State} (h : Completes i s u) :
    (i = .build ∧ u.treeBuilt = true) ∨ (ClearsTree i ∧ u.treeBuilt = false) ∨
    (i ≠ .build ∧ ¬ ClearsTree i ∧ u.treeBuilt = s.treeBuilt) := by
  cases h with
  | build => exact .inl ⟨rfl, rfl⟩
  | wrnode _ idx kind pay => exact .inr (.inl ⟨.inl ⟨idx, kind, pay, rfl⟩, rfl⟩)
  | wrregNnodes _ reg val hr => exact .inr (.inl ⟨.inr (.inl ⟨val, hr ▸ rfl⟩), rfl⟩)
  | wrregRoot _ reg val hr => exact .inr (.inl ⟨.inr (.inr ⟨val, hr ▸ rfl⟩), rfl⟩)
  | _ => exact .inr (.inr ⟨by simp, by simp [ClearsTree, *], rfl⟩)

/-- Settles O30: a command that completes sets, clears or keeps the flag, SRST clears it, and any other command keeps it. -/
theorem treeBuiltIsSetByBuildAlone : Obligations.TreeBuiltIsSetByBuildAlone := by
  intro i s t h
  change t.treeBuilt = true ↔ (i = .build ∧ s.err = .none ∧ t.err = .none) ∨
    (s.treeBuilt = true ∧ i ≠ .srst ∧ ¬ (s.err = .none ∧ t.err = .none ∧ ClearsTree i))
  rcases exec_completes_resets_or_keeps h with
    ⟨he, u, hu, rfl⟩ | ⟨rfl, rfl⟩ | ⟨hne, hend, e, info, rs, rfl⟩
  · have hsrst : i ≠ .srst := by
      rintro rfl
      exact nomatch hu.class_eq
    have hterr : u.err = .none := hu.err_eq.trans he
    rcases hu.treeBuilt_cases with ⟨hi, ht⟩ | ⟨hi, ht⟩ | ⟨hi, hc, ht⟩
    · simp [he, hterr, hi, ht]
    · simp [he, hterr, hi, ht, hi.ne_build]
    · simp [he, hterr, hi, ht, hc, hsrst]
  · simp
  · have hbuild : ¬ (i = .build ∧ s.err = .none ∧ e = .none) :=
      fun ⟨hi, hn⟩ => hend (hi ▸ rfl) hn
    have hclear : ¬ (s.err = .none ∧ e = .none ∧ ClearsTree i) :=
      fun ⟨hs, ht, hi⟩ => hend hi.class_eq ⟨hs, ht⟩
    simp [hbuild, hclear, hne]

/-! ### ERR and ERRINFO -/

/-- ERR and ERRINFO after a command: as before, cleared by CLRERR or SRST, or written by a command that raises. -/
theorem exec_err_cases {i : Instr} {s t : State} (h : exec i s = .next t) :
    (t.err = s.err ∧ t.errinfo = s.errinfo) ∨
    ((i = .clrerr ∨ i = .srst) ∧ t.err = .none ∧ t.errinfo = 0#64) ∨
    (s.err = .none ∧ t.err ≠ .none) := by
  rcases exec_cases h with ⟨-, -, rfl⟩ | ⟨-, -, u, hu, rfl⟩ | ⟨-, he, e, info, hr, rfl⟩ |
    ⟨-, v, rfl⟩ | ⟨-, he, rfl⟩ | ⟨rfl, rfl⟩ | ⟨rfl, rfl⟩
  · exact .inl ⟨rfl, rfl⟩
  · exact .inl ⟨hu.err_eq, hu.errinfo_eq⟩
  · exact .inr (.inr ⟨he, hr.ne_none⟩)
  · exact .inl ⟨rfl, rfl⟩
  · exact .inr (.inr ⟨he, nofun⟩)
  · exact .inr (.inl ⟨.inr rfl, rfl, rfl⟩)
  · exact .inr (.inl ⟨.inl rfl, rfl, rfl⟩)

/-- ERR and ERRINFO change only under CLRERR, SRST or a command that raises. -/
theorem exec_of_err_or_errinfo_ne {i : Instr} {s t : State} (h : exec i s = .next t)
    (hne : t.err ≠ s.err ∨ t.errinfo ≠ s.errinfo) :
    i = .clrerr ∨ i = .srst ∨ (s.err = .none ∧ t.err ≠ .none) := by
  rcases exec_err_cases h with ⟨he, hi⟩ | ⟨hi, -⟩ | hr
  · exact absurd hne (by simp [he, hi])
  · exact or_assoc.mp (.inl hi)
  · exact .inr (.inr hr)

/-! ### The frame of every command -/

/-- Settles O31: field by field, by the three ways a command ends. -/
theorem onlyTheseCommandsWrite : Obligations.OnlyTheseCommandsWrite := by
  intro i s t h
  have herr : t.err ≠ s.err → _ := fun hne => exec_of_err_or_errinfo_ne h (.inl hne)
  have hinfo : t.errinfo ≠ s.errinfo → _ := fun hne => exec_of_err_or_errinfo_ne h (.inr hne)
  rcases exec_completes_resets_or_keeps h with
    ⟨-, u, hu, rfl⟩ | ⟨rfl, rfl⟩ | ⟨-, -, e, info, rs, rfl⟩
  · refine ⟨hu.rawcap_eq, hu.pkdcap_eq, hu.commands_eq, herr, hinfo, fun hne => ?_,
      fun hne => (hu.of_nnodes_ne hne).imp_right .inr,
      fun hne => (hu.of_root_ne hne).imp_right .inr,
      fun hne => (hu.of_rawlen_ne hne).imp_right .inr,
      fun hne => (hu.of_pkdlen_ne hne).imp_right .inr,
      fun hne => .inr (hu.of_symcnt_ne hne), fun hne => .inl (hu.of_bitcnt_ne hne),
      fun x hne => (hu.of_freqAt_ne hne).imp_right .inr,
      fun j hne => .inr (hu.of_nodeAt?_ne hne),
      fun x hne => .inl (hu.of_code_ne fun hc => hne (State.codeAt_congr hc x)).1,
      fun a => hu.of_rawByte_ne, fun a => hu.of_pkdByte_ne⟩
    rcases hu.treeBuilt_cases with ⟨hi, -⟩ | ⟨hi, -⟩ | ⟨-, -, ht⟩
    · exact .inl hi
    · exact .inr (.inr hi)
    · exact absurd ht hne
  · exact ⟨rfl, rfl, rfl, herr, hinfo, fun _ => .inr (.inl rfl), fun _ => .inr (.inl rfl),
      fun _ => .inr (.inl rfl), fun _ => .inr (.inl rfl), fun _ => .inr (.inl rfl),
      fun _ => .inl rfl, fun _ => .inr rfl, fun _ _ => .inr (.inl rfl), fun _ _ => .inl rfl,
      fun _ _ => .inr rfl, fun _ hne => absurd rfl hne, fun _ hne => absurd rfl hne⟩
  · exact ⟨rfl, rfl, rfl, herr, hinfo, fun hne => absurd rfl hne, fun hne => absurd rfl hne,
      fun hne => absurd rfl hne, fun hne => absurd rfl hne, fun hne => absurd rfl hne,
      fun hne => absurd rfl hne, fun hne => absurd rfl hne, fun _ hne => absurd rfl hne,
      fun _ hne => absurd rfl hne, fun _ hne => absurd rfl hne, fun _ hne => absurd rfl hne,
      fun _ hne => absurd rfl hne⟩

/-! ### STATUS -/

/-- Settles O13: STATUS is a concatenation of three fields, read as a number field by field. -/
theorem statusWordLayout : Obligations.StatusWordLayout := by
  refine ⟨fun s => ?_, rfl, rfl, rfl, rfl, rfl, rfl⟩
  have hflag : (0#59 ++ BitVec.ofBool s.treeBuilt).toNat <<< 4 = if s.treeBuilt then 16 else 0 := by
    cases s.treeBuilt <;> rfl
  rw [State.status, BitVec.toNat_cast, BitVec.toNat_append,
    ← Nat.shiftLeft_add_eq_or_of_lt s.err.number.isLt, hflag]
  exact Nat.add_comm _ _

end Sys2Proof.Machine
end

section
/-! PROOF. Every step keeps the invariant: the codes ASSIGN writes are padded and none begins another, the tree BUILD writes is well-formed, and every store stays inside its buffer (10_state.md R25 to R37; 20_memory.md R56). -/

namespace Sys2Proof.Machine

/-! ### The codes ASSIGN writes -/

theorem CodeEntry.empty_padded : CodeEntry.empty.Padded := fun i _ _ => by
  simp [CodeEntry.empty]

/-- Whether no code begins another depends on CODE only. -/
theorem State.PrefixFree.congr {s t : State} (h : s.PrefixFree) (hc : t.code = s.code) :
    t.PrefixFree := by
  intro a b hab
  simp only [State.codeOf, State.codeAt_congr hc]
  exact h a b hab

/-- The entry of a bit string is zero beyond it (10_state.md R36). -/
theorem CodeEntry.ofPath_padded {p : List Bool} (h : p.length ≤ 255) :
    (CodeEntry.ofPath p).Padded := by
  intro i hi hlt
  rw [← CodeEntry.length_path, CodeEntry.ofPath_path p h] at hi
  rw [CodeEntry.ofPath, leftAligned_getLsbD p i hlt, List.getD_eq_default _ _ hi]

/-- A path to a Leaf does not go on. -/
theorem State.pathTo_append {s : State} {i : BitVec 9} {p q : List Bool} {a b : Byte}
    (ha : s.PathTo i p a) (hb : s.PathTo i (p ++ q) b) : a = b := by
  obtain ⟨j, v, hp, hj⟩ := ha
  obtain ⟨k, w, hpq, hk⟩ := hb
  obtain ⟨m, hm, hq⟩ := State.walksTo_append.mp hpq
  obtain rfl := State.walksTo_end hp hm
  obtain ⟨-, rfl⟩ := State.walksTo_leaf hj hq
  rw [hj] at hk
  exact (NodeEntry.leaf.inj (Option.some.inj hk)).1

/-- No code of a tree begins another symbol's code (42_code_assigner.md R139). -/
theorem State.TreeCode.eq_of_prefix {s : State} {p q : List Bool} {a b : Byte}
    (ha : s.TreeCode p a) (hb : s.TreeCode q b) (h : p <+: q) : a = b := by
  obtain ⟨q, rfl⟩ := h
  rcases ha with ⟨rfl, v, hv⟩ | ⟨hne, hp⟩ <;> rcases hb with ⟨hpq, w, hw⟩ | ⟨hne', hq⟩
  · rw [hv] at hw
    exact (NodeEntry.leaf.inj (Option.some.inj hw)).1
  · exact absurd ((State.pathTo_leaf hv _).mp hq).1 hne'
  · exact absurd ((State.pathTo_leaf hw _).mp hp).1 hne
  · exact State.pathTo_append hp hq

/-- What ASSIGN writes for a symbol of a well-formed tree: its code in the tree, or nothing. -/
theorem State.TreeWellFormed.codeAt_cases {s t : State} (h : s.TreeWellFormed)
    (ht : assignCodes s = .ok t.code) (x : Byte) :
    (s.TreeCode (t.codeOf x) x ∧ (t.codeAt x).Padded) ∨ t.codeAt x = CodeEntry.empty := by
  obtain ⟨codes, hc, hx⟩ := assignCodes_spec h
  obtain rfl : codes = t.code := Except.ok.inj (hc.symm.trans ht)
  rcases hx x with ⟨q, hq, hlen, he⟩ | ⟨-, he⟩
  · have hlen : q.length ≤ 255 := by
      have := h.legal
      unfold State.leafCount at hlen
      omega
    have he : t.codeAt x = CodeEntry.ofPath q := he
    rw [State.codeOf, he, CodeEntry.ofPath_path q hlen]
    exact .inl ⟨hq, CodeEntry.ofPath_padded hlen⟩
  · exact .inr he

theorem State.TreeWellFormed.assigned_padded {s t : State} (h : s.TreeWellFormed)
    (ht : assignCodes s = .ok t.code) (x : Byte) : (t.codeAt x).Padded := by
  rcases h.codeAt_cases ht x with ⟨-, hp⟩ | he
  · exact hp
  · exact he ▸ CodeEntry.empty_padded

theorem State.TreeWellFormed.assigned_prefixFree {s t : State} (h : s.TreeWellFormed)
    (ht : assignCodes s = .ok t.code) : t.PrefixFree := by
  have code : ∀ x, t.codeOf x ≠ [] → s.TreeCode (t.codeOf x) x := by
    intro x hx
    rcases h.codeAt_cases ht x with ⟨hc, -⟩ | he
    · exact hc
    · exact absurd (by rw [State.codeOf, he, CodeEntry.path_empty]) hx
  exact fun a b hab ha hb hpre => hab ((code a ha).eq_of_prefix (code b hb) hpre)

/-! ### The tree BUILD writes -/

/-- The well-formedness of a tree speaks of NODE, ROOT and NNODES only (10_state.md R34). -/
theorem State.TreeWellFormed.congr {s t : State} (h : s.TreeWellFormed) (hnode : t.node = s.node)
    (hroot : t.root = s.root) (hnn : t.nnodes = s.nnodes) : t.TreeWellFormed := by
  cases s
  cases t
  simp only at hnode hroot hnn
  subst hnode hroot hnn
  exact ⟨h.legal, h.odd, h.leaf, h.ascending, h.internal, h.oneParent, h.rootNoParent, h.rootLast⟩

theorem weight_eq_weightAt {nodes : Arena} {i : Nat} {e : NodeEntry} (h : nodes[i]? = some e) :
    e.weight = weightAt nodes i := by
  simp [weightAt, h]

/-- A finished build that is stored with its last node as ROOT is a well-formed tree, if the leaves' symbols rise (41_tree_builder.md R128; 10_state.md R34). -/
theorem Built.treeWellFormed {base : Arena} {ls : List NodeEntry} {b : BuildState} {t : State}
    (hb : Built base ls b) (hlive : b.live = [b.next - 1]) (hlen : ls.length ≤ 256)
    (hasc : ∀ (i j : Nat) (x y : Byte) (v w : BitVec 40), i < j → ls[i]? = some (.leaf x v) →
      ls[j]? = some (.leaf y w) → x.toNat < y.toNat)
    (hnode : t.node = b.nodes) (hnn : t.nnodes.toNat = b.next)
    (hroot : t.root.toNat = b.next - 1) : t.TreeWellFormed := by
  have hcount : b.next + 1 = 2 * ls.length := by simpa [hlive] using hb.count
  have hleaves : t.leafCount = ls.length := by
    unfold State.leafCount
    omega
  have hchild : ∀ k j, t.childOf k j = hasChild b.nodes k j := fun k j => by
    rw [State.childOf, hnode]
    rfl
  have hentry : ∀ k, k < b.next → ∃ e, b.nodes[k]? = some e := fun k hk =>
    ⟨_, Vector.getElem?_eq_getElem (by omega)⟩
  constructor
  case legal => omega
  case odd => omega
  case leaf =>
    intro i hi
    rw [hleaves] at hi
    rw [hnode, hb.leaves i hi, List.getElem?_eq_getElem hi]
    obtain ⟨x, w, he⟩ := hb.areLeaves _ (List.getElem_mem hi)
    exact ⟨x, w, congrArg some he⟩
  case ascending =>
    intro i j x v y w hij hj hi' hj'
    rw [hleaves] at hj
    rw [hnode, hb.leaves _ (by omega)] at hi' hj'
    exact hasc i j x y v w hij hi' hj'
  case internal =>
    intro k hk hk'
    rw [hleaves] at hk
    rw [hnn] at hk'
    obtain ⟨l, r, w, he, hl, hr, hlr, hw, -⟩ := (hb.merged k hk hk').merged
    obtain ⟨el, hel⟩ := hentry l.toNat (by omega)
    obtain ⟨er, her⟩ := hentry r.toNat (by omega)
    rw [← weight_eq_weightAt hel, ← weight_eq_weightAt her] at hw
    rw [hnode]
    exact ⟨l, r, w, el, er, he, hl, hr, hlr, hel, her, hw⟩
  case oneParent =>
    intro j hj
    rw [hnn] at hj ⊢
    have hnot : j ∉ b.live := by
      rw [hlive, List.mem_singleton]
      omega
    rw [hb.live j (by omega)] at hnot
    push Not at hnot
    obtain ⟨k, hk, hkj⟩ := hnot
    refine ⟨k, ⟨hk, hchild k j ▸ hkj⟩, fun k' ⟨hk', hkj'⟩ => ?_⟩
    exact hb.oneParent j k' k hk' hk (hchild k' j ▸ hkj') hkj
  case rootNoParent =>
    intro k hk
    rw [hnn] at hk ⊢
    rw [hchild]
    exact (hb.live (b.next - 1) (by omega)).mp (by simp [hlive]) k hk
  case rootLast => omega

/-- The leaves' symbols rise with their index (41_tree_builder.md R121). -/
theorem State.leaves_ascending (s : State) {i j : Nat} {x y : Byte} {v w : BitVec 40} (hij : i < j)
    (hi : s.leaves[i]? = some (.leaf x v)) (hj : s.leaves[j]? = some (.leaf y w)) :
    x.toNat < y.toNat := by
  simp only [State.leaves, List.getElem?_map, Option.map_eq_some_iff, NodeEntry.leaf.injEq] at hi hj
  obtain ⟨x, hx, rfl, -⟩ := hi
  obtain ⟨y, hy, rfl, -⟩ := hj
  obtain ⟨hi, rfl⟩ := List.getElem?_eq_some_iff.mp hx
  obtain ⟨hj, rfl⟩ := List.getElem?_eq_some_iff.mp hy
  exact List.pairwise_iff_getElem.mp s.keys_ascending i j hi hj hij

/-- BUILD leaves a well-formed tree (41_tree_builder.md R128). -/
theorem Completes.build_treeWellFormed {s u : State} (h : Completes .build s u) :
    u.TreeWellFormed := by
  cases h with
  | build _ hl =>
    obtain ⟨hb, hnext, hlive⟩ := s.built hl
    have hpos : 0 < s.keys.length := by
      rw [← s.length_leaves]
      exact List.length_pos_iff.mpr hl
    have hlen := s.length_keys_le
    refine hb.treeWellFormed ?_ ?_ (fun i j x y v w => s.leaves_ascending) rfl ?_ ?_
    · rw [hlive, hnext]
      congr 1
    · rwa [s.length_leaves]
    · rw [s.toNat_nnodes_of_built hl, hnext]
    · simp only [hlive, hnext, List.headD_cons, BitVec.toNat_ofNat]
      omega

/-! ### What a command that completes keeps -/

section
variable {i : Instr} {s u : State}

/-- RAW is stored to inside RAW_CAP only (20_memory.md R56). -/
theorem Completes.raw_eq_writeAll (h : Completes i s u) :
    ∃ a vs, u.raw = Memory.writeAll s.raw a vs ∧ a + vs.length ≤ s.rawcap.toNat := by
  cases h with
  | wrraw _ addr data hlt => exact ⟨_, _, rfl, hlt⟩
  | unpack _ out _ hs _ hd =>
    exact ⟨_, _, rfl, by rw [decodeSymbols_length hd]; omega⟩
  | _ => exact ⟨0, [], rfl, Nat.zero_le _⟩

/-- PKD is stored to inside PKD_CAP only (20_memory.md R56). -/
theorem Completes.pkd_eq_writeAll (h : Completes i s u) :
    ∃ a vs, u.pkd = Memory.writeAll s.pkd a vs ∧ a + vs.length ≤ s.pkdcap.toNat := by
  cases h with
  | wrpkd _ addr data hlt => exact ⟨_, _, rfl, hlt⟩
  | pack _ _ _ hn => exact ⟨_, _, rfl, by rw [length_bytesOfBits]; omega⟩
  | _ => exact ⟨0, [], rfl, Nat.zero_le _⟩

/-- A tree marked built after a command is the one BUILD has just written, or the one that was marked built before. -/
theorem Completes.tree_eq (h : Completes i s u) (hb : u.treeBuilt = true) :
    i = .build ∨ (s.treeBuilt = true ∧ u.node = s.node ∧ u.root = s.root ∧ u.nnodes = s.nnodes) := by
  cases h with
  | build => exact .inl rfl
  | wrnode | wrregNnodes | wrregRoot => exact nomatch hb
  | _ => exact .inr ⟨hb, rfl, rfl, rfl⟩

theorem Completes.nnodes_le (h : Completes i s u) (hs : s.nnodes.toNat ≤ 511) :
    u.nnodes.toNat ≤ 511 := by
  cases h with
  | build _ hl =>
    have := s.length_keys_le
    rw [s.toNat_nnodes_of_built hl]
    omega
  | wrregNnodes _ reg val hr hv =>
    simp only [BitVec.toNat_setWidth]
    omega
  | _ => exact hs

/-- A command that completes keeps the invariant. -/
theorem Completes.inv (h : Completes i s u) (hs : s.Inv) : u.Inv := by
  obtain ⟨a, vs, hraw, ha⟩ := h.raw_eq_writeAll
  obtain ⟨a', vs', hpkd, ha'⟩ := h.pkd_eq_writeAll
  have hcode : u.code = s.code ∨ (s.TreeWellFormed ∧ assignCodes s = .ok u.code) := by
    by_cases hc : u.code = s.code
    · exact .inl hc
    · obtain ⟨-, hb, ht⟩ := h.of_code_ne hc
      exact .inr ⟨hs.builtTree hb, ht⟩
  constructor
  case rawCanonical => exact hraw ▸ Memory.wf_writeAll hs.rawCanonical a vs
  case pkdCanonical => exact hpkd ▸ Memory.wf_writeAll hs.pkdCanonical a' vs'
  case rawInside =>
    rw [hraw, h.rawcap_eq]
    exact Memory.inside_writeAll hs.rawInside a vs ha
  case pkdInside =>
    rw [hpkd, h.pkdcap_eq]
    exact Memory.inside_writeAll hs.pkdInside a' vs' ha'
  case rawcapPos => exact h.rawcap_eq ▸ hs.rawcapPos
  case pkdcapPos => exact h.pkdcap_eq ▸ hs.pkdcapPos
  case nnodesLegal => exact h.nnodes_le hs.nnodesLegal
  case errinfoZero =>
    rw [h.err_eq, h.errinfo_eq]
    exact hs.errinfoZero
  case builtTree =>
    intro hb
    rcases h.tree_eq hb with rfl | ⟨hb, hnode, hroot, hnn⟩
    · exact h.build_treeWellFormed
    · exact (hs.builtTree hb).congr hnode hroot hnn
  case codePadded =>
    intro x
    rcases hcode with hc | ⟨hwf, ht⟩
    · exact State.codeAt_congr hc x ▸ hs.codePadded x
    · exact hwf.assigned_padded ht x
  case codePrefixFree =>
    rcases hcode with hc | ⟨hwf, ht⟩
    · exact hs.codePrefixFree.congr hc
    · exact hwf.assigned_prefixFree ht

end

/-! ### What every step keeps -/

/-- The invariant speaks of neither channel, and of ERR and ERRINFO only that ERRINFO is 0 without an error (10_state.md R25). -/
theorem State.Inv.report {s : State} (h : s.Inv) {e : ErrorCode} {info : Word} (cs rs : List Word)
    (hzero : e = .none → info = 0#64) :
    State.Inv { s with err := e, errinfo := info, commands := cs, responses := rs } where
  rawCanonical := h.rawCanonical
  pkdCanonical := h.pkdCanonical
  rawInside := h.rawInside
  pkdInside := h.pkdInside
  rawcapPos := h.rawcapPos
  pkdcapPos := h.pkdcapPos
  nnodesLegal := h.nnodesLegal
  errinfoZero := hzero
  builtTree hb := (h.builtTree hb).congr rfl rfl rfl
  codePadded := h.codePadded
  codePrefixFree := h.codePrefixFree

theorem State.Inv.respond {s : State} (h : s.Inv) (r : Word) : (s.respond r).Inv :=
  h.report _ _ h.errinfoZero

/-- SRST writes an empty CODE and marks no tree as built (40_system_and_access.md R91). -/
theorem State.Inv.softReset {s : State} (h : s.Inv) : s.softReset.Inv := by
  have hcode : ∀ x, s.softReset.codeAt x = CodeEntry.empty := fun x => by simp [State.codeAt]
  exact {
    rawCanonical := h.rawCanonical
    pkdCanonical := h.pkdCanonical
    rawInside := h.rawInside
    pkdInside := h.pkdInside
    rawcapPos := h.rawcapPos
    pkdcapPos := h.pkdcapPos
    nnodesLegal := Nat.zero_le _
    errinfoZero := fun _ => rfl
    builtTree := nofun
    codePadded := fun x => hcode x ▸ CodeEntry.empty_padded
    codePrefixFree := fun a _ _ ha =>
      absurd (by rw [State.codeOf, hcode, CodeEntry.path_empty]) ha }

/-- Every command keeps the invariant. -/
theorem exec_inv {i : Instr} {s t : State} (h : exec i s = .next t) (hs : s.Inv) : t.Inv := by
  have hzero : t.err = .none → t.errinfo = 0#64 := by
    intro ht
    rcases exec_err_cases h with ⟨he, hinfo⟩ | ⟨-, -, hinfo⟩ | ⟨-, hne⟩
    · exact hinfo.trans (hs.errinfoZero (he.symm.trans ht))
    · exact hinfo
    · exact absurd ht hne
  rcases exec_completes_resets_or_keeps h with
    ⟨-, u, hu, rfl⟩ | ⟨-, rfl⟩ | ⟨-, -, e, info, rs, rfl⟩
  · exact (hu.inv hs).respond _
  · exact hs.softReset.respond _
  · exact hs.report _ _ hzero

/-- A word that may not be executed keeps the invariant: it is dropped or raises an error. -/
theorem State.Inv.illegalWord {s : State} (h : s.Inv) (c : Word) : (s.illegalWord c).Inv := by
  by_cases he : s.err = .none
  · rw [State.illegalWord_clear he]
    exact h.report _ _ nofun
  · rw [State.illegalWord_pending he]
    exact h.respond _

/-- Settles O59: a step waits, rejects a word or executes a command, and taking a word off the channel touches no clause of the invariant. The canonical form of RAW and PKD is log entry 3's. -/
theorem invariantIsKept : Obligations.InvariantIsKept := by
  intro s t hs h
  have htaken : ∀ rest, State.Inv { s with commands := rest } := fun rest =>
    hs.report rest _ hs.errinfoZero
  rcases step_cases s with ⟨-, hidle⟩ | ⟨c, rest, r, -, -, hreject⟩ | ⟨c, rest, i, -, -, hexec⟩
  · obtain rfl := Host.Outcome.next.inj (hidle.symm.trans h)
    exact hs
  · obtain rfl := Host.Outcome.next.inj (hreject.symm.trans h)
    exact (htaken rest).illegalWord c
  · exact exec_inv (hexec.symm.trans h) (htaken rest)

end Sys2Proof.Machine
end

section
/-! PROOF. The opcode map and the word formats: no word meets two rows, and decoding and encoding undo each other (30_encoding.md R71 to R76). -/

namespace Sys2Proof

open BitVec

/-! ### The rows of the opcode map -/

/-- A row looks at all of OP, so the word it takes has the row's OP (30_encoding.md R74). -/
theorem opOf_eq_of_matches {r : OpRow} (hr : r ∈ opcodeTable) {c : Word}
    (h : c &&& r.mask = r.pattern) : opOf c = opOf r.pattern := by
  have hmask : ∀ r ∈ opcodeTable, opOf r.mask = allOnes 8 := by decide
  calc opOf c = opOf c &&& opOf r.mask := by rw [hmask r hr, and_allOnes]
    _ = opOf (c &&& r.mask) := extractLsb'_and.symm
    _ = opOf r.pattern := by rw [h]

/-- Every row has an OP of its own (30_encoding.md R74). -/
theorem opcodes_nodup : (opcodeTable.map (fun r => opOf r.pattern)).Nodup := by decide

/-- At most one row takes a word. -/
theorem row_unique {r q : OpRow} (hr : r ∈ opcodeTable) (hq : q ∈ opcodeTable) {c : Word}
    (hrc : c &&& r.mask = r.pattern) (hqc : c &&& q.mask = q.pattern) : r = q :=
  List.inj_on_of_nodup_map opcodes_nodup hr hq
    ((opOf_eq_of_matches hr hrc).symm.trans (opOf_eq_of_matches hq hqc))

/-- Settles O4: each row looks at all of OP, and no two rows have the same OP. -/
theorem rowsAreDisjoint : Obligations.RowsAreDisjoint := by
  have hops := List.pairwise_map.mp opcodes_nodup
  exact ⟨rfl, hops.imp_of_mem fun hr hq hne c ⟨hrc, hqc⟩ =>
    hne ((opOf_eq_of_matches hr hrc).symm.trans (opOf_eq_of_matches hq hqc))⟩

/-! ### What the decoder answers -/

@[simp] theorem rowMatches_iff {c : Word} {r : OpRow} :
    rowMatches c r = true ↔ c &&& r.mask = r.pattern := beq_iff_eq

/-- The decoder answers a command exactly where a row takes the word and makes it. -/
theorem decode_eq_ok_iff {c : Word} {i : Instr} :
    decode c = .ok i ↔ ∃ r ∈ opcodeTable, c &&& r.mask = r.pattern ∧ r.make c = i := by
  constructor
  · intro h
    unfold decode at h
    split at h
    · next r hr =>
      exact ⟨r, List.mem_of_find?_eq_some hr, rowMatches_iff.mp (List.find?_some hr),
        Except.ok.inj h⟩
    · split at h <;> cases h
  · rintro ⟨r, hr, hc, rfl⟩
    have hfind : opcodeTable.find? (rowMatches c) = some r := by
      obtain ⟨q, hq⟩ := Option.isSome_iff_exists.mp
        (List.find?_isSome.mpr ⟨r, hr, rowMatches_iff.mpr hc⟩)
      rw [hq, row_unique (List.mem_of_find?_eq_some hq) hr
        (rowMatches_iff.mp (List.find?_some hq)) hc]
    simp [decode, hfind]

/-- The decoder rejects a word that no row takes (30_encoding.md R75). -/
theorem decode_eq_error_of_no_row {c : Word}
    (h : ∀ r ∈ opcodeTable, c &&& r.mask ≠ r.pattern) : ∃ e, decode c = .error e := by
  cases hd : decode c with
  | error e => exact ⟨e, rfl⟩
  | ok i =>
    obtain ⟨r, hr, hc, -⟩ := decode_eq_ok_iff.mp hd
    exact absurd hc (h r hr)

/-! ### The fields of a word -/

/-- A field at its place in the word, its lowest bit at bit `lo` (30_encoding.md R72). -/
def place {n : Nat} (lo : Nat) (x : BitVec n) : Word := x.setWidth 64 <<< lo

theorem place_zero (n lo : Nat) : place lo 0#n = 0#64 := by simp [place]

/-- A word is the or of its fields, each at its place. -/
theorem place_append {n m : Nat} (lo : Nat) (x : BitVec n) (y : BitVec m) :
    place lo (x ++ y) = place (lo + m) x ||| place lo y := by
  ext j hj
  simp only [place, getElem_shiftLeft, getElem_setWidth, getLsbD_append, getElem_or]
  grind

theorem cast_eq_place {n : Nat} (h : n = 64) (x : BitVec n) : x.cast h = place 0 x := by
  subst h
  simp [place]

/-- A field read from a word and put back at its place gives the word's bits there. -/
theorem place_extractLsb' (c : Word) (lo n : Nat) :
    place lo (c.extractLsb' lo n) = c &&& place lo (allOnes n) := by
  ext j hj
  simp only [place, getElem_shiftLeft, getElem_setWidth, getElem_and, getLsbD_extractLsb',
    getLsbD_allOnes]
  grind

/-- The word of the command a row makes from a word: the row's pattern, and of the word the bits the row does not look at. -/
theorem encode_make {r : OpRow} (hr : r ∈ opcodeTable) (c : Word) :
    encode (r.make c) = r.pattern ||| c &&& ~~~r.mask := by
  have noField : ∀ (op : BitVec 8) (c : Word),
      encodeN op = encodeN op ||| c &&& ~~~0xFFFFFFFFFFFFFFFF#64 := by simp
  revert r c
  simp only [opcodeTable, List.cons_append, List.nil_append, List.forall_mem_cons]
  refine ⟨noField _, noField _, noField _, noField _, ?wrreg, ?rdreg, ?wrfreq, ?rdfreq, ?wrnode,
    ?rdnode, ?rdclen, ?rdcbits, ?wrraw, ?rdraw, ?wrpkd, ?rdpkd, noField _, noField _, noField _,
    noField _, nofun⟩
  all_goals
    intro c
    simp only [encode, encodeG, encodeF, encodeT, encodeK, encodeB, fieldReg, fieldVal, fieldSymF,
      fieldCnt, fieldIdx, fieldKind, fieldPay, fieldSymK, fieldChunk, fieldAddr, fieldData,
      cast_eq_place, place_append, place_extractLsb', place_zero, or_zero, BitVec.or_assoc,
      ← and_or_distrib_left]
    rfl

/-! ### Reading a field back from the word it was put in -/

/-- The field before the last. -/
theorem extractLsb'_append_middle {p n m : Nat} (x : BitVec p) (y : BitVec n) (z : BitVec m) :
    (x ++ y ++ z).extractLsb' m n = y := by
  rw [extractLsb'_append_eq_of_le (Nat.le_refl m), Nat.sub_self, extractLsb'_append_eq_right]

theorem fields_encodeG (op reg : BitVec 8) (val : BitVec 40) :
    fieldReg (encodeG op reg val) = reg ∧ fieldVal (encodeG op reg val) = val :=
  ⟨extractLsb'_append_middle .., extractLsb'_append_eq_right⟩

theorem fields_encodeF (op : BitVec 8) (sym : Byte) (cnt : BitVec 32) :
    fieldSymF (encodeF op sym cnt) = sym ∧ fieldCnt (encodeF op sym cnt) = cnt :=
  ⟨extractLsb'_append_middle .., extractLsb'_append_eq_right⟩

theorem fields_encodeT (op : BitVec 8) (idx : BitVec 9) (kind : BitVec 1) (pay : BitVec 18) :
    fieldIdx (encodeT op idx kind pay) = idx ∧ fieldKind (encodeT op idx kind pay) = kind ∧
      fieldPay (encodeT op idx kind pay) = pay :=
  ⟨(extractLsb'_append_eq_of_le (w := 18) (by decide)).trans (extractLsb'_append_middle ..),
    extractLsb'_append_middle .., extractLsb'_append_eq_right⟩

theorem fields_encodeK (op : BitVec 8) (chunk : BitVec 2) (sym : Byte) :
    fieldChunk (encodeK op chunk sym) = chunk ∧ fieldSymK (encodeK op chunk sym) = sym :=
  ⟨extractLsb'_append_middle .., extractLsb'_append_eq_right⟩

theorem fields_encodeB (op : BitVec 8) (addr : BitVec 32) (data : Byte) :
    fieldAddr (encodeB op addr data) = addr ∧ fieldData (encodeB op addr data) = data :=
  ⟨extractLsb'_append_middle .., extractLsb'_append_eq_right⟩

/-! ### Decoding and encoding -/

/-- The row of a command makes the command again from its word. -/
theorem exists_row_make_encode (i : Instr) : ∃ r ∈ opcodeTable, r.make (encode i) = i := by
  have row : ∀ k : Fin 20, (opcodeTable.get k).make (encode i) = i →
      ∃ r ∈ opcodeTable, r.make (encode i) = i := fun k hi => ⟨_, List.get_mem opcodeTable k, hi⟩
  cases i with
  | nop => exact row 0 rfl
  | srst => exact row 1 rfl
  | clrerr => exact row 2 rfl
  | clrfreq => exact row 3 rfl
  | wrreg reg val => exact row 4 (by simp [opcodeTable, encode, fields_encodeG])
  | rdreg reg => exact row 5 (by simp [opcodeTable, encode, fields_encodeG])
  | wrfreq sym cnt => exact row 6 (by simp [opcodeTable, encode, fields_encodeF])
  | rdfreq sym => exact row 7 (by simp [opcodeTable, encode, fields_encodeF])
  | wrnode idx kind pay => exact row 8 (by simp [opcodeTable, encode, fields_encodeT])
  | rdnode idx => exact row 9 (by simp [opcodeTable, encode, fields_encodeT])
  | rdclen sym => exact row 10 (by simp [opcodeTable, encode, fields_encodeK])
  | rdcbits sym chunk => exact row 11 (by simp [opcodeTable, encode, fields_encodeK])
  | wrraw addr data => exact row 12 (by simp [opcodeTable, encode, fields_encodeB])
  | rdraw addr => exact row 13 (by simp [opcodeTable, encode, fields_encodeB])
  | wrpkd addr data => exact row 14 (by simp [opcodeTable, encode, fields_encodeB])
  | rdpkd addr => exact row 15 (by simp [opcodeTable, encode, fields_encodeB])
  | build => exact row 16 rfl
  | assign => exact row 17 rfl
  | pack => exact row 18 rfl
  | unpack => exact row 19 rfl

/-- The word of a command that a row makes meets that row. -/
theorem encode_make_and_mask {r : OpRow} (hr : r ∈ opcodeTable) (c : Word) :
    encode (r.make c) &&& r.mask = r.pattern := by
  have hpattern : ∀ r ∈ opcodeTable, r.pattern &&& r.mask = r.pattern := by decide
  simp [encode_make hr, and_or_distrib_right, BitVec.and_assoc, hpattern r hr]

/-- Every command's word meets the row that makes the command. -/
theorem exists_row_encode (i : Instr) :
    ∃ r ∈ opcodeTable, encode i &&& r.mask = r.pattern ∧ r.make (encode i) = i := by
  obtain ⟨r, hr, hi⟩ := exists_row_make_encode i
  exact ⟨r, hr, by rw [← hi]; exact encode_make_and_mask hr _, hi⟩

/-- Settles O2: a command's word meets its row, and the row reads every field back. -/
theorem decodeOfEncode : Obligations.DecodeOfEncode := fun i =>
  decode_eq_ok_iff.mpr (exists_row_encode i)

/-- Settles O3: the command's word takes the bits a row looks at from the row's pattern, which the word meets, and all others from the word. -/
theorem encodeOfDecode : Obligations.EncodeOfDecode := by
  intro c i h
  obtain ⟨r, hr, hc, rfl⟩ := decode_eq_ok_iff.mp h
  calc encode (r.make c) = c &&& r.mask ||| c &&& ~~~r.mask := by rw [encode_make hr, hc]
    _ = c := by rw [← and_or_distrib_left, or_not_self, and_allOnes]

/-- Settles O1: each word is the word of its command. -/
theorem specWordsDecode : Obligations.SpecWordsDecode :=
  ⟨decodeOfEncode (.wrfreq 0x61#8 3#32), decodeOfEncode (.wrnode 3#9 1#1 0x401#18),
    decodeOfEncode (.rdreg 1#8), decodeOfEncode (.wrreg 5#8 6#40), decodeOfEncode (.rdraw 5#32),
    decodeOfEncode (.wrpkd 1#32 0x80#8), decodeOfEncode (.rdcbits 0x61#8 3#2),
    decodeOfEncode .build, decodeOfEncode .assign, decodeOfEncode .pack, decodeOfEncode .unpack⟩

/-! ### Reserved opcodes -/

/-- OP is the word's top byte (30_encoding.md R71). -/
theorem toNat_opOf (c : Word) : (opOf c).toNat = c.toNat / 2 ^ 56 := by
  rw [opOf, extractLsb'_toNat, Nat.shiftRight_eq_div_pow, Nat.mod_eq_of_lt]
  omega

/-- The reserved values of OP (30_encoding.md R75). -/
def ReservedOp (op : Nat) : Prop :=
  (4 ≤ op ∧ op ≤ 0x0F) ∨ (0x1C ≤ op ∧ op ≤ 0x1F) ∨ 0x24 ≤ op

/-- No row takes a word with a reserved OP (30_encoding.md R75). -/
theorem no_row_of_reservedOp {c : Word} (h : ReservedOp (c.toNat / 2 ^ 56)) {r : OpRow}
    (hr : r ∈ opcodeTable) : c &&& r.mask ≠ r.pattern := by
  have hlisted : ∀ r ∈ opcodeTable, ¬ ReservedOp (opOf r.pattern).toNat := by
    unfold ReservedOp
    decide
  intro hc
  rw [← toNat_opOf, opOf_eq_of_matches hr hc] at h
  exact hlisted r hr h

end Sys2Proof
end

section
/-! PROOF. What a word does once it is taken: its one response, the illegal encodings and the read class (30_encoding.md R70, R75, R80). -/

namespace Sys2Proof.Machine

theorem runWord_of_no_row {c : Word} (h : ∀ r ∈ opcodeTable, c &&& r.mask ≠ r.pattern)
    (s : State) : runWord c s = .next (s.illegalWord c) := by
  obtain ⟨e, he⟩ := decode_eq_error_of_no_row h
  simp [runWord, he]

/-- Settles O5: a word that no row takes is an illegal word, a row looks at all of OP, and a command's word meets its row. -/
theorem illegalEncodingRaisesOrIsDropped : Obligations.IllegalEncodingRaisesOrIsDropped := by
  refine ⟨fun s c rest hs hc => ?illegal, fun c hc r hr => no_row_of_reservedOp hc hr,
    fun i => ?own⟩
  case illegal =>
    rw [step_of_commands_cons hs, runWord_of_no_row hc]
    have clear := State.illegalWord_clear (s := { s with commands := rest }) (c := c)
    have pending := State.illegalWord_pending (s := { s with commands := rest }) (c := c)
    exact ⟨fun he => congrArg _ (clear he), fun he => congrArg _ (pending he)⟩
  case own =>
    obtain ⟨r, hr, hc, -⟩ := exists_row_encode i
    exact ⟨r, hr, hc⟩

/-- Settles O26: by what a read-class command can answer; a dropped one answers 0. -/
theorem readCommandsChangeNothing : Obligations.ReadCommandsChangeNothing := by
  intro i s hc
  rcases exec_read_cases i s hc with ⟨hwf, v, h⟩ | ⟨hwf, he, h⟩ | ⟨hwf, he, h⟩
  · exact ⟨fun _ => ⟨v, h⟩, fun hbad => by simp [hwf] at hbad⟩
  · exact ⟨fun hok => by simp [hwf, he] at hok, fun _ _ => h⟩
  · exact ⟨fun _ => ⟨0#64, h⟩, fun _ hnone => absurd hnone he⟩

theorem Completes.responses_eq {i : Instr} {s u : State} (h : Completes i s u) :
    u.responses = s.responses := by cases h <;> rfl

/-- Every command leaves the words still waiting and adds one response at the end (30_encoding.md R70). -/
theorem exec_responds_once {i : Instr} {s t : State} (h : exec i s = .next t) :
    t.commands = s.commands ∧ ∃ v, t.responses = s.responses ++ [v] := by
  rcases exec_cases h with ⟨-, -, rfl⟩ | ⟨-, -, u, hu, rfl⟩ | ⟨-, -, e, info, -, rfl⟩ |
    ⟨-, v, rfl⟩ | ⟨-, -, rfl⟩ | ⟨-, rfl⟩ | ⟨-, rfl⟩
  case inr.inl => exact ⟨hu.commands_eq, 0#64, by rw [State.respond_responses, hu.responses_eq]⟩
  all_goals exact ⟨rfl, _, rfl⟩

theorem State.illegalWord_responds_once (s : State) (c : Word) :
    (s.illegalWord c).commands = s.commands ∧
      (s.illegalWord c).responses = s.responses ++ [0#64] := by
  by_cases he : s.err = .none
  · simp [State.illegalWord_clear he]
  · simp [State.illegalWord_pending he]

/-- Settles O29: the step rejects the oldest word or executes its command, on the state without that word. -/
theorem oneResponseForEachCommand : Obligations.OneResponseForEachCommand := by
  intro s t c rest hs h
  rw [step_of_commands_cons hs] at h
  cases hd : decode c with
  | ok i =>
    rw [runWord_of_decode_ok hd] at h
    exact exec_responds_once h
  | error e =>
    obtain rfl : State.illegalWord { s with commands := rest } c = t := by
      simpa [runWord, hd] using h
    obtain ⟨hcommands, hresponses⟩ := State.illegalWord_responds_once { s with commands := rest } c
    exact ⟨hcommands, _, hresponses⟩

end Sys2Proof.Machine
end

section
/-! PROOF. The command words as numbers, field by field, and the words with OP 0x00 (30_encoding.md R72; 40_system_and_access.md R90). -/

namespace Sys2Proof

/-- A concatenation is its first part shifted past its second. -/
theorem toNat_append_eq_mul_add {n m : Nat} (x : BitVec n) (y : BitVec m) :
    (x ++ y).toNat = x.toNat * 2 ^ m + y.toNat := by
  rw [BitVec.toNat_append, ← Nat.shiftLeft_add_eq_or_of_lt y.isLt, Nat.shiftLeft_eq]

@[simp] theorem toNat_encodeG (op reg : BitVec 8) (val : BitVec 40) :
    (encodeG op reg val).toNat = op.toNat * 2 ^ 56 + reg.toNat * 2 ^ 40 + val.toNat := by
  simp only [encodeG, BitVec.toNat_cast, toNat_append_eq_mul_add, BitVec.toNat_ofNat]
  omega

@[simp] theorem toNat_encodeF (op : BitVec 8) (sym : Byte) (cnt : BitVec 32) :
    (encodeF op sym cnt).toNat = op.toNat * 2 ^ 56 + sym.toNat * 2 ^ 32 + cnt.toNat := by
  simp only [encodeF, BitVec.toNat_cast, toNat_append_eq_mul_add, BitVec.toNat_ofNat]
  omega

@[simp] theorem toNat_encodeT (op : BitVec 8) (idx : BitVec 9) (kind : BitVec 1) (pay : BitVec 18) :
    (encodeT op idx kind pay).toNat =
      op.toNat * 2 ^ 56 + idx.toNat * 2 ^ 19 + kind.toNat * 2 ^ 18 + pay.toNat := by
  simp only [encodeT, BitVec.toNat_cast, toNat_append_eq_mul_add, BitVec.toNat_ofNat]
  omega

@[simp] theorem toNat_encodeK (op : BitVec 8) (chunk : BitVec 2) (sym : Byte) :
    (encodeK op chunk sym).toNat = op.toNat * 2 ^ 56 + chunk.toNat * 2 ^ 8 + sym.toNat := by
  simp only [encodeK, BitVec.toNat_cast, toNat_append_eq_mul_add, BitVec.toNat_ofNat]
  omega

@[simp] theorem toNat_encodeB (op : BitVec 8) (addr : BitVec 32) (data : Byte) :
    (encodeB op addr data).toNat = op.toNat * 2 ^ 56 + addr.toNat * 2 ^ 8 + data.toNat := by
  simp only [encodeB, BitVec.toNat_cast, toNat_append_eq_mul_add, BitVec.toNat_ofNat]
  omega

/-- OP 0x00 is NOP's row alone, which looks at every bit (40_system_and_access.md R90). -/
theorem eq_zero_of_decode_of_opOf_eq_zero {c : Word} {i : Instr} (hd : decode c = .ok i)
    (hop : opOf c = 0x00#8) : c = 0#64 := by
  have hrow : ∀ r ∈ opcodeTable, opOf r.pattern = 0x00#8 →
      r.mask = BitVec.allOnes 64 ∧ r.pattern = 0#64 := by decide
  obtain ⟨r, hr, hc, -⟩ := decode_eq_ok_iff.mp hd
  obtain ⟨hmask, hpattern⟩ := hrow r hr ((opOf_eq_of_matches hr hc).symm.trans hop)
  rwa [hmask, BitVec.and_allOnes, hpattern] at hc

end Sys2Proof
end

section
/-! PROOF. What a command answers, given how it ends: it completes, raises an error, has a value to read, or is refused (30_encoding.md R73; 60_exceptions.md R188, R189). -/

namespace Sys2Proof.Machine

section
variable {i : Instr} {s u : State}

/-! ### Change-class commands -/

theorem changeCommand_done {body : State → Effect} {r : Word} (he : s.err = .none)
    (hb : body s = .done u r) : changeCommand body s = .next (u.respond r) := by
  rw [changeCommand_clear body he, hb, settle]

theorem changeCommand_raise {body : State → Effect} {e : ErrorCode} {info : Word}
    (he : s.err = .none) (hb : body s = .raise e info) :
    changeCommand body s = .next (s.raiseError e info) := by
  rw [changeCommand_clear body he, hb, settle]

/-- A command that completes answers the state it completes with and the response 0. -/
theorem Completes.exec_eq (h : Completes i s u) (he : s.err = .none) :
    exec i s = .next (u.respond 0#64) := by
  cases h <;>
    simp only [exec, execNop, execClrfreq, execWrreg, execWrfreq, execWrnode, execWrraw, execWrpkd,
      execBuild, execAssign, execPack, execUnpack] <;>
    refine changeCommand_done he ?_
  case nop | clrfreq | wrfreq => rfl
  case wrregNnodes reg val hr hv | wrregRoot reg val hr hv | wrregRawlen reg val hr hv |
      wrregPkdlen reg val hr hv | wrregSymcnt reg val hr hv =>
    simp [hr, regOfNumber, State.writeReg?, Nat.not_lt_of_le hv, writeOrIllegal]
  case wrnode idx kind pay e hi hn => simp [hi, hn, writeOrIllegal]
  case wrraw addr data h | wrpkd addr data h => simp [h, writeOrIllegal]
  case build hl =>
    obtain ⟨l, ls, hl⟩ := List.exists_cons_of_ne_nil hl
    simp [buildBody, hl, State.setTreeBuilt]
  case assign codes hb hc => simp [assignBody, hb, hc]
  case pack hr hc hn => simp [packBody, packCoded, Nat.not_lt_of_le, hr, hc, hn]
  case unpack out hp hs hr hd =>
    have hroot : ¬ (0 < s.symcnt.toNat ∧ s.nnodes.toNat ≤ s.root.toNat) := by omega
    simp [unpackBody, Nat.not_lt_of_le, hp, hs, hroot, hd]

/-- A command that raises an error does only that. -/
theorem Raises.exec_eq {e : ErrorCode} {info : Word} (h : Raises i s e info)
    (he : s.err = .none) : exec i s = .next (s.raiseError e info) := by
  cases h <;>
    simp only [exec, execWrreg, execWrnode, execWrraw, execWrpkd, execBuild, execAssign, execPack,
      execUnpack] <;>
    refine changeCommand_raise he ?_
  case wrreg reg val h => simp [h, writeOrIllegal]
  case wrnode idx kind pay h => rcases h with h | h <;> simp [h, writeOrIllegal]
  case wrraw addr data h | wrpkd addr data h => simp [Nat.not_lt_of_le h, writeOrIllegal]
  case build h => simp only [buildBody, h]
  case assign h => simp [assignBody, h]
  case packRawlen h => simp [packBody, h]
  case packSymbol hr h => simp [packBody, Nat.not_lt_of_le hr, h]
  case packOutput hr hc hn => simp [packBody, packCoded, Nat.not_lt_of_le, hr, hc, hn]
  case unpackPkdlen h => simp [unpackBody, h]
  case unpackSymcnt hp h => simp [unpackBody, Nat.not_lt_of_le hp, h]
  case unpackRoot hp hs h => simp [unpackBody, Nat.not_lt_of_le, hp, hs, h, corrupt]
  case unpackStream hp hs hr h =>
    have hroot : ¬ (0 < s.symcnt.toNat ∧ s.nnodes.toNat ≤ s.root.toNat) := by omega
    simp [unpackBody, Nat.not_lt_of_le, hp, hs, hroot, h, corrupt]

/-! ### Read-class commands -/

theorem readCommand_some {c v : Word} {value : State → Option Word} (hv : value s = some v) :
    readCommand c value s = .next (s.respond v) := by
  rw [readCommand, hv]

/-- A read-class command with an operand out of range raises IllegalCommand with its own word, or is dropped while an error is pending. -/
theorem exec_read_refused (hc : classOf i = .read)
    (hwf : i.wellFormed s.rawcap s.pkdcap = false) :
    (s.err = .none → exec i s = .next (s.raiseError .illegalCommand (encode i))) ∧
    (s.err ≠ .none → exec i s = .next (s.respond 0#64)) := by
  rcases exec_read_cases i s hc with ⟨hok, -⟩ | ⟨-, he, h⟩ | ⟨-, he, h⟩
  · exact absurd hok (by simp [hwf])
  · exact ⟨fun _ => h, fun hne => absurd he hne⟩
  · exact ⟨fun hnone => absurd hnone he, fun _ => h⟩

end

end Sys2Proof.Machine
end

section
/-! PROOF. The system commands NOP, SRST, CLRERR and CLRFREQ (40_system_and_access.md R90 to R93). -/

namespace Sys2Proof.Machine

/-! ### Memories at their reset values -/

theorem State.freqAt_of_replicate {s : State} {n : BitVec 32}
    (h : s.freq = Vector.replicate 256 n) (x : Byte) : s.freqAt x = n := by
  simp [State.freqAt, h]

theorem State.nodeAt?_of_replicate {s : State} {e : NodeEntry}
    (h : s.node = Vector.replicate 511 e) {i : BitVec 9} (hi : i ≠ 511#9) :
    s.nodeAt? i = some e := by
  have hlt : i.toNat < 511 := by bv_omega
  simp [State.nodeAt?, h, hlt]

theorem State.codeAt_of_replicate {s : State} {e : CodeEntry}
    (h : s.code = Vector.replicate 256 e) (x : Byte) : s.codeAt x = e := by
  simp [State.codeAt, h]

/-! ### The four commands -/

/-- Settles O8: executed or dropped, NOP is the response 0. -/
theorem nopOnlyResponds : Obligations.NopOnlyResponds := by
  refine ⟨rfl, fun c hop hne i hd => hne (eq_zero_of_decode_of_opOf_eq_zero hd hop), fun s => ?_⟩
  by_cases he : s.err = .none
  · exact (Completes.nop s).exec_eq he
  · simp [exec, execNop, changeCommand_pending _ he, State.drop]

/-- Settles O9: SRST answers `softReset`, whose fields are the reset values. -/
theorem srstResetsAllButTheBuffers : Obligations.SrstResetsAllButTheBuffers :=
  ⟨rfl, fun _ => ⟨_, rfl, rfl, rfl, rfl, rfl, rfl, rfl, rfl, rfl, rfl, rfl, rfl,
    State.freqAt_of_replicate rfl, fun _ => State.nodeAt?_of_replicate rfl,
    State.codeAt_of_replicate rfl, rfl, rfl, rfl, rfl⟩⟩

/-- Settles O10: CLRERR answers `clearError` and the response 0. -/
theorem clrerrClearsOnlyTheError : Obligations.ClrerrClearsOnlyTheError :=
  ⟨rfl, fun _ => rfl⟩

/-- Settles O11: with every count 0 the tree has no leaf, which is where BUILD raises EmptyInput. -/
theorem clrfreqEmptiesTheTable : Obligations.ClrfreqEmptiesTheTable := by
  refine ⟨rfl, fun s he => ⟨_, (Completes.clrfreq s).exec_eq he, ?_, rfl, ?_⟩⟩
  · exact State.freqAt_of_replicate rfl
  · exact (Raises.build _ ((State.leaves_eq_nil _).mpr (State.freqAt_of_replicate rfl))).exec_eq he

end Sys2Proof.Machine
end
section
/-! PROOF. The access commands: registers, FREQ, NODE, CODE, RAW and PKD (40_system_and_access.md R95 to R106). -/

namespace Sys2Proof.Machine

/-! ### Registers -/

theorem exec_rdreg_of_reg {reg : BitVec 8} {r : Reg} (h : regOfNumber reg = some r) (s : State) :
    exec (.rdreg reg) s = .next (s.respond (s.readReg r)) := by
  rw [exec, execRdreg, readCommand_some (by rw [h]; rfl)]

/-- The register of a number, read off the number's value. -/
theorem reg_eq_of_toNat_eq {reg : BitVec 8} {r q : Reg} {n : Nat} (hr : regOfNumber reg = some r)
    (hn : reg.toNat = n) (hq : regOfNumber (BitVec.ofNat 8 n) = some q) : r = q := by
  rw [← hn, BitVec.ofNat_toNat, BitVec.setWidth_eq, hr] at hq
  exact Option.some.inj hq

/-- Settles O12: a number up to 10 names its register, and a reserved number is an operand out of range. -/
theorem rdregReadsTheRegister : Obligations.RdregReadsTheRegister := by
  refine fun s reg => ⟨by simp [encode], fun hle => ?named, fun hgt => ?raised, fun hgt => ?dropped⟩
  case named =>
    obtain ⟨-, r, hr⟩ := (regOfNumber_cases reg).resolve_right (by omega)
    refine ⟨s.readReg r, exec_rdreg_of_reg hr s, fun h => ?id, fun h => ?status, fun h => ?errinfo,
      fun h => ?_, fun h => ?_, fun h => ?_, fun h => ?_, fun h => ?_, fun h => ?_, fun h => ?_,
      fun h => ?_⟩
    case id => rw [reg_eq_of_toNat_eq hr h rfl, State.readReg, Config.idValue]
    case status | errinfo => rw [reg_eq_of_toNat_eq hr h rfl, State.readReg]
    all_goals
      rw [reg_eq_of_toNat_eq hr h rfl]
      exact BitVec.toNat_setWidth_of_le (by decide)
  case raised => exact (exec_read_refused rfl (by simp [Instr.wellFormed, hgt])).1
  case dropped => exact (exec_read_refused rfl (by simp [Instr.wellFormed, hgt])).2

/-- WRREG has nothing to write for a value above its register's range or a number that names no writable register (40_system_and_access.md R96). -/
theorem wrreg_eq_none (s : State) {reg : BitVec 8} {val : BitVec 40}
    (h : (reg.toNat = 3 ∨ reg.toNat = 4) ∧ 511 < val.toNat ∨
      (5 ≤ reg.toNat ∧ reg.toNat ≤ 7) ∧ 2 ^ 32 - 1 < val.toNat ∨
      reg.toNat < 3 ∨ 7 < reg.toNat) :
    (regOfNumber reg).bind (fun r => s.writeReg? r val) = none := by
  refine (wrreg_cases s reg val).resolve_left ?_
  rintro ⟨u, -, hu⟩
  cases hu with
  | wrregNnodes _ _ _ hr hv | wrregRoot _ _ _ hr hv | wrregRawlen _ _ _ hr hv
  | wrregPkdlen _ _ _ hr hv | wrregSymcnt _ _ _ hr hv =>
    have hnum := congrArg BitVec.toNat hr
    simp only [BitVec.toNat_ofNat] at hnum
    omega

/-- Settles O14: a legal write is one of WRREG's five completions, and for any other number or value it has nothing to write. -/
theorem wrregWritesTheRegister : Obligations.WrregWritesTheRegister := by
  intro s reg val he
  refine ⟨by simp [encode], fun h hv => ?nnodes, fun h hv => ?root, fun h hv => ?rawlen,
    fun h hv => ?pkdlen, fun h hv => ?symcnt,
    fun h => (Raises.wrreg s reg val (wrreg_eq_none s h)).exec_eq he⟩
  all_goals rw [BitVec.ofNat_toNat]
  case nnodes => exact (Completes.wrregNnodes s reg val (by bv_omega) hv).exec_eq he
  case root => exact (Completes.wrregRoot s reg val (by bv_omega) hv).exec_eq he
  case rawlen => exact (Completes.wrregRawlen s reg val (by bv_omega) hv).exec_eq he
  case pkdlen => exact (Completes.wrregPkdlen s reg val (by bv_omega) hv).exec_eq he
  case symcnt => exact (Completes.wrregSymcnt s reg val (by bv_omega) hv).exec_eq he

/-! ### FREQ -/

/-- Settles O15: RDFREQ always has a value, the count zero-extended. -/
theorem rdfreqReadsTheCount : Obligations.RdfreqReadsTheCount := fun s sym =>
  ⟨by simp [encode], (s.freqAt sym).setWidth 64, rfl, BitVec.toNat_setWidth_of_le (by decide)⟩

theorem State.freqAt_setFreq_self (s : State) (x : Byte) (n : BitVec 32) :
    (s.setFreq x n).freqAt x = n :=
  Vector.getElem_set_self x.isLt

/-- Settles O16: WRFREQ completes with `setFreq`, which writes one count. -/
theorem wrfreqWritesTheCount : Obligations.WrfreqWritesTheCount := fun s sym cnt he =>
  ⟨by simp [encode], _, (Completes.wrfreq s sym cnt).exec_eq he, s.freqAt_setFreq_self sym cnt,
    fun _ hx => s.freqAt_setFreq_ne cnt hx, rfl⟩

/-! ### NODE -/

theorem NodeEntry.toNat_record_leaf (sym : Byte) (w : BitVec 40) :
    (NodeEntry.leaf sym w).record.toNat = w.toNat * 2 ^ 18 + sym.toNat := by
  simp only [NodeEntry.record, BitVec.toNat_cast, toNat_append_eq_mul_add, BitVec.toNat_ofNat]
  omega

theorem NodeEntry.toNat_record_internal (l r : BitVec 9) (w : BitVec 40) :
    (NodeEntry.internal l r w).record.toNat =
      2 ^ 58 + w.toNat * 2 ^ 18 + l.toNat * 2 ^ 9 + r.toNat := by
  simp only [NodeEntry.record, BitVec.toNat_cast, toNat_append_eq_mul_add, BitVec.toNat_ofNat]
  omega

theorem exec_rdnode_of_entry {s : State} {idx : BitVec 9} {e : NodeEntry}
    (h : s.nodeAt? idx = some e) :
    exec (.rdnode idx) s = .next (s.respond (e.record.setWidth 64)) := by
  rw [exec, execRdnode, readCommand_some (by rw [h]; rfl)]

/-- Settles O17: every index but 511 has an entry, whose record is the response. -/
theorem rdnodeReadsTheRecord : Obligations.RdnodeReadsTheRecord := by
  intro s idx
  have hwidth : ∀ e : NodeEntry, (e.record.setWidth 64).toNat = e.record.toNat := fun _ =>
    BitVec.toNat_setWidth_of_le (by decide)
  exact ⟨by simp [encode],
    fun sym w h => ⟨_, exec_rdnode_of_entry h, (hwidth _).trans (NodeEntry.toNat_record_leaf sym w)⟩,
    fun l r w h =>
      ⟨_, exec_rdnode_of_entry h, (hwidth _).trans (NodeEntry.toNat_record_internal l r w)⟩,
    fun hne => ((nodeAt?_cases s idx).resolve_right fun h => hne h.1).2,
    fun h => (exec_read_refused rfl (by simp [Instr.wellFormed, h])).1,
    fun h => (exec_read_refused rfl (by simp [Instr.wellFormed, h])).2⟩

theorem State.nodeAt?_setNode_self (s : State) {i : BitVec 9} (e : NodeEntry) (hi : i ≠ 511#9) :
    (s.setNode i e).nodeAt? i = some e := by
  have hlt : i.toNat < 511 := by bv_omega
  simp [State.nodeAt?, hlt]

/-- A leaf's payload is a symbol exactly where PAY[17:8] is 0 (40_system_and_access.md R100). -/
theorem nodeOfPayload?_leaf (pay : BitVec 18) :
    nodeOfPayload? 0#1 pay =
      if pay.toNat < 256 then some (.leaf (BitVec.ofNat 8 pay.toNat) 0#40) else none := by
  have hhigh : pay.extractLsb' 8 10 = 0#10 ↔ pay.toNat < 256 := by
    rw [← BitVec.toNat_inj, BitVec.extractLsb'_toNat, Nat.shiftRight_eq_div_pow, BitVec.toNat_ofNat]
    omega
  simp only [nodeOfPayload?, if_true, hhigh]
  rfl

theorem nodeOfPayload?_internal (pay : BitVec 18) :
    nodeOfPayload? 1#1 pay =
      some (.internal (BitVec.ofNat 9 (pay.toNat / 512)) (BitVec.ofNat 9 (pay.toNat % 512))
        0#40) := by
  have hleft : pay.extractLsb' 9 9 = BitVec.ofNat 9 (pay.toNat / 512) := by
    rw [BitVec.extractLsb', Nat.shiftRight_eq_div_pow]
  have hright : pay.extractLsb' 0 9 = BitVec.ofNat 9 (pay.toNat % 512) := by
    apply BitVec.eq_of_toNat_eq
    simp
  rw [nodeOfPayload?, if_neg (by decide), hleft, hright]

/-- WRNODE where its entry is legal. -/
theorem exec_wrnode_of_entry {s : State} {idx : BitVec 9} {kind : BitVec 1} {pay : BitVec 18}
    {e : NodeEntry} (he : s.err = .none) (hi : idx ≠ 511#9) (hn : nodeOfPayload? kind pay = some e) :
    ∃ t, exec (.wrnode idx kind pay) s = .next t ∧ t.nodeAt? idx = some e ∧
      (∀ j, j ≠ idx → t.nodeAt? j = s.nodeAt? j) ∧
      t = { s with node := t.node, treeBuilt := false, responses := s.responses ++ [0#64] } :=
  ⟨_, (Completes.wrnode s idx kind pay e hi hn).exec_eq he, s.nodeAt?_setNode_self e hi,
    fun _ hj => s.nodeAt?_setNode_ne e hj, rfl⟩

/-- Settles O18: by the entry the payload gives, where it gives one. -/
theorem wrnodeWritesTheEntry : Obligations.WrnodeWritesTheEntry := by
  refine fun s idx kind pay he =>
    ⟨by simp [encode], fun hi hk hp => ?leaf, fun hi hk => ?internal, fun h => ?refused⟩
  case leaf =>
    subst hk
    exact exec_wrnode_of_entry he hi (by rw [nodeOfPayload?_leaf, if_pos hp])
  case internal =>
    subst hk
    exact exec_wrnode_of_entry he hi (nodeOfPayload?_internal pay)
  case refused =>
    refine (Raises.wrnode s idx kind pay (h.imp_right ?_)).exec_eq he
    rintro ⟨rfl, hp⟩
    rw [nodeOfPayload?_leaf, if_neg (Nat.not_lt_of_le hp)]

/-! ### CODE -/

/-- Bit 63 - i of chunk k is BITS[255 - (64 k + i)] (40_system_and_access.md R102). -/
theorem CodeEntry.chunk_getLsbD (e : CodeEntry) (k : BitVec 2) {i : Nat} (hi : i < 64) :
    (e.chunk k).getLsbD (63 - i) = e.bits.getLsbD (255 - (64 * k.toNat + i)) := by
  have hk : k.toNat < 4 := k.isLt
  rw [CodeEntry.chunk, BitVec.getLsbD_extractLsb', decide_eq_true (by omega), Bool.true_and]
  congr 1
  omega

/-- BITS of a padded entry is its code and zeros after it (10_state.md R36). -/
theorem CodeEntry.Padded.getLsbD_bits {e : CodeEntry} (h : e.Padded) {j : Nat} (hj : j < 256) :
    e.bits.getLsbD (255 - j) = e.path.getD j false := by
  by_cases hlen : j < e.len.toNat
  · simp [CodeEntry.path, List.getD, hlen]
  · rw [h j (by omega) hj, List.getD_eq_default _ _ (by simpa using hlen)]

/-- Settles O19: RDCLEN answers LEN, RDCBITS a chunk of BITS, and padded BITS are the code and zeros. -/
theorem codeReadsGiveLengthAndChunk : Obligations.CodeReadsGiveLengthAndChunk := by
  intro s sym
  have hlen : ((s.codeAt sym).len.setWidth 64).toNat = (s.codeAt sym).len.toNat :=
    BitVec.toNat_setWidth_of_le (by decide)
  refine ⟨by simp [encode], ⟨_, rfl, hlen, hlen.trans (CodeEntry.length_path _).symm⟩,
    fun chunk => ⟨by simp [encode], _, rfl, fun i hi => CodeEntry.chunk_getLsbD _ chunk hi,
      fun hpad i hi => ?_⟩⟩
  have hk : chunk.toNat < 4 := chunk.isLt
  exact (CodeEntry.chunk_getLsbD _ chunk hi).trans (hpad.getLsbD_bits (by omega))

/-! ### RAW and PKD -/

theorem exec_rdraw_of_lt {s : State} {addr : BitVec 32} (h : addr.toNat < s.rawcap.toNat) :
    exec (.rdraw addr) s = .next (s.respond ((s.rawByte addr.toNat).setWidth 64)) := by
  rw [exec, execRdraw, readCommand_some (if_pos h)]

theorem exec_rdpkd_of_lt {s : State} {addr : BitVec 32} (h : addr.toNat < s.pkdcap.toNat) :
    exec (.rdpkd addr) s = .next (s.respond ((s.pkdByte addr.toNat).setWidth 64)) := by
  rw [exec, execRdpkd, readCommand_some (if_pos h)]

/-- Settles O20: below RAW_CAP the byte is the value read; any other address is an operand out of range. -/
theorem rdrawReadsTheByte : Obligations.RdrawReadsTheByte := fun s addr =>
  ⟨by simp [encode], fun h => ⟨_, exec_rdraw_of_lt h, BitVec.toNat_setWidth_of_le (by decide)⟩,
    fun h => (exec_read_refused rfl (by simpa [Instr.wellFormed] using h)).1,
    fun h => (exec_read_refused rfl (by simpa [Instr.wellFormed] using h)).2⟩

/-- Settles O22: below PKD_CAP the byte is the value read; any other address is an operand out of range. -/
theorem rdpkdReadsTheByte : Obligations.RdpkdReadsTheByte := fun s addr =>
  ⟨by simp [encode], fun h => ⟨_, exec_rdpkd_of_lt h, BitVec.toNat_setWidth_of_le (by decide)⟩,
    fun h => (exec_read_refused rfl (by simpa [Instr.wellFormed] using h)).1,
    fun h => (exec_read_refused rfl (by simpa [Instr.wellFormed] using h)).2⟩

theorem State.rawByte_writeRaw_self (s : State) (a : Nat) (v : Byte) :
    (s.writeRaw a [v]).rawByte a = v := by
  simp [State.rawByte_writeRaw]

theorem State.pkdByte_writePkd_self (s : State) (a : Nat) (v : Byte) :
    (s.writePkd a [v]).pkdByte a = v := by
  simp [State.pkdByte_writePkd]

/-- Settles O21: below RAW_CAP WRRAW completes with `writeRaw` of one byte, else it raises. -/
theorem wrrawWritesTheByte : Obligations.WrrawWritesTheByte := by
  refine fun s addr data he => ⟨by simp [encode],
    fun h => ⟨_, (Completes.wrraw s addr data h).exec_eq he, s.rawByte_writeRaw_self _ data,
      fun a ha => s.rawByte_writeRaw_outside ?_, rfl⟩,
    fun h => (Raises.wrraw s addr data h).exec_eq he⟩
  simp only [List.length_singleton]
  omega

/-- Settles O23: below PKD_CAP WRPKD completes with `writePkd` of one byte, else it raises. -/
theorem wrpkdWritesTheByte : Obligations.WrpkdWritesTheByte := by
  refine fun s addr data he => ⟨by simp [encode],
    fun h => ⟨_, (Completes.wrpkd s addr data h).exec_eq he, s.pkdByte_writePkd_self _ data,
      fun a ha => s.pkdByte_writePkd_outside ?_, rfl⟩,
    fun h => (Raises.wrpkd s addr data h).exec_eq he⟩
  simp only [List.length_singleton]
  omega

end Sys2Proof.Machine
end

section
/-! PROOF. Unit TB, command BUILD: what it answers, the tree it stores, and that FREQ alone determines that tree (41_tree_builder.md R120 to R129). -/

namespace Sys2Proof.Machine

/-! ### What BUILD answers -/

theorem State.leaves_ne_nil {s : State} (hx : ∃ x, s.freqAt x ≠ 0#32) : s.leaves ≠ [] := by
  obtain ⟨x, hx⟩ := hx
  exact fun h => hx (s.leaves_eq_nil.mp h x)

/-- The state in which a BUILD with a key leaves the block, its response included (R120). -/
def State.afterBuild (s : State) : State :=
  { s with
    node := (buildTree s.node s.leaves).nodes
    root := BitVec.ofNat 9 ((buildTree s.node s.leaves).live.headD 0)
    nnodes := BitVec.ofNat 10 (buildTree s.node s.leaves).next
    treeBuilt := true
    responses := s.responses ++ [0#64] }

section
variable {s : State} (hx : ∃ x, s.freqAt x ≠ 0#32)
include hx

theorem exec_build (he : s.err = .none) : exec .build s = .next s.afterBuild :=
  (Completes.build s (State.leaves_ne_nil hx)).exec_eq he

theorem eq_afterBuild_of_exec {t : State} (he : s.err = .none) (h : exec .build s = .next t) :
    t = s.afterBuild :=
  Host.Outcome.next.inj (h.symm.trans (exec_build hx he))

theorem State.toNat_nnodes_afterBuild : s.afterBuild.nnodes.toNat = 2 * s.keys.length - 1 :=
  State.toNat_nnodes_of_built (State.leaves_ne_nil hx)

theorem State.toNat_root_afterBuild : s.afterBuild.root.toNat = 2 * s.keys.length - 2 := by
  obtain ⟨-, -, hlive⟩ := s.built (State.leaves_ne_nil hx)
  have hlen := s.length_keys_le
  simp only [State.afterBuild, hlive, List.headD_cons, BitVec.toNat_ofNat]
  omega

/-- The tree BUILD stores is well-formed (R128). -/
theorem State.treeWellFormed_afterBuild : s.afterBuild.TreeWellFormed :=
  (Completes.build s (State.leaves_ne_nil hx)).build_treeWellFormed.congr rfl rfl rfl

end

/-! ### The errors and the tree -/

/-- Settles O32: with no count there is no leaf, which is where BUILD raises EmptyInput. -/
theorem buildOfNothingRaisesEmptyInput : Obligations.BuildOfNothingRaisesEmptyInput :=
  fun s he h => (Raises.build s (s.leaves_eq_nil.mpr h)).exec_eq he

/-- The Leaf of the i-th key is entry i (R121, R127). -/
theorem State.node_afterBuild_of_key {s : State} {i : Nat} {x : Byte} (hi : s.keys[i]? = some x) :
    s.afterBuild.node[i]? = some (.leaf x ((s.freqAt x).setWidth 40)) := by
  have hx := (s.mem_keys x).mp (List.mem_of_getElem? hi)
  obtain ⟨hb, -⟩ := s.built (State.leaves_ne_nil ⟨x, hx⟩)
  have hlt : i < s.leaves.length := by
    rw [s.length_leaves]
    exact (List.getElem?_eq_some_iff.mp hi).1
  rw [State.afterBuild, hb.leaves i hlt, State.leaves, List.getElem?_map, hi]
  rfl

/-- Settles O34: the clauses of `Built` for the leaves, the merged entries and the entries beyond them. -/
theorem buildStoresTheTree : Obligations.BuildStoresTheTree := by
  intro s he hx
  obtain ⟨hb, hnext, -⟩ := s.built (State.leaves_ne_nil hx)
  refine ⟨s.afterBuild, exec_build hx he, rfl, State.toNat_nnodes_afterBuild hx,
    State.toNat_root_afterBuild hx, s.mem_keys, s.keys_ascending, fun i x hi => ?leaf,
    fun k hk hk' => ?internal, fun k hk => hb.beyond k (hnext ▸ hk)⟩
  case leaf =>
    refine ⟨_, State.node_afterBuild_of_key hi, ?_⟩
    rw [BitVec.toNat_setWidth]
    exact Nat.mod_eq_of_lt (Nat.lt_trans (s.freqAt x).isLt (by decide))
  case internal =>
    obtain ⟨l, r, w, hk, -⟩ := (hb.merged k (by rwa [s.length_leaves]) (hnext ▸ hk')).merged
    exact ⟨l, r, w, hk⟩

theorem State.keys_eq_singleton {s : State} {x : Byte} (hx : s.freqAt x ≠ 0#32)
    (hy : ∀ y, y ≠ x → s.freqAt y = 0#32) : s.keys = [x] := by
  have hnodup : s.keys.Nodup := s.keys_ascending.imp (fun h e => by simp [e] at h)
  refine List.perm_singleton.mp ((List.perm_ext_iff_of_nodup hnodup (List.nodup_singleton x)).mpr
    fun y => ?_)
  rw [s.mem_keys, List.mem_singleton]
  exact ⟨fun h => by_contra fun hne => h (hy y hne), fun h => h ▸ hx⟩

/-- Settles O33: the tree of one key, which is the case n = 1 of `buildStoresTheTree`. -/
theorem buildOfOneSymbolIsItsLeaf : Obligations.BuildOfOneSymbolIsItsLeaf := by
  intro s x he hx hy
  have hkeys := State.keys_eq_singleton hx hy
  obtain ⟨t, ht, hframe, hnn, hroot, -, -, hleaf, -, hbeyond⟩ := buildStoresTheTree s he ⟨x, hx⟩
  simp only [hkeys, List.length_singleton] at hnn hroot hbeyond
  have hnn : t.nnodes = 1#10 := BitVec.eq_of_toNat_eq hnn
  have hroot : t.root = 0#9 := BitVec.eq_of_toNat_eq hroot
  rw [hnn, hroot] at hframe
  refine ⟨t, ht, hframe, hleaf 0 x (by simp [hkeys]), fun j hj => hbeyond j.toNat ?_⟩
  bv_omega

/-- Settles O35: `MergedLeast` for every Internal entry. -/
theorem buildMergesTheTwoLeast : Obligations.BuildMergesTheTwoLeast := by
  intro s t he hx h k hk hk'
  obtain rfl := eq_afterBuild_of_exec hx he h
  obtain ⟨hb, hnext, -⟩ := s.built (State.leaves_ne_nil hx)
  have hlen := s.length_keys_le
  rw [State.toNat_nnodes_afterBuild hx] at hk'
  obtain ⟨a, b, w, hn, ha, hb, hne, -, hlive, hab, hleast⟩ :=
    (hb.merged k (by rwa [s.length_leaves]) (hnext ▸ hk')).merged
  have entry : ∀ j, j < k → ∃ e, s.afterBuild.node[j]? = some e := fun j hj =>
    ⟨_, Vector.getElem?_eq_getElem (by omega)⟩
  obtain ⟨ea, hea⟩ := entry a.toNat ha
  obtain ⟨eb, heb⟩ := entry b.toNat hb
  refine ⟨a, b, w, ea, eb, hn, hne, ha, hb, hea, heb, hlive, ?_, fun j e hj hej hpar hja hjb => ?_⟩
  · rw [weight_eq_weightAt hea, weight_eq_weightAt heb]
    exact hab
  · rw [weight_eq_weightAt heb, weight_eq_weightAt hej]
    exact hleast j hj hpar hja hjb

/-- Settles O36: what BUILD completes with is well-formed. -/
theorem buildMakesAWellFormedTree : Obligations.BuildMakesAWellFormedTree := by
  intro s t he hx h
  obtain rfl := eq_afterBuild_of_exec hx he h
  exact State.treeWellFormed_afterBuild hx

/-- Settles O37: the live nodes weigh what the leaves weigh, and ROOT is the only one left; no entry weighs more. -/
theorem buildWeightsAreExact : Obligations.BuildWeightsAreExact := by
  intro s t he hx h
  obtain rfl := eq_afterBuild_of_exec hx he h
  obtain ⟨hb, hnext, hlive⟩ := s.built (State.leaves_ne_nil hx)
  have hlen := s.length_keys_le
  have hsum := hb.sum
  have hbounded := hb.bounded
  rw [s.leaves_weights] at hsum hbounded
  rw [hlive, List.map_singleton, List.sum_singleton] at hsum
  constructor
  · have hroot := State.toNat_root_afterBuild hx
    have hentry : s.afterBuild.nodeAt? s.afterBuild.root = some _ :=
      Vector.getElem?_eq_getElem (by omega)
    refine ⟨_, hentry, ?_⟩
    rw [weight_eq_weightAt hentry, hroot]
    exact hsum
  · intro k e hk hke
    rw [State.toNat_nnodes_afterBuild hx, ← hnext] at hk
    rw [weight_eq_weightAt hke]
    exact (hbounded k hk).trans s.counts_le

/-! ### What determines the tree -/

theorem Before.asymm {nodes : Arena} {i j : Nat} (h : Before nodes i j) : ¬ Before nodes j i := by
  unfold Before at *; omega

/-- The two least members in a strict order, where every other comes after the second, are determined. -/
theorem two_least_unique {P : Nat → Prop} {R : Nat → Nat → Prop} (hasymm : ∀ i j, R i j → ¬ R j i)
    (htrans : ∀ i j k, R i j → R j k → R i k) {l r l' r' : Nat} (hl : P l) (hr : P r) (hl' : P l')
    (hr' : P r') (hlr : R l r) (hlr' : R l' r') (hleast : ∀ j, P j → j ≠ l → j ≠ r → R r j)
    (hleast' : ∀ j, P j → j ≠ l' → j ≠ r' → R r' j) : l = l' ∧ r = r' := by
  have first : ∀ {a b}, R a b → (∀ j, P j → j ≠ a → j ≠ b → R b j) → ∀ j, P j → j ≠ a → R a j := by
    intro a b hab hmin j hj hja
    by_cases hjb : j = b
    · exact hjb ▸ hab
    · exact htrans a b j hab (hmin j hj hja hjb)
  have hne : ∀ {a b}, R a b → b ≠ a := by
    rintro a _ hab rfl
    exact hasymm _ _ hab hab
  obtain rfl : l = l' := by_contra fun h =>
    hasymm _ _ (first hlr hleast l' hl' (Ne.symm h)) (first hlr' hleast' l hl h)
  refine ⟨rfl, by_contra fun h => ?_⟩
  exact hasymm _ _ (hleast r' hr' (hne hlr') (Ne.symm h)) (hleast' r hr (hne hlr) h)

section
variable {nodes nodes' : Arena} {k : Nat} (heq : ∀ j, j < k → nodes[j]? = nodes'[j]?)
include heq

theorem hasChild_congr {m j : Nat} (hm : m < k) : hasChild nodes m j ↔ hasChild nodes' m j := by
  simp only [hasChild, heq m hm]

theorem weightAt_congr {j : Nat} (hj : j < k) : weightAt nodes j = weightAt nodes' j := by
  simp only [weightAt, heq j hj]

theorem before_congr {i j : Nat} (hi : i < k) (hj : j < k) :
    Before nodes i j ↔ Before nodes' i j := by
  simp only [Before, weightAt_congr heq hi, weightAt_congr heq hj]

/-- Two merges of the same entries make the same entry (R122, R123). -/
theorem MergedLeast.entry_eq (h : MergedLeast nodes k) (h' : MergedLeast nodes' k) :
    nodes[k]? = nodes'[k]? := by
  obtain ⟨l, r, w, hn, hl, hr, -, hw, hnone, hlr, hleast⟩ := h.merged
  obtain ⟨l', r', w', hn', hl', hr', -, hw', hnone', hlr', hleast'⟩ := h'.merged
  have hlive' : ∀ j, (∀ m, m < k → ¬ hasChild nodes' m j) ↔ ∀ m, m < k → ¬ hasChild nodes m j :=
    fun j => forall₂_congr fun m hm => not_congr (hasChild_congr heq hm).symm
  obtain ⟨hll, hrr⟩ := two_least_unique (R := Before nodes)
    (P := fun j => j < k ∧ ∀ m, m < k → ¬ hasChild nodes m j)
    (fun _ _ => Before.asymm) (fun _ _ _ => Before.trans)
    ⟨hl, fun m hm => (hnone m hm).1⟩ ⟨hr, fun m hm => (hnone m hm).2⟩
    ⟨hl', (hlive' _).mp fun m hm => (hnone' m hm).1⟩
    ⟨hr', (hlive' _).mp fun m hm => (hnone' m hm).2⟩
    hlr ((before_congr heq hl' hr').mpr hlr') (fun j hj => hleast j hj.1 hj.2)
    (fun j hj hjl hjr => (before_congr heq hr' hj.1).mpr
      (hleast' j hj.1 ((hlive' j).mpr hj.2) hjl hjr))
  obtain rfl : l = l' := BitVec.eq_of_toNat_eq hll
  obtain rfl : r = r' := BitVec.eq_of_toNat_eq hrr
  rw [← weightAt_congr heq hl, ← weightAt_congr heq hr, ← hw] at hw'
  rw [hn, hn', BitVec.eq_of_toNat_eq hw']

end

/-- Two builds over the same leaves have the same entries, whatever the arenas held before (R128). -/
theorem Built.entry_eq {base base' : Arena} {ls ls' : List NodeEntry} {b b' : BuildState}
    (hb : Built base ls b) (hb' : Built base' ls' b') (hls : ls = ls') {k : Nat} (hk : k < b.next)
    (hk' : k < b'.next) : b.nodes[k]? = b'.nodes[k]? := by
  subst hls
  induction k using Nat.strong_induction_on with
  | _ k ih =>
    by_cases hkl : k < ls.length
    · rw [hb.leaves k hkl, hb'.leaves k hkl]
    · exact MergedLeast.entry_eq (fun j hj => ih j hj (by omega) (by omega))
        (hb.merged k (by omega) hk) (hb'.merged k (by omega) hk')

theorem State.keys_congr {s s' : State} (h : ∀ x, s.freqAt x = s'.freqAt x) : s.keys = s'.keys := by
  simp only [State.keys, h]

theorem State.leaves_congr {s s' : State} (h : ∀ x, s.freqAt x = s'.freqAt x) :
    s.leaves = s'.leaves := by
  simp only [State.leaves, State.keys_congr h, h]

/-- Settles O38: the counts give the leaves, their number gives NNODES and ROOT, and the leaves give the entries. -/
theorem buildReadsOnlyFreq : Obligations.BuildReadsOnlyFreq := by
  intro s s' t t' he he' hfreq hx h h'
  have hx' : ∃ x, s'.freqAt x ≠ 0#32 := by simpa only [← hfreq] using hx
  obtain rfl := eq_afterBuild_of_exec hx he h
  obtain rfl := eq_afterBuild_of_exec hx' he' h'
  obtain ⟨hb, hnext, -⟩ := s.built (State.leaves_ne_nil hx)
  obtain ⟨hb', hnext', -⟩ := s'.built (State.leaves_ne_nil hx')
  have hkeys := State.keys_congr hfreq
  refine ⟨BitVec.eq_of_toNat_eq ?nnodes, BitVec.eq_of_toNat_eq ?root, fun k hk => ?entry⟩
  case nnodes => rw [State.toNat_nnodes_afterBuild hx, State.toNat_nnodes_afterBuild hx', hkeys]
  case root => rw [State.toNat_root_afterBuild hx, State.toNat_root_afterBuild hx', hkeys]
  case entry =>
    rw [State.toNat_nnodes_afterBuild hx] at hk
    exact hb.entry_eq hb' (State.leaves_congr hfreq) (hnext ▸ hk) (by rwa [hnext', ← hkeys])

end Sys2Proof.Machine
end

section
/-! PROOF. The code of BUILD and ASSIGN is optimal: its weighted path length is the sum of the weights of the Internal entries, and no code in which none begins another costs less (41_tree_builder.md R130). -/

namespace Sys2Proof.Machine

open Sys2Proof.Laws

/-! ### What ASSIGN has written -/

/-- ASSIGN over a built tree, where it answers, writes the codes of the tree (42_code_assigner.md R135). -/
theorem assignCodes_of_exec {s t : State} (he : s.err = .none) (hb : s.treeBuilt = true)
    (h : exec .assign s = .next t) : assignCodes s = .ok t.code := by
  rcases exec_cases h with ⟨-, hne, -⟩ | ⟨-, -, u, hu, rfl⟩ | ⟨-, -, e, info, hr, -⟩ | ⟨hc, -⟩ |
    ⟨hc, -⟩ | ⟨hi, -⟩ | ⟨hi, -⟩
  · exact absurd he hne
  · cases hu with
    | assign _ codes _ hcodes => exact hcodes
  · cases hr with
    | assign _ hnot => exact absurd hb (by simp [hnot])
  all_goals contradiction

/-! ### Depth in the tree -/

open Classical in
/-- How many bits lead from ROOT to an entry: the depth of R130. -/
noncomputable def State.depth (s : State) (j : Nat) : Nat :=
  if h : ∃ q, s.WalksTo s.root q (BitVec.ofNat 9 j) then h.choose.length else 0

section
variable {s : State} (h : s.TreeWellFormed)
include h

theorem State.TreeWellFormed.depth_of_walk {j : Nat} {q : List Bool}
    (hq : s.WalksTo s.root q (BitVec.ofNat 9 j)) : s.depth j = q.length := by
  have hex : ∃ q, s.WalksTo s.root q (BitVec.ofNat 9 j) := ⟨q, hq⟩
  rw [State.depth, dif_pos hex, h.walk_unique hex.choose_spec hq]

theorem State.TreeWellFormed.depth_root : s.depth s.root.toNat = 0 :=
  h.depth_of_walk (q := []) (by simp [State.WalksTo])

/-- One bit leads from an Internal entry to its child (42_code_assigner.md R136). -/
theorem State.TreeWellFormed.walksTo_child {k j : Nat} (hk : k < s.nnodes.toNat)
    (hc : s.childOf k j) : ∃ b, s.WalksTo (BitVec.ofNat 9 k) [b] (BitVec.ofNat 9 j) := by
  have hlegal := h.legal
  have hko : (BitVec.ofNat 9 k).toNat = k := by
    rw [BitVec.toNat_ofNat]
    omega
  obtain ⟨l, r, w, hn, hj⟩ := hc
  have hn : s.nodeAt? (BitVec.ofNat 9 k) = some (.internal l r w) := by rwa [State.nodeAt?, hko]
  rcases h.entry (i := BitVec.ofNat 9 k) (by omega) with ⟨-, x, v, hn'⟩ |
    ⟨-, l', r', w', hn', hl, hr, -⟩ <;> rw [hn] at hn'
  · simp at hn'
  · obtain ⟨rfl, rfl, rfl⟩ := NodeEntry.internal.inj (Option.some.inj hn')
    rcases hj with rfl | rfl
    · exact ⟨false, l, r, w, hn, by simp; omega, by simp [State.WalksTo]⟩
    · exact ⟨true, l, r, w, hn, by simp; omega, by simp [State.WalksTo]⟩

theorem State.TreeWellFormed.depth_child {k j : Nat} (hk : k < s.nnodes.toNat)
    (hc : s.childOf k j) : s.depth j = s.depth k + 1 := by
  have hlegal := h.legal
  obtain ⟨q, hq⟩ := h.walk_exists (BitVec.ofNat 9 k) (by rw [BitVec.toNat_ofNat]; omega)
  obtain ⟨b, hb⟩ := h.walksTo_child hk hc
  rw [h.depth_of_walk hq, h.depth_of_walk (State.walksTo_append.mpr ⟨_, hq, hb⟩),
    List.length_append, List.length_singleton]

/-- A code ASSIGN writes is no longer than its Leaf is deep, where the Leaf is not the whole tree (42_code_assigner.md R136). -/
theorem State.TreeWellFormed.length_codeOf_le {t : State} (ht : assignCodes s = .ok t.code)
    {i : Nat} {x : Byte} {w : BitVec 40} (hi : i + 1 < s.nnodes.toNat) (hx : s.node[i]? = some (.leaf x w)) :
    (t.codeOf x).length ≤ s.depth i := by
  have hlegal := h.legal
  have hroot := h.rootLast
  have hio : (BitVec.ofNat 9 i).toNat = i := by
    rw [BitVec.toNat_ofNat]
    omega
  have hx : s.nodeAt? (BitVec.ofNat 9 i) = some (.leaf x w) := by rwa [State.nodeAt?, hio]
  rcases h.codeAt_cases ht x with ⟨⟨-, v, hv⟩ | ⟨-, j, v, hwalk, hj⟩, -⟩ | hempty
  · have := h.leaf_unique (by omega) (by omega) hx hv
    rw [← this, hio] at hroot
    omega
  · obtain rfl := h.leaf_unique (State.walksTo_lt hwalk (by omega)) (by omega) hj hx
    exact (h.depth_of_walk hwalk).ge
  · simp [State.codeOf, hempty]

end

/-! ### The weights of the Internal entries -/

section
variable {base : Arena} {ls : List NodeEntry} {b : BuildState} (hb : Built base ls b)
include hb

theorem Built.not_hasChild {k : Nat} (hk : k < ls.length) (j : Nat) : ¬ hasChild b.nodes k j := by
  rintro ⟨l, r, w, hn, -⟩
  obtain ⟨x, v, he⟩ := hb.areLeaves _ (List.getElem_mem hk)
  simp [hb.leaves k hk, List.getElem?_eq_getElem hk, he] at hn

/-- When the first merge begins the leaves are live. -/
theorem Built.liveAt_leaves : liveAt b.nodes ls.length = List.range ls.length :=
  List.filter_eq_self.mpr fun j _ => by
    simpa using fun m hm => hb.not_hasChild hm j

theorem Built.map_weight_leaves :
    (List.range ls.length).map (weight b.nodes) = ls.map (fun e => e.weight.toNat) := by
  refine List.ext_getElem (by simp) fun i hi _ => ?_
  rw [List.length_map, List.length_range] at hi
  simp [weight, weightAt, hb.leaves i hi, List.getElem?_eq_getElem hi]

end

/-- The sum of the weights of the Internal entries of the tree BUILD stores. -/
def State.internalWeight (s : State) : Nat :=
  weightsFrom (buildTree s.node s.leaves).nodes (buildTree s.node s.leaves).next s.leaves.length

section
variable {s : State} (hx : ∃ x, s.freqAt x ≠ 0#32)
include hx

/-- The leaves weigh what the keys count (R121, R127). -/
theorem State.map_weight_leaves :
    (List.range s.leaves.length).map (weight (buildTree s.node s.leaves).nodes) =
      s.keys.map (fun x => (s.freqAt x).toNat) :=
  (s.built (State.leaves_ne_nil hx)).1.map_weight_leaves.trans s.leaves_weights

/-- A code in which no key's bits begin another's costs no less than the Internal entries weigh: its lengths meet the Kraft inequality. -/
theorem State.internalWeight_le_weightedLength (code : Byte → List Bool)
    (hfree : ∀ x y, x ∈ s.keys → y ∈ s.keys → x ≠ y → ¬ code x <+: code y) :
    s.internalWeight ≤ s.weightedLength code := by
  obtain ⟨hb, -⟩ := s.built (State.leaves_ne_nil hx)
  obtain ⟨M, hM⟩ : ∃ M, ∀ x ∈ s.keys, (code x).length ≤ M :=
    ⟨(s.keys.map fun x => (code x).length).sum, fun x hxk =>
      List.le_sum_of_mem (List.mem_map_of_mem (f := fun x => (code x).length) hxk)⟩
  have hpairs : s.keys.Pairwise (fun x y => ¬ code x <+: code y ∧ ¬ code y <+: code x) :=
    s.keys_ascending.imp_of_mem fun {x y} hxk hyk hxy =>
      have hne : x ≠ y := fun e => by simp [e] at hxy
      ⟨hfree x y hxk hyk hne, hfree y x hyk hxk hne.symm⟩
  have hkraft := kraft_le M (s.keys.map code) (by simpa using hM) (List.pairwise_map.mpr hpairs)
  have hcost := weightsFrom_le_cost hb M (k := s.leaves.length) (Nat.le_refl _) hb.atLeast
    (s.keys.map fun x => ((s.freqAt x).toNat, (code x).length))
    (by rw [hb.liveAt_leaves, State.map_weight_leaves hx]; simp [Function.comp_def])
    (by simpa using hM) (by simpa [kraftSum, Function.comp_def] using hkraft)
  simpa [cost, State.internalWeight, State.weightedLength, Function.comp_def] using hcost

/-- The code ASSIGN writes after BUILD costs no more than the Internal entries weigh, for two keys or more. -/
theorem State.weightedLength_le_internalWeight {u : State} (htwo : 2 ≤ s.keys.length)
    (hu : assignCodes s.afterBuild = .ok u.code) :
    s.weightedLength u.codeOf ≤ s.internalWeight := by
  obtain ⟨hb, hnext, hlive⟩ := s.built (State.leaves_ne_nil hx)
  have hwf := State.treeWellFormed_afterBuild hx
  have hnn := State.toNat_nnodes_afterBuild hx
  have hsum := weights_eq_weightsFrom hb s.afterBuild.depth hlive
    (State.toNat_root_afterBuild hx ▸ hwf.depth_root)
    (fun k hk j hc => hwf.depth_child (by omega) hc) (Nat.le_refl _) hb.atLeast
  rw [hb.liveAt_leaves] at hsum
  rw [State.internalWeight, ← hsum]
  refine List.Forall₂.sum_le_sum (List.forall₂_iff_get.mpr ⟨by simp, fun i hi hi' => ?_⟩)
  rw [List.length_map] at hi
  have hcount : weight (buildTree s.node s.leaves).nodes i = (s.freqAt s.keys[i]).toNat := by
    simpa using List.getElem_of_eq (State.map_weight_leaves hx) (i := i) (by simpa using hi)
  have hlen := hwf.length_codeOf_le hu (by omega)
    (State.node_afterBuild_of_key (List.getElem?_eq_getElem hi))
  simpa [hcount] using Nat.mul_le_mul_left _ hlen

end

/-- Settles O45: both costs are compared with the weights of the Internal entries. -/
theorem builtCodesAreOptimal : Obligations.BuiltCodesAreOptimal := by
  intro s t u he htwo ht hu code hfree
  obtain ⟨x, hxk⟩ := List.exists_mem_of_length_pos (l := s.keys) (by omega)
  have hx : ∃ x, s.freqAt x ≠ 0#32 := ⟨x, (s.mem_keys x).mp hxk⟩
  obtain rfl := eq_afterBuild_of_exec hx he ht
  exact (State.weightedLength_le_internalWeight hx htwo (assignCodes_of_exec he rfl hu)).trans
    (State.internalWeight_le_weightedLength hx code hfree)

end Sys2Proof.Machine
end

section
/-! PROOF. Unit CA, command ASSIGN: what it answers, that it writes exactly the codes of the tree, how long those are, and that the shape of the tree alone determines them (42_code_assigner.md R135 to R141). -/

namespace Sys2Proof.Machine

/-! ### What ASSIGN answers -/

/-- Settles O39: the command word that IllegalCommand records is the literal of R141. -/
theorem assignNeedsABuiltTree : Obligations.AssignNeedsABuiltTree :=
  fun s he hb => (Raises.assign s hb).exec_eq he

/-- ASSIGN over a built, well-formed tree completes and writes CODE alone (R135). -/
theorem State.TreeWellFormed.exists_exec_assign {s : State} (h : s.TreeWellFormed)
    (he : s.err = .none) (hb : s.treeBuilt = true) :
    ∃ t, exec .assign s = .next t ∧
      t = { s with code := t.code, responses := s.responses ++ [0#64] } := by
  obtain ⟨codes, hcodes, -⟩ := assignCodes_spec h
  exact ⟨_, (Completes.assign s codes hb hcodes).exec_eq he, rfl⟩

/-! ### The codes of the tree -/

theorem State.TreeCode.ne_nil {s : State} {p : List Bool} {x : Byte} (h : s.TreeCode p x) :
    p ≠ [] := by
  rcases h with ⟨rfl, -⟩ | ⟨hne, -⟩
  · simp
  · exact hne

/-- A symbol has one code in the tree (R136, R137). -/
theorem State.TreeWellFormed.treeCode_unique {s : State} (h : s.TreeWellFormed) {p q : List Bool}
    {x : Byte} (hp : s.TreeCode p x) (hq : s.TreeCode q x) : p = q := by
  rcases hp with ⟨rfl, v, hv⟩ | ⟨hpne, hp⟩ <;> rcases hq with ⟨rfl, w, hw⟩ | ⟨hqne, hq⟩
  · rfl
  · exact absurd ((State.pathTo_leaf hv _).mp hq).1 hqne
  · exact absurd ((State.pathTo_leaf hw _).mp hp).1 hpne
  · exact h.path_unique hp hq

/-- The symbols with a code in the tree are those of its Leaf entries (R138). -/
theorem State.TreeWellFormed.exists_treeCode_iff {s : State} (h : s.TreeWellFormed) (x : Byte) :
    (∃ p, s.TreeCode p x) ↔
      ∃ i w, i < s.nnodes.toNat ∧ s.node[i]? = some (.leaf x w) := by
  have hroot : s.root.toNat < s.nnodes.toNat := by have := h.rootLast; omega
  constructor
  · rintro ⟨p, ⟨-, w, hw⟩ | ⟨-, j, w, hwalk, hj⟩⟩
    · exact ⟨s.root.toNat, w, hroot, hw⟩
    · exact ⟨j.toNat, w, State.walksTo_lt hwalk hroot, hj⟩
  · rintro ⟨i, w, hi, hx⟩
    have hio : (BitVec.ofNat 9 i).toNat = i := by
      have := h.legal
      rw [BitVec.toNat_ofNat]
      omega
    have hx : s.nodeAt? (BitVec.ofNat 9 i) = some (.leaf x w) := by rwa [State.nodeAt?, hio]
    obtain ⟨q, hq⟩ := h.walk_exists (BitVec.ofNat 9 i) (by rwa [hio])
    by_cases hnil : q = []
    · subst hnil
      have hq : s.root = BitVec.ofNat 9 i := hq
      exact ⟨[false], .inl ⟨rfl, w, hq ▸ hx⟩⟩
    · exact ⟨q, .inr ⟨hnil, _, w, hq, hx⟩⟩

/-! ### The codes ASSIGN writes -/

section
variable {s t : State} (h : s.TreeWellFormed) (ht : assignCodes s = .ok t.code)
include h ht

/-- ASSIGN gives a symbol its code in the tree, no longer than R140 says, or no code where the tree has none. -/
theorem State.TreeWellFormed.codeOf_cases (x : Byte) :
    (s.TreeCode (t.codeOf x) x ∧ (t.codeOf x).length ≤ max 1 (s.leafCount - 1)) ∨
    ((∀ q, ¬ s.TreeCode q x) ∧ t.codeOf x = []) := by
  obtain ⟨codes, hc, hx⟩ := assignCodes_spec h
  obtain rfl : codes = t.code := Except.ok.inj (hc.symm.trans ht)
  rcases hx x with ⟨q, hq, hlen, hentry⟩ | ⟨hno, hentry⟩
  · have hcode : t.codeOf x = q := by
      have := h.legal
      rw [State.codeOf, show t.codeAt x = _ from hentry]
      exact CodeEntry.ofPath_path q (by unfold State.leafCount at hlen; omega)
    exact .inl (hcode.symm ▸ ⟨hq, hlen⟩)
  · exact .inr ⟨hno, by rw [State.codeOf, show t.codeAt x = _ from hentry, CodeEntry.path_empty]⟩

/-- The codes ASSIGN writes are the codes of the tree (R136, R137). -/
theorem State.TreeWellFormed.treeCode_iff (p : List Bool) (x : Byte) :
    s.TreeCode p x ↔ (t.codeOf x = p ∧ p ≠ []) := by
  rcases h.codeOf_cases ht x with ⟨hcode, -⟩ | ⟨hno, hnil⟩
  · exact ⟨fun hp => ⟨h.treeCode_unique hcode hp, hp.ne_nil⟩, fun ⟨hp, _⟩ => hp ▸ hcode⟩
  · exact ⟨fun hp => absurd hp (hno p), fun ⟨hp, hne⟩ => absurd (hp ▸ hnil) hne⟩

/-- The symbols with a code are those of the Leaf entries of the tree (R138). -/
theorem State.TreeWellFormed.codeOf_ne_nil_iff (x : Byte) :
    t.codeOf x ≠ [] ↔ ∃ i w, i < s.nnodes.toNat ∧ s.node[i]? = some (.leaf x w) := by
  rw [← h.exists_treeCode_iff]
  simp [h.treeCode_iff ht]

end

/-- Settles O40: the codes written are those of the tree, which has one for each Leaf. -/
theorem assignGivesEveryLeafItsPath : Obligations.AssignGivesEveryLeafItsPath := by
  intro s he hb h
  obtain ⟨t, hexec, hframe⟩ := h.exists_exec_assign he hb
  have ht := assignCodes_of_exec he hb hexec
  exact ⟨t, hexec, hframe, h.treeCode_iff ht, h.assigned_padded ht, h.codeOf_ne_nil_iff ht⟩

/-- Settles O41: no code of the tree begins another. -/
theorem assignedCodesArePrefixFree : Obligations.AssignedCodesArePrefixFree :=
  fun _ _ he hb h hexec => h.assigned_prefixFree (assignCodes_of_exec he hb hexec)

/-- Settles O42: a path takes one bit at each of at most n - 1 Internal entries, and n is at most 256. -/
theorem codeLengthsAreBounded : Obligations.CodeLengthsAreBounded := by
  intro s t he hb h hexec x
  have hlen : (t.codeOf x).length ≤ max 1 (s.leafCount - 1) := by
    rcases h.codeOf_cases (assignCodes_of_exec he hb hexec) x with ⟨-, hlen⟩ | ⟨-, hnil⟩
    · exact hlen
    · simp [hnil]
  have hcount : s.leafCount ≤ 256 := by
    have := h.legal
    unfold State.leafCount
    omega
  exact ⟨hlen, by omega⟩

/-! ### ASSIGN after BUILD -/

/-- The symbols of the Leaf entries BUILD stores are the keys (41_tree_builder.md R121). -/
theorem State.exists_leaf_afterBuild_iff {s : State} (hx : ∃ x, s.freqAt x ≠ 0#32) (x : Byte) :
    (∃ i w, i < s.afterBuild.nnodes.toNat ∧ s.afterBuild.node[i]? = some (.leaf x w)) ↔
      s.freqAt x ≠ 0#32 := by
  have hnn := State.toNat_nnodes_afterBuild hx
  rw [← s.mem_keys]
  constructor
  · rintro ⟨i, w, hi, hleaf⟩
    by_cases hik : i < s.keys.length
    · have hkey := List.getElem?_eq_getElem hik
      rw [State.node_afterBuild_of_key hkey] at hleaf
      exact (NodeEntry.leaf.inj (Option.some.inj hleaf)).1 ▸ List.getElem_mem hik
    · obtain ⟨hb, hnext, -⟩ := s.built (State.leaves_ne_nil hx)
      obtain ⟨l, r, v, hnode, -⟩ :=
        (hb.merged i (by rw [s.length_leaves]; omega) (by omega)).merged
      exact absurd (hleaf.symm.trans hnode) (by simp)
  · intro hmem
    obtain ⟨i, hi⟩ := List.mem_iff_getElem?.mp hmem
    have hlt := (List.getElem?_eq_some_iff.mp hi).1
    exact ⟨i, _, by omega, State.node_afterBuild_of_key hi⟩

/-- Settles O43: ASSIGN codes the Leaf entries, and BUILD has stored one for each key. -/
theorem codedSymbolsAreTheKeys : Obligations.CodedSymbolsAreTheKeys := by
  intro s he hx
  have hwf := State.treeWellFormed_afterBuild hx
  obtain ⟨u, hexec, -⟩ := hwf.exists_exec_assign he rfl
  refine ⟨s.afterBuild, u, exec_build hx he, hexec, fun x => ?_⟩
  rw [hwf.codeOf_ne_nil_iff (assignCodes_of_exec he rfl hexec), State.exists_leaf_afterBuild_iff hx]

/-! ### What determines the codes -/

/-- All that the traversal does where it ends: it writes the code of a Leaf, or goes through the two children of an Internal entry, left first (R135). -/
theorem visit_eq_ok {s : State} {depth : Nat} {i : BitVec 9} {p : List Bool}
    {codes c : CodeTable} :
    visit s depth i p codes = .ok c ↔
      (∃ x w, s.nodeAt? i = some (.leaf x w) ∧ c = setCode codes x p) ∨
      ∃ d l r w c', depth = d + 1 ∧ s.nodeAt? i = some (.internal l r w) ∧
        visit s d l (p ++ [false]) codes = .ok c' ∧ visit s d r (p ++ [true]) c' = .ok c := by
  rcases hn : s.nodeAt? i with _ | ⟨x, w⟩ | ⟨l, r, w⟩ <;> cases depth <;>
    simp only [visit, hn]
  case internal.succ d =>
    cases hl : visit s d l (p ++ [false]) codes <;> simp [hl]
  all_goals simp [eq_comm]

/-- Each entry of s has in s' the same kind and symbol or children: the trees differ in weights only. -/
structure State.SameShape (s s' : State) : Prop where
  leaf : ∀ i sym w, s.nodeAt? i = some (.leaf sym w) → ∃ w', s'.nodeAt? i = some (.leaf sym w')
  internal : ∀ i l r w, s.nodeAt? i = some (.internal l r w) →
    ∃ w', s'.nodeAt? i = some (.internal l r w')

section
variable {s s' : State} (hs : s.SameShape s')
include hs

theorem State.SameShape.visit_ok {depth : Nat} {i : BitVec 9} {p : List Bool}
    {codes c : CodeTable} (h : visit s depth i p codes = .ok c) :
    visit s' depth i p codes = .ok c := by
  induction depth using Nat.strong_induction_on generalizing i p codes c with
  | _ depth ih =>
    rcases visit_eq_ok.mp h with ⟨x, w, hi, hc⟩ | ⟨d, l, r, w, c', rfl, hi, hl, hr⟩
    · obtain ⟨w', hi'⟩ := hs.leaf i x w hi
      exact visit_eq_ok.mpr (.inl ⟨x, w', hi', hc⟩)
    · obtain ⟨w', hi'⟩ := hs.internal i l r w hi
      exact visit_eq_ok.mpr (.inr ⟨d, l, r, w', c', rfl, hi', ih d d.lt_succ_self hl,
        ih d d.lt_succ_self hr⟩)

/-- The old codes and the weights have no part in the new codes (R135). -/
theorem State.SameShape.assignCodes_ok (hroot : s.root = s'.root) {c : CodeTable}
    (h : assignCodes s = .ok c) : assignCodes s' = .ok c := by
  unfold assignCodes at h ⊢
  rw [← hroot]
  rcases hn : s.nodeAt? s.root with _ | ⟨x, w⟩ | ⟨l, r, w⟩ <;> simp only [hn] at h
  · simp at h
  · obtain ⟨w', hn'⟩ := hs.leaf _ x w hn
    simpa only [hn'] using h
  · obtain ⟨w', hn'⟩ := hs.internal _ l r w hn
    simpa only [hn'] using hs.visit_ok h

end

/-- Settles O44: a traversal that ends does the same over every tree of that shape. -/
theorem assignReadsOnlyTheShape : Obligations.AssignReadsOnlyTheShape := by
  intro s s' t t' he he' hb hb' hroot hleaf hinternal h h'
  have hcodes := State.SameShape.assignCodes_ok ⟨hleaf, hinternal⟩ hroot
    (assignCodes_of_exec he hb h)
  exact Except.ok.inj (hcodes.symm.trans (assignCodes_of_exec he' hb' h'))

end Sys2Proof.Machine
end

section
/-! PROOF. Unit BP, command PACK: when it completes and with which state, which error it raises, and that RAW below RAWLEN, CODE and the capacities alone determine both (43_bit_packer.md R145 to R153). -/

namespace Sys2Proof.Machine

/-! ### The input and its code stream -/

/-- The bytes PACK reads, RAW[0 .. RAWLEN-1] (R145). -/
def State.packInput (s : State) : List Byte := s.rawBytes s.rawlen.toNat

/-- Every byte PACK reads has a code (R147). -/
def State.AllCoded (s : State) : Prop :=
  ∀ j, j < s.rawlen.toNat → s.codeOf (s.rawByte j) ≠ []

/-- The meaningful part of PACK's output (R146). -/
def State.packStream (s : State) : List Bool := codeStream s s.packInput

theorem State.mem_packInput {s : State} {x : Byte} :
    x ∈ s.packInput ↔ ∃ j, j < s.rawlen.toNat ∧ s.rawByte j = x := by
  simp [State.packInput, State.rawBytes]

theorem State.getElem?_packInput_eq_some {s : State} {j : Nat} {x : Byte} :
    s.packInput[j]? = some x ↔ j < s.rawlen.toNat ∧ s.rawByte j = x := by
  simp [State.packInput, State.rawBytes, List.getElem?_eq_some_iff]

theorem State.packStream_eq_flatMap (s : State) :
    s.packStream = (List.range s.rawlen.toNat).flatMap (fun j => s.codeOf (s.rawByte j)) := by
  simp [State.packStream, State.packInput, State.rawBytes, codeStream, List.flatMap_map,
    State.codeOf]

theorem State.totalBits_packInput (s : State) : totalBits s s.packInput = s.packStream.length :=
  (length_codeStream s s.packInput).symm

theorem State.firstUncoded_packInput_eq_none {s : State} :
    firstUncoded s 0 s.packInput = none ↔ s.AllCoded := by
  simp [firstUncoded_none, State.mem_packInput, State.AllCoded, State.codeOf,
    CodeEntry.path_eq_nil]

/-- The least position below RAWLEN whose byte has no code is the one reported (R147). -/
theorem State.firstUncoded_packInput_eq_some {s : State} {j : Nat} (hj : j < s.rawlen.toNat)
    (huncoded : s.codeOf (s.rawByte j) = [])
    (hleast : ∀ i, i < j → s.codeOf (s.rawByte i) ≠ []) :
    firstUncoded s 0 s.packInput = some (j, s.rawByte j) := by
  cases h : firstUncoded s 0 s.packInput with
  | none => exact absurd huncoded (State.firstUncoded_packInput_eq_none.mp h j hj)
  | some r =>
    obtain ⟨k, x⟩ := r
    obtain ⟨-, hk, hlen, hbefore⟩ := firstUncoded_some h
    obtain ⟨-, rfl⟩ := State.getElem?_packInput_eq_some.mp hk
    rcases Nat.lt_trichotomy j k with hjk | rfl | hkj
    · exact absurd ((CodeEntry.path_eq_nil _).mp huncoded)
        (hbefore j _ hjk (State.getElem?_packInput_eq_some.mpr ⟨hj, rfl⟩))
    · rfl
    · exact absurd ((CodeEntry.path_eq_nil _).mpr hlen) (hleast k hkj)

/-- Each byte has at most 255 bits (R149). -/
theorem State.length_packStream_le (s : State) : s.packStream.length ≤ 255 * s.rawlen.toNat := by
  simpa [← s.totalBits_packInput, State.packInput] using totalBits_le s s.packInput

/-- Bytes that have a code have at least one bit each (R149). -/
theorem length_le_totalBits {s : State} {xs : List Byte}
    (h : ∀ x, x ∈ xs → (s.codeAt x).len ≠ 0#8) : xs.length ≤ totalBits s xs := by
  have hone : ∀ n ∈ xs.map fun x => (s.codeAt x).len.toNat, 1 ≤ n := by
    simpa [Nat.one_le_iff_ne_zero, BitVec.toNat_eq] using h
  simpa [totalBits] using List.card_nsmul_le_sum _ 1 hone

theorem State.AllCoded.rawlen_le_length_packStream {s : State} (h : s.AllCoded) :
    s.rawlen.toNat ≤ s.packStream.length := by
  have hone := firstUncoded_none.mp (State.firstUncoded_packInput_eq_none.mpr h)
  simpa [← s.totalBits_packInput, State.packInput] using length_le_totalBits hone

/-! ### The state PACK completes with -/

/-- PKD below the new PKDLEN, PKDLEN and BITCNT written (R145). -/
def State.afterPack (s : State) : State :=
  { s.writePkd 0 (bytesOfBits (ceil8 s.packStream.length) s.packStream) with
    pkdlen := BitVec.ofNat 32 (ceil8 s.packStream.length)
    bitcnt := BitVec.ofNat 40 s.packStream.length }

/-- PACK completes exactly where RAWLEN fits, every byte has a code and the output fits. -/
theorem completes_pack_iff {s u : State} :
    Completes .pack s u ↔ s.rawlen.toNat ≤ s.rawcap.toNat ∧ s.AllCoded ∧
      ceil8 s.packStream.length ≤ s.pkdcap.toNat ∧ u = s.afterPack := by
  simp only [← State.firstUncoded_packInput_eq_none, State.afterPack, ← s.totalBits_packInput]
  constructor
  · rintro ⟨⟩
    next hr hc hn => exact ⟨hr, hc, hn, rfl⟩
  · rintro ⟨hr, hc, hn, rfl⟩
    exact .pack s hr hc hn

/-- BITCNT is wide enough for 255 bits of every byte (R149, R152). -/
theorem State.toNat_bitcnt_afterPack (s : State) :
    s.afterPack.bitcnt.toNat = s.packStream.length := by
  have := s.length_packStream_le
  have := s.rawlen.isLt
  simp only [State.afterPack, BitVec.toNat_ofNat]
  omega

theorem State.toNat_pkdlen_afterPack {s : State}
    (hfit : ceil8 s.packStream.length ≤ s.pkdcap.toNat) :
    s.afterPack.pkdlen.toNat = ceil8 s.packStream.length := by
  have := s.pkdcap.isLt
  simp only [State.afterPack, BitVec.toNat_ofNat]
  omega

theorem State.pkdByte_afterPack (s : State) (a : Nat) :
    s.afterPack.pkdByte a =
      if a < ceil8 s.packStream.length
      then (bytesOfBits (ceil8 s.packStream.length) s.packStream).getD a 0#8
      else s.pkdByte a :=
  (s.pkdByte_writePkd 0 _ a).trans (by simp)

/-- The stream first, then zeros up to the next whole byte (R148). -/
theorem State.pkdBit_afterPack (s : State) {p : Nat} (hp : p < 8 * ceil8 s.packStream.length) :
    s.afterPack.pkdBit p = s.packStream.getD p false := by
  rw [State.pkdBit, s.pkdByte_afterPack, if_pos (by omega)]
  exact bytesOfBits_bit _ _ p hp

/-! ### Where PACK completes -/

/-- Settles O46: the stream of the statement is `packStream`, the final state `afterPack`. -/
theorem packLaysTheCodesEndToEnd : Obligations.PackLaysTheCodesEndToEnd := by
  intro s stream he hr hcoded hstream hfit
  obtain rfl : stream = s.packStream := hstream.trans s.packStream_eq_flatMap.symm
  have hpkdlen := State.toNat_pkdlen_afterPack hfit
  refine ⟨_, (completes_pack_iff.mpr ⟨hr, hcoded, hfit, rfl⟩).exec_eq he, rfl,
    s.toNat_bitcnt_afterPack, hpkdlen, fun p hp => ?bits, fun a ha => ?beyond⟩
  case bits => exact s.pkdBit_afterPack (hpkdlen ▸ hp)
  case beyond => exact (s.pkdByte_afterPack a).trans (if_neg (Nat.not_lt.mpr (hpkdlen ▸ ha)))

/-- Settles O48: no byte is read, so none needs a code and the stream is empty. -/
theorem packOfNothingIsEmpty : Obligations.PackOfNothingIsEmpty := by
  intro s he hr
  have hcoded : s.AllCoded := fun j hj => by simp [hr] at hj
  have hstream : s.packStream = [] := by simp [State.packStream_eq_flatMap, hr]
  have hafter : s.afterPack = { s with pkdlen := 0#32, bitcnt := 0#40 } := by
    rw [State.afterPack, hstream]
    rfl
  rw [(completes_pack_iff.mpr ⟨by simp [hr], hcoded, by simp [hstream, ceil8], rfl⟩).exec_eq he,
    hafter]
  rfl

/-- With no error pending PACK completes with `afterPack` or raises an error. -/
theorem exec_pack_cases {s t : State} (he : s.err = .none) (h : exec .pack s = .next t) :
    (Completes .pack s s.afterPack ∧ t = s.afterPack.respond 0#64) ∨
    ∃ e info, Raises .pack s e info ∧ t = s.raiseError e info := by
  rcases exec_cases h with ⟨-, hne, -⟩ | ⟨-, -, u, hu, rfl⟩ | ⟨-, -, hraised⟩ | ⟨hc, -⟩ |
    ⟨hc, -⟩ | ⟨hc, -⟩ | ⟨hc, -⟩
  · exact absurd he hne
  · obtain ⟨-, -, -, rfl⟩ := completes_pack_iff.mp hu
    exact .inl ⟨hu, rfl⟩
  · exact .inr hraised
  all_goals exact nomatch hc

/-- Settles O49: PKDLEN is BITCNT rounded up to whole bytes, and BITCNT the length of the stream. -/
theorem packReportsTheBitCount : Obligations.PackReportsTheBitCount := by
  intro s t he h ht
  rcases exec_pack_cases he h with ⟨hu, rfl⟩ | ⟨e, info, hraises, rfl⟩
  · obtain ⟨-, hcoded, hfit, -⟩ := completes_pack_iff.mp hu
    have hmin := hcoded.rawlen_le_length_packStream
    have hmax := s.length_packStream_le
    simp only [State.respond_bitcnt, State.respond_pkdlen, s.toNat_bitcnt_afterPack,
      State.toNat_pkdlen_afterPack hfit]
    unfold ceil8 at hfit ⊢
    omega
  · exact absurd ht hraises.ne_none

/-! ### The errors -/

/-- PACK raises BufferBounds with the size of its output where that does not fit (R150). -/
theorem raises_packOutput {s : State} (hr : s.rawlen.toNat ≤ s.rawcap.toNat) (hcoded : s.AllCoded)
    (hbig : s.pkdcap.toNat < ceil8 s.packStream.length) :
    Raises .pack s .bufferBounds (infoSub subPackOutput (ceil8 s.packStream.length)) := by
  rw [← s.totalBits_packInput] at hbig ⊢
  exact .packOutput s hr (State.firstUncoded_packInput_eq_none.mpr hcoded) hbig

/-- Settles O47: each premise is the case of `Raises` that the check before it leaves. -/
theorem packErrorsInOrder : Obligations.PackErrorsInOrder := by
  intro s he
  refine ⟨fun hlen => ?length, fun j hr hj huncoded hleast => ?symbol,
    fun stream hr hcoded hstream hbig => ?output⟩
  case length =>
    have := s.rawlen.isLt
    exact ⟨_, (Raises.packRawlen s hlen).exec_eq he, toNat_infoSub _ _ (by omega)⟩
  case symbol =>
    have := s.rawlen.isLt
    have hfirst := State.firstUncoded_packInput_eq_some hj huncoded hleast
    exact ⟨_, (Raises.packSymbol s j _ hr hfirst).exec_eq he,
      toNat_infoUnknownSymbol _ _ (by omega)⟩
  case output =>
    obtain rfl : stream = s.packStream := hstream.trans s.packStream_eq_flatMap.symm
    have := s.rawlen.isLt
    have := s.length_packStream_le
    exact ⟨_, (raises_packOutput hr hcoded hbig).exec_eq he,
      toNat_infoSub _ _ (by unfold ceil8; omega)⟩

/-! ### What PACK reads -/

theorem firstUncoded_congr {s s' : State} (h : s.code = s'.code) (j : Nat) (xs : List Byte) :
    firstUncoded s j xs = firstUncoded s' j xs := by
  induction xs generalizing j with
  | nil => rfl
  | cons x xs ih => simp only [firstUncoded, State.codeAt_congr h, ih]

theorem codeStream_congr {s s' : State} (h : s.code = s'.code) (xs : List Byte) :
    codeStream s xs = codeStream s' xs := by
  simp only [codeStream, State.codeAt_congr h]

/-- The two states agree in all that PACK reads (R153). -/
structure State.SamePackInput (s s' : State) : Prop where
  rawlen : s.rawlen = s'.rawlen
  rawcap : s.rawcap = s'.rawcap
  pkdcap : s.pkdcap = s'.pkdcap
  code : s.code = s'.code
  input : s.packInput = s'.packInput

section
variable {s s' : State} (hs : s.SamePackInput s')
include hs

theorem State.SamePackInput.firstUncoded_eq :
    firstUncoded s 0 s.packInput = firstUncoded s' 0 s'.packInput := by
  rw [hs.input, firstUncoded_congr hs.code]

theorem State.SamePackInput.packStream_eq : s.packStream = s'.packStream := by
  rw [State.packStream, State.packStream, hs.input, codeStream_congr hs.code]

theorem State.SamePackInput.allCoded_iff : s.AllCoded ↔ s'.AllCoded := by
  rw [← State.firstUncoded_packInput_eq_none, hs.firstUncoded_eq,
    State.firstUncoded_packInput_eq_none]

/-- PACK completes in one of the two states where it does in the other. -/
theorem State.SamePackInput.completes (h : Completes .pack s s.afterPack) :
    Completes .pack s' s'.afterPack := by
  obtain ⟨hr, hcoded, hfit, -⟩ := completes_pack_iff.mp h
  rw [hs.rawlen, hs.rawcap] at hr
  rw [hs.packStream_eq, hs.pkdcap] at hfit
  exact completes_pack_iff.mpr ⟨hr, hs.allCoded_iff.mp hcoded, hfit, rfl⟩

/-- PACK raises in the other state the same error with the same ERRINFO. -/
theorem State.SamePackInput.raises {e : ErrorCode} {info : Word} (h : Raises .pack s e info) :
    Raises .pack s' e info := by
  cases h with
  | packRawlen _ h =>
    rw [hs.rawlen] at h ⊢
    exact .packRawlen s' (hs.rawcap ▸ h)
  | packSymbol _ j x hr h =>
    exact .packSymbol s' j x (hs.rawlen ▸ hs.rawcap ▸ hr) (hs.firstUncoded_eq ▸ h)
  | packOutput _ hr hc hn =>
    change s.pkdcap.toNat < ceil8 (totalBits s s.packInput) at hn
    change Raises .pack s' _ (infoSub _ (ceil8 (totalBits s s.packInput)))
    rw [s.totalBits_packInput, hs.packStream_eq] at hn ⊢
    exact raises_packOutput (hs.rawlen ▸ hs.rawcap ▸ hr)
      (hs.allCoded_iff.mp (State.firstUncoded_packInput_eq_none.mp hc)) (hs.pkdcap ▸ hn)

/-- Below the new PKDLEN the bytes packed are the same, whatever PKD held. -/
theorem State.SamePackInput.pkdByte_eq {a : Nat} (ha : a < ceil8 s.packStream.length) :
    s.afterPack.pkdByte a = s'.afterPack.pkdByte a := by
  rw [s.pkdByte_afterPack, s'.pkdByte_afterPack, ← hs.packStream_eq, if_pos ha, if_pos ha]

end

/-- Settles O50: equal inputs complete with the same stream, or raise the same error. -/
theorem packReadsOnlyRawAndCode : Obligations.PackReadsOnlyRawAndCode := by
  intro s s' t t' he he' hrawlen hrawcap hpkdcap hcode hraw h h'
  have hinput : s.packInput = s'.packInput := by
    unfold State.packInput State.rawBytes
    rw [← hrawlen]
    exact List.map_congr_left fun j hj => hraw j (List.mem_range.mp hj)
  have hs : s.SamePackInput s' := ⟨hrawlen, hrawcap, hpkdcap, hcode, hinput⟩
  rcases exec_pack_cases he h with ⟨hu, rfl⟩ | ⟨e, info, hraises, rfl⟩
  · obtain rfl := Host.Outcome.next.inj (((hs.completes hu).exec_eq he').symm.trans h')
    obtain ⟨-, -, hfit, -⟩ := completes_pack_iff.mp hu
    have hpkdlen : s.afterPack.pkdlen.toNat = _ := State.toNat_pkdlen_afterPack hfit
    refine ⟨he.trans he'.symm, fun hne => absurd he hne,
      fun _ => ⟨?pkdlen, ?bitcnt, fun a ha => ?bytes⟩⟩
    case pkdlen => exact congrArg (fun bits => BitVec.ofNat 32 (ceil8 bits.length)) hs.packStream_eq
    case bitcnt => exact congrArg (fun bits => BitVec.ofNat 40 bits.length) hs.packStream_eq
    case bytes => exact hs.pkdByte_eq (hpkdlen ▸ ha)
  · obtain rfl := Host.Outcome.next.inj (((hs.raises hraises).exec_eq he').symm.trans h')
    exact ⟨rfl, fun _ => rfl, fun hnone => absurd hnone hraises.ne_none⟩

end Sys2Proof.Machine
end

section
/-! PROOF. Unit BU, command UNPACK: when it completes and with which state, which error it raises, that the stream, SYMCNT, the capacities and the shape of the tree alone determine both, and that it reads back what PACK wrote (44_bit_unpacker.md R160 to R171). -/

namespace Sys2Proof.Machine

/-! ### The state UNPACK completes with -/

/-- RAW from address 0 on and RAWLEN written (R170). -/
def State.afterUnpack (s : State) (out : List Byte) : State :=
  { s.writeRaw 0 out with rawlen := s.symcnt }

@[simp] theorem State.afterUnpack_err (s : State) (out : List Byte) :
    (s.afterUnpack out).err = s.err := rfl
@[simp] theorem State.afterUnpack_rawlen (s : State) (out : List Byte) :
    (s.afterUnpack out).rawlen = s.symcnt := rfl

theorem State.rawByte_afterUnpack (s : State) (out : List Byte) (a : Nat) :
    (s.afterUnpack out).rawByte a = if a < out.length then out.getD a 0#8 else s.rawByte a :=
  (s.rawByte_writeRaw 0 out a).trans (by simp)

theorem State.rawByte_afterUnpack_of_getElem? (s : State) {out : List Byte} {j : Nat} {x : Byte}
    (h : out[j]? = some x) : (s.afterUnpack out).rawByte j = x := by
  rw [s.rawByte_afterUnpack, if_pos (List.getElem?_eq_some_iff.mp h).1, List.getD, h,
    Option.getD_some]

/-- What UNPACK tests before it reads a bit (R167, R169). -/
structure State.UnpackReady (s : State) : Prop where
  pkdlen : s.pkdlen.toNat ≤ s.pkdcap.toNat
  symcnt : s.symcnt.toNat ≤ s.rawcap.toNat
  root : s.symcnt.toNat = 0 ∨ s.root.toNat < s.nnodes.toNat

/-- UNPACK completes exactly where its tests pass and the walk does. -/
theorem completes_unpack_iff {s u : State} :
    Completes .unpack s u ↔ s.UnpackReady ∧
      ∃ out, decodeSymbols s s.symcnt.toNat 0 s.streamBits = .ok out ∧ u = s.afterUnpack out := by
  constructor
  · rintro ⟨⟩
    next out hp hs hr hd => exact ⟨⟨hp, hs, hr⟩, out, hd, rfl⟩
  · rintro ⟨⟨hp, hs, hr⟩, out, hd, rfl⟩
    exact .unpack s out hp hs hr hd

/-- UNPACK completes with the symbols of any codes of the tree, SYMCNT of them, that begin the stream (R162, R163). -/
theorem exec_unpack_of_codes {s : State} {codes : List (List Bool × Byte)} (he : s.err = .none)
    (h : s.UnpackReady) (hlen : codes.length = s.symcnt.toNat)
    (hcodes : ∀ c, c ∈ codes → s.TreeCode c.1 c.2)
    (hpre : codes.flatMap Prod.fst <+: s.streamBits) :
    exec .unpack s = .next ((s.afterUnpack (codes.map Prod.snd)).respond 0#64) :=
  (completes_unpack_iff.mpr
    ⟨h, _, decodeSymbols_ok.mpr ⟨codes, hlen, rfl, hcodes, hpre⟩, rfl⟩).exec_eq he

/-- Settles O51: the symbols of the codes are what the walk decodes. -/
theorem unpackFollowsTheTree : Obligations.UnpackFollowsTheTree := by
  intro s codes he hp hs _ hroot hlen hcodes hpre
  refine ⟨_, exec_unpack_of_codes he ⟨hp, hs, .inr hroot⟩ hlen hcodes hpre, rfl,
    fun j c hj => ?written, fun a ha => ?beyond⟩
  case written => exact s.rawByte_afterUnpack_of_getElem? (by rw [List.getElem?_map, hj]; rfl)
  case beyond =>
    refine (s.rawByte_afterUnpack _ a).trans (if_neg ?_)
    rw [List.length_map, hlen]
    exact Nat.not_lt.mpr ha

/-- Settles O55: with no symbol asked for no code is needed, neither of the tree nor in the stream. -/
theorem unpackOfNothingIsEmpty : Obligations.UnpackOfNothingIsEmpty := by
  intro s he hsym hp
  have hzero : s.symcnt.toNat = 0 := by rw [hsym]; rfl
  have hready : s.UnpackReady := ⟨hp, hzero ▸ Nat.zero_le _, .inl hzero⟩
  rw [exec_unpack_of_codes (codes := []) he hready hzero.symm (by simp) List.nil_prefix, ← hsym]
  rfl

/-- With no error pending a change-class command completes or raises an error. -/
theorem exec_change_next {i : Instr} {s t : State} (hc : classOf i = .change) (he : s.err = .none)
    (h : exec i s = .next t) :
    (∃ u, Completes i s u ∧ t = u.respond 0#64) ∨
    ∃ e info, Raises i s e info ∧ t = s.raiseError e info := by
  rcases exec_change_cases i s hc with ⟨hne, -⟩ | ⟨-, u, hu, hnext⟩ | ⟨-, e, info, hr, hnext⟩ |
    ⟨-, -, -, f, -, hstop⟩ | ⟨-, -, -, -, hstop⟩
  · exact absurd he hne
  · exact .inl ⟨u, hu, Host.Outcome.next.inj (h.symm.trans hnext)⟩
  · exact .inr ⟨e, info, hr, Host.Outcome.next.inj (h.symm.trans hnext)⟩
  all_goals exact nomatch h.symm.trans hstop

/-- With no error pending UNPACK completes with what the walk decodes or raises an error. -/
theorem exec_unpack_cases {s t : State} (he : s.err = .none) (h : exec .unpack s = .next t) :
    (s.UnpackReady ∧ ∃ out, decodeSymbols s s.symcnt.toNat 0 s.streamBits = .ok out ∧
      t = (s.afterUnpack out).respond 0#64) ∨
    ∃ e info, Raises .unpack s e info ∧ t = s.raiseError e info := by
  refine (exec_change_next rfl he h).imp_left ?_
  rintro ⟨u, hu, rfl⟩
  obtain ⟨hready, out, hd, rfl⟩ := completes_unpack_iff.mp hu
  exact ⟨hready, out, hd, rfl⟩

/-- Settles O52: what the walk decodes are the symbols of codes that begin the stream. -/
theorem unpackNeverGuesses : Obligations.UnpackNeverGuesses := by
  intro s t he _ h ht
  rcases exec_unpack_cases he h with ⟨hready, out, hd, rfl⟩ | ⟨e, info, hraises, rfl⟩
  · obtain ⟨codes, hlen, rfl, hcodes, hpre⟩ := decodeSymbols_ok.mp hd
    exact ⟨hready.pkdlen, hready.symcnt, codes, hlen, hcodes, hpre, rfl,
      fun j c hj => s.rawByte_afterUnpack_of_getElem? (by rw [List.getElem?_map, hj]; rfl)⟩
  · exact absurd ht hraises.ne_none

/-! ### The errors -/

/-- Settles O53: each premise is the case of `Raises` that the tests before it leave. -/
theorem unpackChecksBoundsThenRoot : Obligations.UnpackChecksBoundsThenRoot := by
  intro s he
  have := s.pkdlen.isLt
  have := s.symcnt.isLt
  refine ⟨fun hp => ?pkdlen, fun hp hs => ?symcnt, fun hp hs hpos hroot => ?root⟩
  case pkdlen => exact ⟨_, (Raises.unpackPkdlen s hp).exec_eq he, toNat_infoSub _ _ (by omega)⟩
  case symcnt => exact ⟨_, (Raises.unpackSymcnt s hp hs).exec_eq he, toNat_infoSub _ _ (by omega)⟩
  case root => exact (Raises.unpackRoot s hp hs ⟨hpos, hroot⟩).exec_eq he

/-- A walk that ends at an Internal entry starts at one. -/
theorem State.WalksTo.start_internal {s : State} {i j l r : BitVec 9} {q : List Bool}
    {w : BitVec 40} (h : s.WalksTo i q j) (hj : s.nodeAt? j = some (.internal l r w)) :
    ∃ l' r' w', s.nodeAt? i = some (.internal l' r' w') := by
  cases q with
  | nil =>
    obtain rfl : i = j := h
    exact ⟨l, r, w, hj⟩
  | cons b q =>
    obtain ⟨l', r', w', hi, -⟩ := h
    exact ⟨l', r', w', hi⟩

/-- A descent from entry i goes on from entry j once the bits from i to j are read (R162). -/
theorem descend_append {s : State} {i j l r l' r' : BitVec 9} {q : List Bool} {v w : BitVec 40}
    (n : Nat) (rest : List Bool) (h : s.WalksTo i q j)
    (hi : s.nodeAt? i = some (.internal l r v)) (hj : s.nodeAt? j = some (.internal l' r' w)) :
    descend s n l r (q ++ rest) = descend s n l' r' rest := by
  induction q generalizing i l r v with
  | nil =>
    obtain rfl : i = j := h
    obtain ⟨rfl, rfl, -⟩ := NodeEntry.internal.inj (Option.some.inj (hi.symm.trans hj))
    rfl
  | cons b q ih =>
    obtain ⟨lo, ro, u, hi', hchild, hwalk⟩ := h
    obtain ⟨rfl, rfl, -⟩ := NodeEntry.internal.inj (Option.some.inj (hi.symm.trans hi'))
    obtain ⟨lc, rc, wc, hc⟩ := hwalk.start_internal hj
    rw [List.cons_append, descend, if_neg (Nat.not_le.mpr hchild), ← ih hwalk hc]
    simp only [hc]

/-- The decoding of a symbol goes on from the Internal entry that the bits read so far lead to (R162). -/
theorem decodeSymbol_append {s : State} {j l r : BitVec 9} {q : List Bool} {w : BitVec 40}
    (n : Nat) (rest : List Bool) (h : s.WalksTo s.root q j)
    (hj : s.nodeAt? j = some (.internal l r w)) :
    decodeSymbol s n (q ++ rest) = descend s n l r rest := by
  obtain ⟨l', r', w', hroot⟩ := h.start_internal hj
  rw [← descend_append n rest h hroot hj]
  simp only [decodeSymbol, hroot]

/-- A symbol needs a bit, also where ROOT is a Leaf (R164, R166). -/
theorem decodeSymbol_nil {s : State} {e : NodeEntry} (n : Nat)
    (hroot : s.nodeAt? s.root = some e) :
    decodeSymbol s n [] = .error (corrupt subExhausted n) := by
  cases e <;> simp only [decodeSymbol, hroot, descend]

/-- After a symbol that cannot be decoded no more are. -/
theorem decodeSymbols_of_error {s : State} {n : Nat} {bits : List Bool} {e : Effect} (m : Nat)
    (h : decodeSymbol s n bits = .error e) : decodeSymbols s (m + 1) n bits = .error e := by
  simp only [decodeSymbols, h]

/-- UNPACK has decoded `codes` and still wants a symbol from the remaining `bits` (R164 to R166). -/
structure State.DecodedUpTo (s : State) (codes : List (List Bool × Byte)) (bits : List Bool) :
    Prop where
  ready : s.UnpackReady
  wanted : codes.length < s.symcnt.toNat
  treeCodes : ∀ c, c ∈ codes → s.TreeCode c.1 c.2
  stream : s.streamBits = codes.flatMap Prod.fst ++ bits

/-- Where the next symbol cannot be decoded, UNPACK raises CorruptStream with the number of those before it. -/
theorem State.DecodedUpTo.exec_unpack {s : State} {codes : List (List Bool × Byte)}
    {bits : List Bool} {sub : BitVec 4} (h : s.DecodedUpTo codes bits) (he : s.err = .none)
    (hd : decodeSymbol s codes.length bits = .error (corrupt sub codes.length)) :
    ∃ info : Word, exec .unpack s = .next (s.raiseError .corruptStream info) ∧
      info.toNat = sub.toNat * 2 ^ 60 + codes.length := by
  have hwanted := h.wanted
  have := s.symcnt.isLt
  have hfail : decodeSymbols s s.symcnt.toNat 0 s.streamBits =
      .error (corrupt sub codes.length) := by
    rw [h.stream, show s.symcnt.toNat = codes.length + (s.symcnt.toNat - codes.length - 1 + 1) by
        omega,
      decodeSymbols_append _ _ _ h.treeCodes, Nat.zero_add, decodeSymbols_of_error _ hd]
    rfl
  exact ⟨_, (Raises.unpackStream s sub codes.length h.ready.pkdlen h.ready.symcnt h.ready.root
    hfail).exec_eq he, toNat_infoSub _ _ (by omega)⟩

/-- Settles O54: the symbol after `codes` is not decoded, for the reason of each clause. -/
theorem unpackReportsTheFirstCorruption : Obligations.UnpackReportsTheFirstCorruption := by
  intro s codes q rest j he hp hs hlegal hroot hwanted hcodes hstream hwalk
  have hdecoded : s.DecodedUpTo codes (q ++ rest) :=
    ⟨⟨hp, hs, .inr hroot⟩, hwanted, hcodes, hstream.trans (List.append_assoc ..)⟩
  refine ⟨fun hnil hj => hdecoded.exec_unpack he (sub := subExhausted) ?exhausted,
    fun b more l r w hrest hj hmissing =>
      hdecoded.exec_unpack he (sub := subMissingChild) ?missing,
    fun more x w hrest hq hleaf => hdecoded.exec_unpack he (sub := subBadLeafBit) ?leafBit⟩
  case exhausted =>
    subst hnil
    rcases hj with rfl | ⟨l, r, w, hj⟩
    · exact decodeSymbol_nil _ (Vector.getElem?_eq_getElem (by omega))
    · rw [decodeSymbol_append _ _ hwalk hj, descend]
  case missing => rw [decodeSymbol_append _ _ hwalk hj, hrest, descend, if_pos hmissing]
  case leafBit => simp [hq, hrest, decodeSymbol, hleaf]

/-! ### What UNPACK reads -/

/-- The two states agree in all that UNPACK reads (R160, R162). -/
structure State.SameUnpackInput (s s' : State) : Prop where
  symcnt : s.symcnt = s'.symcnt
  pkdlen : s.pkdlen = s'.pkdlen
  rawcap : s.rawcap = s'.rawcap
  pkdcap : s.pkdcap = s'.pkdcap
  nnodes : s.nnodes = s'.nnodes
  root : s.root = s'.root
  shape : s.SameShape s'
  stream : s.streamBits = s'.streamBits

/-- The stream is the bits of PKD below PKDLEN (R161). -/
theorem State.streamBits_congr {s s' : State} (hlen : s.pkdlen = s'.pkdlen)
    (h : ∀ a, a < s.pkdlen.toNat → s.pkdByte a = s'.pkdByte a) : s.streamBits = s'.streamBits := by
  rw [State.streamBits, State.streamBits, ← hlen]
  refine List.map_congr_left fun p hp => ?_
  rw [State.pkdBit, State.pkdBit, h (p / 8) (by have := List.mem_range.mp hp; omega)]

/-- An index that is no entry of one arena is none of the other. -/
theorem State.nodeAt?_eq_none_of {s : State} {i : BitVec 9} (hi : s.nodeAt? i = none)
    (s' : State) : s'.nodeAt? i = none := by
  rcases nodeAt?_cases s i with ⟨-, e, he⟩ | ⟨rfl, -⟩
  · exact absurd (hi.symm.trans he) nofun
  · rfl

section
variable {s s' : State} (hs : s.SameUnpackInput s')
include hs

/-- The weights have no part in a descent (R162). -/
theorem State.SameUnpackInput.descend_eq (n : Nat) (l r : BitVec 9) (bits : List Bool) :
    descend s n l r bits = descend s' n l r bits := by
  induction bits generalizing l r with
  | nil => rfl
  | cons b bits ih =>
    simp only [descend, hs.nnodes]
    rcases hc : s.nodeAt? (if b then r else l) with _ | ⟨x, w⟩ | ⟨lc, rc, w⟩
    · simp only [State.nodeAt?_eq_none_of hc s']
    · obtain ⟨w', hc'⟩ := hs.shape.leaf _ x w hc
      simp only [hc']
    · obtain ⟨w', hc'⟩ := hs.shape.internal _ lc rc w hc
      simp only [hc', ih]

theorem State.SameUnpackInput.decodeSymbol_eq (n : Nat) (bits : List Bool) :
    decodeSymbol s n bits = decodeSymbol s' n bits := by
  simp only [decodeSymbol, ← hs.root]
  rcases hroot : s.nodeAt? s.root with _ | ⟨x, w⟩ | ⟨l, r, w⟩
  · simp only [State.nodeAt?_eq_none_of hroot s']
  · obtain ⟨w', hroot'⟩ := hs.shape.leaf _ x w hroot
    simp only [hroot']
  · obtain ⟨w', hroot'⟩ := hs.shape.internal _ l r w hroot
    simp only [hroot', hs.descend_eq]

theorem State.SameUnpackInput.decodeSymbols_eq (count n : Nat) (bits : List Bool) :
    decodeSymbols s count n bits = decodeSymbols s' count n bits := by
  induction count generalizing n bits with
  | zero => rfl
  | succ count ih => simp only [decodeSymbols, hs.decodeSymbol_eq, ih]

/-- The whole walk ends in the same way. -/
theorem State.SameUnpackInput.walk_eq :
    decodeSymbols s s.symcnt.toNat 0 s.streamBits =
      decodeSymbols s' s'.symcnt.toNat 0 s'.streamBits := by
  rw [hs.decodeSymbols_eq, hs.symcnt, hs.stream]

theorem State.SameUnpackInput.unpackReady (h : s.UnpackReady) : s'.UnpackReady where
  pkdlen := hs.pkdlen ▸ hs.pkdcap ▸ h.pkdlen
  symcnt := hs.symcnt ▸ hs.rawcap ▸ h.symcnt
  root := hs.symcnt ▸ hs.root ▸ hs.nnodes ▸ h.root

/-- UNPACK raises in the other state the same error with the same ERRINFO. -/
theorem State.SameUnpackInput.raises {e : ErrorCode} {info : Word} (h : Raises .unpack s e info) :
    Raises .unpack s' e info := by
  cases h with
  | unpackPkdlen _ h =>
    rw [hs.pkdlen] at h ⊢
    exact .unpackPkdlen s' (hs.pkdcap ▸ h)
  | unpackSymcnt _ hp h =>
    rw [hs.symcnt] at h ⊢
    exact .unpackSymcnt s' (hs.pkdlen ▸ hs.pkdcap ▸ hp) (hs.rawcap ▸ h)
  | unpackRoot _ hp hsym h =>
    exact .unpackRoot s' (hs.pkdlen ▸ hs.pkdcap ▸ hp) (hs.symcnt ▸ hs.rawcap ▸ hsym)
      (hs.symcnt ▸ hs.root ▸ hs.nnodes ▸ h)
  | unpackStream _ sub n hp hsym hr h =>
    obtain ⟨hp', hsym', hr'⟩ := hs.unpackReady ⟨hp, hsym, hr⟩
    exact .unpackStream s' sub n hp' hsym' hr' (hs.walk_eq ▸ h)

end

/-- Settles O56: with equal inputs the walk decodes the same symbols, or the same error is raised. -/
theorem unpackReadsOnlyStreamAndTree : Obligations.UnpackReadsOnlyStreamAndTree := by
  intro s s' t t' he he' hpkdlen hsymcnt hrawcap hpkdcap hnnodes hroot hleaf hinternal hpkd h h'
  have hs : s.SameUnpackInput s' := ⟨hsymcnt, hpkdlen, hrawcap, hpkdcap, hnnodes, hroot,
    ⟨hleaf, hinternal⟩, State.streamBits_congr hpkdlen hpkd⟩
  rcases exec_unpack_cases he h with ⟨hready, out, hd, rfl⟩ | ⟨e, info, hraises, rfl⟩
  · have hu : Completes .unpack s' (s'.afterUnpack out) :=
      completes_unpack_iff.mpr ⟨hs.unpackReady hready, out, hs.walk_eq ▸ hd, rfl⟩
    obtain rfl := Host.Outcome.next.inj ((hu.exec_eq he').symm.trans h')
    refine ⟨he.trans he'.symm, fun hne => absurd he hne, fun _ => ⟨hsymcnt, fun a ha => ?_⟩⟩
    have ha : a < out.length := by rwa [decodeSymbols_length hd]
    exact (s.rawByte_afterUnpack_of_getElem? (List.getElem?_eq_getElem ha)).trans
      (s'.rawByte_afterUnpack_of_getElem? (List.getElem?_eq_getElem ha)).symm
  · obtain rfl := Host.Outcome.next.inj (((hs.raises hraises).exec_eq he').symm.trans h')
    exact ⟨rfl, fun _ => rfl, fun hnone => absurd hnone hraises.ne_none⟩

/-! ### The round trip -/

theorem State.rawByte_congr {s t : State} (h : t.raw = s.raw) (a : Nat) :
    t.rawByte a = s.rawByte a := by
  rw [State.rawByte, State.rawByte, h]

/-- CODE is what ASSIGN writes for the tree, which is well-formed. -/
structure State.Assigned (s : State) : Prop where
  tree : s.TreeWellFormed
  codes : assignCodes s = .ok s.code

/-- CODE is the tree's once ASSIGN's codes for the same tree are in it. -/
theorem State.TreeWellFormed.assigned {s t : State} (h : s.TreeWellFormed)
    (ht : assignCodes s = .ok t.code) (hnode : t.node = s.node) (hroot : t.root = s.root)
    (hnn : t.nnodes = s.nnodes) : t.Assigned := by
  have hat (i : BitVec 9) : t.nodeAt? i = s.nodeAt? i := by rw [State.nodeAt?, hnode]; rfl
  have hshape : s.SameShape t :=
    ⟨fun i x w hi => ⟨w, (hat i).trans hi⟩, fun i l r w hi => ⟨w, (hat i).trans hi⟩⟩
  exact ⟨h.congr hnode hroot hnn, hshape.assignCodes_ok hroot.symm ht⟩

/-- Where CODE is the tree's, a stream that begins with PACK's output decodes to PACK's input (R171). -/
theorem State.Assigned.exec_unpack {s : State} (h : s.Assigned) (he : s.err = .none)
    (hready : s.UnpackReady) (hsym : s.symcnt = s.rawlen) (hcoded : s.AllCoded)
    (hpre : s.packStream <+: s.streamBits) :
    exec .unpack s = .next ((s.afterUnpack s.packInput).respond 0#64) := by
  have hcodes : ∀ c, c ∈ s.packInput.map (fun x => (s.codeOf x, x)) → s.TreeCode c.1 c.2 := by
    intro c hc
    obtain ⟨x, hx, rfl⟩ := List.mem_map.mp hc
    obtain ⟨j, hj, rfl⟩ := State.mem_packInput.mp hx
    exact (h.tree.treeCode_iff h.codes _ _).mpr ⟨rfl, hcoded j hj⟩
  have hunpack := exec_unpack_of_codes he hready
    (by simp [State.packInput, hsym]) hcodes (by rwa [List.flatMap_map])
  simpa [Function.comp_def] using hunpack

/-- Writing PACK's input back to RAW leaves every byte as it is. -/
theorem State.rawByte_afterUnpack_packInput (s : State) (a : Nat) :
    (s.afterUnpack s.packInput).rawByte a = s.rawByte a := by
  by_cases ha : a < s.rawlen.toNat
  · exact s.rawByte_afterUnpack_of_getElem? (State.getElem?_packInput_eq_some.mpr ⟨ha, rfl⟩)
  · exact (s.rawByte_afterUnpack _ a).trans (if_neg (by simpa [State.packInput] using ha))

/-- The bits to read after a PACK begin with the code stream (R161). -/
theorem State.packStream_prefix_streamBits {s : State}
    (hfit : ceil8 s.packStream.length ≤ s.pkdcap.toNat) :
    s.packStream <+: s.afterPack.streamBits := by
  have hbytes : s.packStream.length ≤ 8 * ceil8 s.packStream.length := by unfold ceil8; omega
  refine List.prefix_iff_getElem?.mpr fun p hp => ?_
  rw [State.streamBits, State.toNat_pkdlen_afterPack hfit, List.getElem?_map,
    List.getElem?_range (hp.trans_le hbytes), Option.map_some,
    s.pkdBit_afterPack (hp.trans_le hbytes), List.getD, List.getElem?_eq_getElem hp,
    Option.getD_some]

/-- The state after PACK and WRREG SYMCNT with RAWLEN, responses included. -/
def State.afterPackWrreg (s : State) : State :=
  { s.afterPack with symcnt := s.rawlen, responses := s.responses ++ [0#64] ++ [0#64] }

@[simp] theorem State.afterPackWrreg_err (s : State) : s.afterPackWrreg.err = s.err := rfl
@[simp] theorem State.afterPackWrreg_symcnt (s : State) : s.afterPackWrreg.symcnt = s.rawlen := rfl

theorem exec_pack_wrreg {s : State} (he : s.err = .none) (hr : s.rawlen.toNat ≤ s.rawcap.toNat)
    (hcoded : s.AllCoded) (hfit : ceil8 s.packStream.length ≤ s.pkdcap.toNat) :
    ∃ t, exec .pack s = .next t ∧
      exec (.wrreg 7#8 (BitVec.ofNat 40 s.rawlen.toNat)) t = .next s.afterPackWrreg := by
  have hlen := s.rawlen.isLt
  have hval : (BitVec.ofNat 40 s.rawlen.toNat).toNat = s.rawlen.toNat := by
    rw [BitVec.toNat_ofNat]
    omega
  have hsym : (BitVec.ofNat 40 s.rawlen.toNat).setWidth 32 = s.rawlen :=
    BitVec.eq_of_toNat_eq (by rw [BitVec.toNat_setWidth, hval, Nat.mod_eq_of_lt hlen])
  have hwrreg := (Completes.wrregSymcnt (s.afterPack.respond 0#64) 7#8
    (BitVec.ofNat 40 s.rawlen.toNat) rfl (by omega)).exec_eq he
  rw [hsym] at hwrreg
  exact ⟨_, (completes_pack_iff.mpr ⟨hr, hcoded, hfit, rfl⟩).exec_eq he, hwrreg⟩

/-- PACK and WRREG SYMCNT leave all that PACK read as it was. -/
theorem State.samePackInput_afterPackWrreg (s : State) : s.SamePackInput s.afterPackWrreg :=
  ⟨rfl, rfl, rfl, rfl, rfl⟩

/-- UNPACK then reads PACK's input back (R171). -/
theorem State.Assigned.exec_unpack_afterPackWrreg {s : State} (h : s.Assigned)
    (he : s.err = .none) (hr : s.rawlen.toNat ≤ s.rawcap.toNat) (hcoded : s.AllCoded)
    (hfit : ceil8 s.packStream.length ≤ s.pkdcap.toNat) :
    ∃ v, exec .unpack s.afterPackWrreg = .next v ∧ v.err = .none ∧ v.rawlen = s.rawlen ∧
      ∀ a, v.rawByte a = s.rawByte a := by
  have hsame := s.samePackInput_afterPackWrreg
  have hroot : s.root.toNat < s.nnodes.toNat := by have := h.tree.rootLast; omega
  have hpkdlen : s.afterPackWrreg.pkdlen.toNat = ceil8 s.packStream.length :=
    State.toNat_pkdlen_afterPack hfit
  have ha : s.afterPackWrreg.Assigned := h.tree.assigned h.codes rfl rfl rfl
  have hready : s.afterPackWrreg.UnpackReady := ⟨hpkdlen.trans_le hfit, hr, .inr hroot⟩
  have hpre : s.afterPackWrreg.packStream <+: s.afterPackWrreg.streamBits :=
    hsame.packStream_eq ▸ State.packStream_prefix_streamBits hfit
  refine ⟨_, ha.exec_unpack he hready rfl (hsame.allCoded_iff.mp hcoded) hpre, by simp [he],
    by simp, fun a => ?_⟩
  calc
    _ = (s.afterPackWrreg.afterUnpack s.afterPackWrreg.packInput).rawByte a :=
      State.rawByte_congr rfl a
    _ = s.afterPackWrreg.rawByte a := s.afterPackWrreg.rawByte_afterUnpack_packInput a
    _ = s.rawByte a := State.rawByte_congr rfl a

/-- ASSIGN after BUILD leaves CODE the tree's, with a code for every key, and what PACK reads else as it was. -/
theorem exists_exec_assign_afterBuild {s : State} (hx : ∃ x, s.freqAt x ≠ 0#32)
    (he : s.err = .none) :
    ∃ t, exec .assign s.afterBuild = .next t ∧ t.Assigned ∧
      (∀ x, t.codeOf x ≠ [] ↔ s.freqAt x ≠ 0#32) ∧ t.err = .none ∧ t.rawlen = s.rawlen ∧
      t.rawcap = s.rawcap ∧ t.pkdcap = s.pkdcap ∧ ∀ a, t.rawByte a = s.rawByte a := by
  have hwf := State.treeWellFormed_afterBuild hx
  obtain ⟨t, hassign, ht⟩ := hwf.exists_exec_assign he rfl
  have hcodes := assignCodes_of_exec (s := s.afterBuild) he rfl hassign
  have hcoded (x : Byte) : t.codeOf x ≠ [] ↔ s.freqAt x ≠ 0#32 :=
    (hwf.codeOf_ne_nil_iff hcodes x).trans (State.exists_leaf_afterBuild_iff hx x)
  refine ⟨t, hassign, hwf.assigned hcodes ?_ ?_ ?_, hcoded, ?_⟩ <;> rw [ht]
  exact ⟨he, rfl, rfl, rfl, State.rawByte_congr rfl⟩

/-- Settles O57: ASSIGN gives CODE the codes of the tree BUILD stored, so UNPACK follows that tree through the stream PACK made of them. -/
theorem unpackUndoesPack : Obligations.UnpackUndoesPack := by
  refine ⟨fun s he hpos hr hfreq => ?nonempty, fun s he hraw hsym => ?empty⟩
  case nonempty =>
    have hx : ∃ x, s.freqAt x ≠ 0#32 := ⟨_, hfreq 0 hpos⟩
    obtain ⟨t, hassign, ht, hcode, het, hrawlen, hrawcap, hpkdcap, hraw⟩ :=
      exists_exec_assign_afterBuild hx he
    refine ⟨_, t, exec_build hx he, hassign, fun hfit => ?_⟩
    have hcoded : t.AllCoded := fun j hj => (hcode _).mpr (hraw j ▸ hfreq j (hrawlen ▸ hj))
    rw [← hrawlen, ← t.packStream_eq_flatMap, ← hpkdcap] at hfit
    rw [← hrawlen, ← hrawcap] at hr
    obtain ⟨u, hpack, hwrreg⟩ := exec_pack_wrreg het hr hcoded hfit
    rw [← hrawlen]
    obtain ⟨v, hunpack, hev, hlen, hback⟩ := ht.exec_unpack_afterPackWrreg het hr hcoded hfit
    exact ⟨u, _, v, hpack, hwrreg, hunpack, hev, hlen, fun a => (hback a).trans (hraw a)⟩
  case empty =>
    refine ⟨_, _, packOfNothingIsEmpty s he hraw,
      unpackOfNothingIsEmpty _ he hsym (Nat.zero_le _), ?_⟩
    simp

end Sys2Proof.Machine
end

section
/-! PROOF. Errors: which commands raise which, what a raised error writes, and what an error that is pending keeps back (60_exceptions.md R180 to R191). -/

namespace Sys2Proof.Machine

/-! ### Operands out of range -/

/-- Every kind of entry has a payload, and a leaf's is a symbol (40_system_and_access.md R100). -/
theorem nodeOfPayload?_ne_none_iff {kind : BitVec 1} {pay : BitVec 18} :
    nodeOfPayload? kind pay ≠ none ↔ kind = 1#1 ∨ pay.toNat < 256 := by
  obtain rfl | rfl := BitVec.eq_zero_or_eq_one kind
  · simp [nodeOfPayload?_leaf]
  · simp [nodeOfPayload?_internal]

/-- WRREG with a value in the range of a writable register has something to write (40_system_and_access.md R96). -/
theorem wrreg_ne_none_of_wellFormed {s : State} {reg : BitVec 8} {val : BitVec 40}
    (h : (Instr.wrreg reg val).wellFormed s.rawcap s.pkdcap = true) :
    (regOfNumber reg).bind (fun r => s.writeReg? r val) ≠ none := by
  simp only [Instr.wellFormed, Bool.or_eq_true, Bool.and_eq_true, decide_eq_true_eq] at h
  rcases h with ⟨rfl | rfl, hv⟩ | ⟨rfl | rfl | rfl, hv⟩ <;>
    simp [regOfNumber, State.writeReg?, Nat.not_lt_of_le hv]

/-- The causes of IllegalCommand in a decoded command: an operand out of range, or ASSIGN with TREE_BUILT = 0 (60_exceptions.md R185). -/
def State.Refuses (s : State) (i : Instr) : Prop :=
  i.wellFormed s.rawcap s.pkdcap = false ∨ (i = .assign ∧ s.treeBuilt = false)

theorem Completes.not_refuses {i : Instr} {s u : State} (h : Completes i s u) :
    ¬ s.Refuses i := by
  cases h with
  | wrregNnodes _ reg val hr hv | wrregRoot _ reg val hr hv | wrregRawlen _ reg val hr hv
  | wrregPkdlen _ reg val hr hv | wrregSymcnt _ reg val hr hv =>
    simp [State.Refuses, Instr.wellFormed, hr, hv]
  | wrnode _ idx kind pay e hi he =>
    simp [State.Refuses, Instr.wellFormed, hi, ← nodeOfPayload?_ne_none_iff, he]
  | wrraw _ addr data h | wrpkd _ addr data h => simp [State.Refuses, Instr.wellFormed, h]
  | assign _ codes hb => simp [State.Refuses, Instr.wellFormed, hb]
  | _ => simp [State.Refuses, Instr.wellFormed]

/-! ### The errors of each command -/

/-- The table of R180: which errors a command run in s with no error pending can raise. ERRINFO is fixed for IllegalCommand only; what it holds for the others is said by `Raises`. -/
inductive State.MayRaise (s : State) : Instr → ErrorCode → Word → Prop where
  | illegalCommand {i : Instr} (h : s.Refuses i) : s.MayRaise i .illegalCommand (encode i)
  | emptyInput (info : Word) : s.MayRaise .build .emptyInput info
  | unknownSymbol (info : Word) : s.MayRaise .pack .unknownSymbol info
  | packBounds (info : Word) : s.MayRaise .pack .bufferBounds info
  | corruptStream (info : Word) : s.MayRaise .unpack .corruptStream info
  | unpackBounds (info : Word) : s.MayRaise .unpack .bufferBounds info

theorem Raises.mayRaise {i : Instr} {s : State} {e : ErrorCode} {info : Word}
    (h : Raises i s e info) : s.MayRaise i e info := by
  cases h with
  | wrreg _ reg val h =>
    exact .illegalCommand (.inl (by_contra fun hwf =>
      wrreg_ne_none_of_wellFormed (Bool.eq_true_of_not_eq_false hwf) h))
  | wrnode _ idx kind pay h =>
    refine .illegalCommand (.inl ?_)
    rcases h with h | h <;> simp [Instr.wellFormed, ← nodeOfPayload?_ne_none_iff, h]
  | wrraw _ addr data h | wrpkd _ addr data h =>
    exact .illegalCommand (.inl (by simp [Instr.wellFormed, h]))
  | assign _ h => exact .illegalCommand (.inr ⟨rfl, h⟩)
  | build => exact .emptyInput _
  | packSymbol => exact .unknownSymbol _
  | packRawlen | packOutput => exact .packBounds _
  | unpackRoot | unpackStream => exact .corruptStream _
  | unpackPkdlen | unpackSymcnt => exact .unpackBounds _

theorem State.MayRaise.ne_none {i : Instr} {s : State} {e : ErrorCode} {info : Word}
    (h : s.MayRaise i e info) : e ≠ .none := by
  cases h <;> simp

/-- IllegalCommand is raised for its causes alone, and they raise nothing else (60_exceptions.md R185). -/
theorem State.MayRaise.eq_illegalCommand_iff {i : Instr} {s : State} {e : ErrorCode} {info : Word}
    (h : s.MayRaise i e info) : e = .illegalCommand ↔ s.Refuses i := by
  cases h with
  | illegalCommand hi => exact iff_of_true rfl hi
  | _ => simp [State.Refuses, Instr.wellFormed]

/-- With no error pending a command that answers a next state ends without an error, and then has no cause of IllegalCommand, or raises one of its errors and does only that. -/
theorem exec_clear_cases {i : Instr} {s t : State} (h : exec i s = .next t) (he : s.err = .none) :
    (t.err = .none ∧ ¬ s.Refuses i) ∨
    ∃ e info, s.MayRaise i e info ∧ t = s.raiseError e info := by
  cases hc : classOf i with
  | change =>
    rcases exec_change_next hc he h with ⟨u, hu, rfl⟩ | ⟨e, info, hr, rfl⟩
    · exact .inl ⟨hu.err_eq.trans he, hu.not_refuses⟩
    · exact .inr ⟨e, info, hr.mayRaise, rfl⟩
  | read =>
    rcases exec_read_cases i s hc with ⟨hwf, v, hv⟩ | ⟨hwf, -, hr⟩ | ⟨-, hp, -⟩
    · obtain rfl := Host.Outcome.next.inj (hv.symm.trans h)
      refine .inl ⟨he, ?_⟩
      rintro (hbad | ⟨rfl, -⟩)
      · simp [hwf] at hbad
      · nomatch hc
    · obtain rfl := Host.Outcome.next.inj (hr.symm.trans h)
      exact .inr ⟨_, _, .illegalCommand (.inl hwf), rfl⟩
    · exact absurd he hp
  | recover =>
    cases i <;> simp only [classOf, reduceCtorEq] at hc
    case srst | clrerr =>
      obtain rfl := Host.Outcome.next.inj h
      exact .inl ⟨rfl, by simp [State.Refuses, Instr.wellFormed]⟩

/-- Settles O24: a command that ends in an error has raised it. -/
theorem raisingCommandsChangeNothingElse : Obligations.RaisingCommandsChangeNothingElse := by
  refine ⟨fun i s t h he ht => ?_, fun s v e info => ⟨rfl, rfl, rfl⟩⟩
  rcases exec_clear_cases h he with ⟨hnone, -⟩ | ⟨e, info, -, rfl⟩
  · exact absurd hnone ht
  · rfl

/-- Settles O27: the causes of IllegalCommand raise it, no other error is raised for them, and a command that ends without an error has none of them. ERRINFO is the command's word (log entry 8). -/
theorem illegalCommandExactlyForBadOperands : Obligations.IllegalCommandExactlyForBadOperands := by
  intro i s t h he
  change (t.err = .illegalCommand ↔ s.Refuses i) ∧ (t.err = .illegalCommand → t.errinfo = encode i)
  rcases exec_clear_cases h he with ⟨hnone, hok⟩ | ⟨e, info, hr, rfl⟩
  · simp [hnone, hok]
  · refine ⟨hr.eq_illegalCommand_iff, fun hill => ?_⟩
    cases hr with
    | illegalCommand => rfl
    | _ => nomatch hill

/-- Settles O28: row by row of the table of errors; the commands of the last clause have no row, and every operand of theirs is in range. -/
theorem errorsByCommand : Obligations.ErrorsByCommand := by
  intro i s t h he
  rcases exec_clear_cases h he with ⟨hnone, -⟩ | ⟨e, info, hr, rfl⟩
  · simp [hnone]
  · cases hr with
    | illegalCommand hi =>
      refine ⟨nofun, nofun, nofun, nofun, ?_⟩
      rintro (rfl | rfl | rfl | rfl | ⟨_, rfl⟩ | ⟨_, _, rfl⟩ | ⟨_, rfl⟩ | ⟨_, _, rfl⟩) <;>
        simp [State.Refuses, Instr.wellFormed] at hi
    | _ => simp

/-! ### While an error is pending -/

/-- While an error is pending every command but CLRERR and SRST does no more than respond, and the change class and reads with an operand out of range respond 0 (60_exceptions.md R189). -/
theorem exec_pending {i : Instr} {s : State} (he : s.err ≠ .none) (hc : classOf i ≠ .recover) :
    ∃ v, exec i s = .next (s.respond v) ∧
      (classOf i = .change ∨ i.wellFormed s.rawcap s.pkdcap = false → v = 0#64) := by
  cases hk : classOf i with
  | recover => exact absurd hk hc
  | change =>
    refine ⟨0#64, ?_, fun _ => rfl⟩
    rcases exec_change_cases i s hk with ⟨-, h⟩ | ⟨hn, -⟩ | ⟨hn, -⟩ | ⟨hn, -⟩ | ⟨hn, -⟩
    · exact h
    all_goals exact absurd hn he
  | read =>
    rcases exec_read_cases i s hk with ⟨hwf, v, h⟩ | ⟨-, hn, -⟩ | ⟨-, -, h⟩
    · exact ⟨v, h, by simp [hwf]⟩
    · exact absurd hn he
    · exact ⟨0#64, h, fun _ => rfl⟩

theorem classOf_eq_recover_iff {i : Instr} :
    classOf i = .recover ↔ i = .clrerr ∨ i = .srst := by
  cases i <;> simp [classOf]

/-- Settles O25: the word taken is an illegal word, which is dropped, or a command that does no more than respond. -/
theorem pendingErrorFreezesTheState : Obligations.PendingErrorFreezesTheState := by
  intro s c rest he hs hclrerr hsrst
  rw [step_of_commands_cons hs]
  cases hd : decode c with
  | ok i =>
    have hc : classOf i ≠ .recover := by
      rw [Ne, classOf_eq_recover_iff]
      rintro (rfl | rfl)
      exacts [hclrerr hd, hsrst hd]
    obtain ⟨v, hv, hzero⟩ := exec_pending (s := { s with commands := rest }) he hc
    exact ⟨v, (runWord_of_decode_ok hd _).trans hv, fun hall => hzero (hall i rfl)⟩
  | error r =>
    refine ⟨0#64, ?_, fun _ => rfl⟩
    rw [runWord, hd, State.illegalWord_pending (s := { s with commands := rest }) he]
    rfl

end Sys2Proof.Machine
end

section
/-! PROOF. Hardware reset, and that the machine never stops: the reset state meets the invariant, and from every state that meets it a step has a next state (70_reset_and_hazards.md R200, R215). -/

namespace Sys2Proof.Machine

/-! ### The state after hardware reset -/

/-- RAW_CAP is at least 1 (00_scope.md R5). -/
theorem State.reset_rawcap_pos : 0 < State.reset.rawcap.toNat := by
  simp [Config.rawCap]

/-- PKD_CAP is at least 1 (00_scope.md R5). -/
theorem State.reset_pkdcap_pos : 0 < State.reset.pkdcap.toNat := by
  simp [Config.pkdCap]

theorem State.reset_codeAt (x : Byte) : State.reset.codeAt x = CodeEntry.empty :=
  State.codeAt_of_replicate State.reset_code x

/-- Settles O7: each clause reads one field of `State.reset`. The unspecified buffer bytes are log entry 3's, the empty channels log entry 4's. -/
theorem resetValues : Obligations.ResetValues :=
  ⟨rfl, rfl, rfl, rfl, rfl, rfl, rfl, rfl, rfl,
    State.reset_rawcap_pos, State.reset_pkdcap_pos, State.freqAt_of_replicate rfl,
    fun _ => State.nodeAt?_of_replicate rfl, State.reset_codeAt, fun _ => ⟨rfl, rfl⟩, rfl, rfl⟩

/-- Settles O58: RAW and PKD list no byte, no tree is marked built and every CODE entry is empty. -/
theorem invariantHoldsAtReset : Obligations.InvariantHoldsAtReset where
  rawCanonical := List.Pairwise.nil
  pkdCanonical := List.Pairwise.nil
  rawInside := nofun
  pkdInside := nofun
  rawcapPos := State.reset_rawcap_pos
  pkdcapPos := State.reset_pkdcap_pos
  nnodesLegal := Nat.zero_le _
  errinfoZero := fun _ => rfl
  builtTree := nofun
  codePadded x := State.reset_codeAt x ▸ CodeEntry.empty_padded
  codePrefixFree a _ _ ha :=
    absurd (by rw [State.codeOf, State.reset_codeAt, CodeEntry.path_empty]) ha

/-! ### UNPACK stays inside NODE -/

section
variable {s : State} (hnn : s.nnodes.toNat ≤ 511)
include hnn

/-- An index below a legal NNODES is an entry of NODE (10_state.md R28, R31). -/
theorem State.nodeAt?_ne_none_of_lt {i : BitVec 9} (hi : i.toNat < s.nnodes.toNat) :
    s.nodeAt? i ≠ none := by
  rcases nodeAt?_cases s i with ⟨-, e, he⟩ | ⟨rfl, -⟩
  · simp [he]
  · exact absurd hi (by simpa using hnn)

/-- A descent goes on to children below NNODES only, so it can fail but not stop (44_bit_unpacker.md R165). -/
theorem descend_ne_stop (n : Nat) (l r : BitVec 9) (bits : List Bool) (f : Fault) :
    descend s n l r bits ≠ .error (.stop f) := by
  induction bits generalizing l r with
  | nil => simp [descend, corrupt]
  | cons b bits ih =>
    simp only [descend]
    generalize (if b = true then r else l) = child
    split
    · simp [corrupt]
    · next hchild =>
      split
      · next hnone => exact absurd hnone (State.nodeAt?_ne_none_of_lt hnn (Nat.lt_of_not_le hchild))
      · simp
      · exact ih _ _

theorem decodeSymbol_ne_stop (hroot : s.root.toNat < s.nnodes.toNat) (n : Nat) (bits : List Bool)
    (f : Fault) : decodeSymbol s n bits ≠ .error (.stop f) := by
  unfold decodeSymbol
  split
  · next hnone => exact absurd hnone (State.nodeAt?_ne_none_of_lt hnn hroot)
  · split
    · simp [corrupt]
    · split <;> simp [corrupt]
  · exact descend_ne_stop hnn n _ _ bits f

/-- UNPACK's walk ends with symbols or a corrupt stream where its check of ROOT passes (44_bit_unpacker.md R160, R167). -/
theorem decodeSymbols_ne_stop (count n : Nat) (bits : List Bool) (f : Fault)
    (hroot : count = 0 ∨ s.root.toNat < s.nnodes.toNat) :
    decodeSymbols s count n bits ≠ .error (.stop f) := by
  induction count generalizing n bits with
  | zero => simp [decodeSymbols]
  | succ count ih =>
    have hroot : s.root.toNat < s.nnodes.toNat := hroot.resolve_left (Nat.succ_ne_zero count)
    simp only [decodeSymbols]
    split
    · next hd =>
      rintro ⟨rfl⟩
      exact decodeSymbol_ne_stop hnn hroot n bits f hd
    · next rest _ =>
      split
      · next hd =>
        rintro ⟨rfl⟩
        exact ih (n + 1) rest (.inr hroot) hd
      · simp

end

/-! ### No step stops -/

/-- Only ASSIGN and UNPACK have a way to stop, ASSIGN over a tree that is not well-formed and UNPACK with NNODES above 511 (log entry 6). -/
theorem State.Inv.exec_next {s : State} (h : s.Inv) (i : Instr) : ∃ t, exec i s = .next t := by
  cases hc : classOf i with
  | read =>
    rcases exec_read_cases i s hc with ⟨-, v, ht⟩ | ⟨-, -, ht⟩ | ⟨-, -, ht⟩
    all_goals exact ⟨_, ht⟩
  | recover =>
    rcases classOf_eq_recover_iff.mp hc with rfl | rfl
    all_goals exact ⟨_, rfl⟩
  | change =>
    rcases exec_change_cases i s hc with ⟨-, ht⟩ | ⟨-, u, -, ht⟩ | ⟨-, e, info, -, ht⟩ |
      ⟨-, -, hbuilt, f, hf, -⟩ | ⟨-, -, hroot, hstop, -⟩
    · exact ⟨_, ht⟩
    · exact ⟨_, ht⟩
    · exact ⟨_, ht⟩
    · obtain ⟨codes, hcodes, -⟩ := assignCodes_spec (h.builtTree hbuilt)
      exact nomatch hf.symm.trans hcodes
    · exact absurd hstop (decodeSymbols_ne_stop h.nnodesLegal _ _ _ _ hroot)

/-- Settles O60: waiting and rejecting a word stop nowhere, and a command is executed in a state that still meets the invariant. The idle step is log entry 4's. -/
theorem noStepStops : Obligations.NoStepStops := by
  intro s hs
  rcases step_cases s with ⟨-, hidle⟩ | ⟨c, rest, r, -, -, hreject⟩ | ⟨c, rest, i, -, -, hexec⟩
  · exact ⟨_, hidle⟩
  · exact ⟨_, hreject⟩
  · have htaken : State.Inv { s with commands := rest } := hs.report rest _ hs.errinfoZero
    rw [hexec]
    exact htaken.exec_next i

end Sys2Proof.Machine
end
